-- ==== Sys2Proof/Word.lean ====
section
/-! DEFINITION. The word types of the DPU: bytes on DIN and DOUT, 32-bit headers and words, 64-bit
argument words and limbs (20_memory.md R41, R45). -/

namespace Sys2Proof

/-- A byte of DIN, DOUT, the buffer or the sponge state (00_scope.md R7). -/
abbrev Byte := BitVec 8

/-- A 32-bit value: a command header, a word of the 32-bit digest family or of MT32. -/
abbrev Word32 := BitVec 32

/-- A 64-bit value: an argument word, RES, ENT, a limb of the 64-bit digest family, a word of MT64. -/
abbrev Word64 := BitVec 64

end Sys2Proof
end

