-- ==== Sys2Proof/Syntax.lean ====
section
/-! DEFINITION. The commands of the DPU, one constructor per row of spec/opcode_table.json
(30_encoding.md R62), with the operands each takes from header, argument words and payload (R63 to R65). -/

namespace Sys2Proof

/-- The digest kinds of 10_state.md R10, in the order of their codes 0 to 9. K128 is the private one. -/
inductive Kind where
  | sha1 | sha224 | sha256 | sha384 | sha512
  | sha3x224 | sha3x256 | sha3x384 | sha3x512
  | k128
  deriving DecidableEq, Repr, Inhabited

/-- The variant bit `v`, hdr[16]: 0 selects MT32, 1 selects MT64 (30_encoding.md R62). -/
inductive Variant where
  | mt32 | mt64
  deriving DecidableEq, Repr, Inhabited

/-- The security level of XOF.NEW (30_encoding.md R63): sel 0 and sel 1. -/
inductive Level where
  | l128 | l256
  deriving DecidableEq, Repr, Inhabited

/-- The operand width code `wc` of RS.INT, hdr[11:10] (30_encoding.md R64). -/
inductive WidthCode where
  | w8 | w16 | w32 | w64
  deriving DecidableEq, Repr, Inhabited

/-- A command with its operands. Payloads are the byte strings DIN delivers (20_memory.md R42); the
elements of a seed array stand as 64-bit values; the argument words of MT.SEED, RS.INT and RS.FLOAT
stand raw, since the width a command uses of them is a matter of its meaning (30_encoding.md R65). -/
inductive Instr where
  | deNew (kind : Kind)
  | deUpdate (data : List Byte)
  | deDigest (data : List Byte)
  | deReset
  | xofNew (level : Level)
  | xofDigest (n : Word64)
  | xofRead (n : Word64)
  | mtSeedR (v : Variant)
  | mtSeed (v : Variant) (arg0 : Word64)
  | mtSeedA (v : Variant) (key : List Word64)
  | mtNext (v : Variant)
  | mtNextW (v : Variant)
  | mtBit (v : Variant)
  | mtDouble (v : Variant) (closed : Bool)
  | mtGetState (v : Variant)
  | mtSetState (v : Variant) (img : List Byte)
  | rsInt (v : Variant) (closed signed : Bool) (wc : WidthCode) (arg0 arg1 : Word64)
  | rsFloat (v : Variant) (closed : Bool) (arg0 arg1 : Word64)
  deriving DecidableEq, Repr, Inhabited

end Sys2Proof
end

