-- ==== Sys2Proof/Machine/Regs.lean ====
section
/-! DEFINITION. The registers of the DPU as plain data: the Digest Engine (10_state.md R11 to R18) and
the two Mersenne Twister cores (R20 to R22). The Ranged Sampler has none (R25). -/

namespace Sys2Proof.Machine

/-- `DE.phase` (10_state.md R17): ABSORB = 0, SQUEEZE = 1. -/
inductive Phase where
  | absorb | squeeze
  deriving DecidableEq, Repr, Inhabited

/-- `DE.state` (10_state.md R16): one of four shapes over one physical register. -/
inductive DState where
  /-- `H[0 .. 4]`, 32-bit words: SHA1. -/
  | words5 (h : Vector Word32 5)
  /-- `H[0 .. 7]`, 32-bit words: SHA224, SHA256. -/
  | words8 (h : Vector Word32 8)
  /-- `H[0 .. 7]`, 64-bit limbs: SHA384, SHA512. -/
  | limbs8 (h : Vector Word64 8)
  /-- `S[0 .. 199]`, bytes: the sponge kinds. -/
  | bytes (s : Vector Byte 200)
  deriving DecidableEq, Repr, Inhabited

/-- The Digest Engine registers (10_state.md R11 to R18), each at the width the spec gives it. -/
structure Engine where
  /-- R11: an engine exists. -/
  valid : Bool
  /-- R12: a code of R10, 4 bits. -/
  kind : Kind
  /-- R13: 168 byte cells, of which the kind uses the first `blockSize`. -/
  buffer : Vector Byte 168
  /-- R14: the number of uncommitted bytes. -/
  bytesInBuffer : BitVec 8
  /-- R15: the bytes absorbed since the initial state, pad included. -/
  total : Word64
  /-- R16: the running state. -/
  state : DState
  /-- R17: ABSORB or SQUEEZE. -/
  phase : Phase
  /-- R18: the bytes of the current output block already delivered. -/
  cursor : BitVec 8
  deriving DecidableEq, Repr, Inhabited

/-- A Mersenne Twister core with `N` words of `W` bits (10_state.md R20 to R22). -/
structure MtCore (W N : Nat) where
  /-- R20: the state array. -/
  X : Vector (BitVec W) N
  /-- R21: the extraction index, held in 10 bits. -/
  w : BitVec 10
  /-- R22: the core has been seeded or has accepted an image. -/
  seeded : Bool
  deriving DecidableEq, Repr, Inhabited

/-- All registers of the unit but FAULT and CAUSE: one engine, one MT32 core, one MT64 core
(92_eei_decisions.md D5). -/
structure Regs where
  de : Engine
  mt32 : MtCore 32 624
  mt64 : MtCore 64 312
  deriving DecidableEq, Repr, Inhabited

/-- The engine registers right after hardware reset: `DE.valid = 0` is the spec's (70_reset_and_hazards.md
R210); every other value is unspecified there and a DESIGN CHOICE here (unsafe, log entry 9). -/
def Engine.afterReset : Engine :=
  { valid := false, kind := .sha1, buffer := Vector.replicate 168 0#8, bytesInBuffer := 0#8, total := 0#64,
    state := .words5 (Vector.replicate 5 0#32), phase := .absorb, cursor := 0#8 }

/-- The core registers right after hardware reset: `MTv.seeded = 0` is the spec's (70_reset_and_hazards.md
R210); `X` and `w` are unspecified there and a DESIGN CHOICE here (unsafe, log entry 9). -/
def MtCore.afterReset (W N : Nat) : MtCore W N :=
  { X := Vector.replicate N 0#W, w := 0#10, seeded := false }

/-- All registers right after hardware reset (70_reset_and_hazards.md R210). -/
def Regs.afterReset : Regs :=
  { de := Engine.afterReset, mt32 := MtCore.afterReset 32 624, mt64 := MtCore.afterReset 64 312 }

end Sys2Proof.Machine
end

