-- ==== Sys2Proof/Config.lean ====
section
/-! DEFINITION. What an implementation fixes (00_scope.md R6): the open parameters, as plain data that
State carries unchanged, and the two free values, opaque constants nothing can evaluate. -/

namespace Sys2Proof.Config

open Sys2Proof.Machine

/-- `P_SETSTATE_REPORT` (43_mersenne_twister.md R150): is an ignored MT.SETSTATE reported on RES? -/
inductive SetStateReport where
  | silent | report
  deriving DecidableEq, Repr

/-- `P_MT32_COMPOSE` (43_mersenne_twister.md R143): which of the two words of MT.NEXT on MT32 is the
high half? -/
inductive Mt32Compose where
  | firstHigh | firstLow
  deriving DecidableEq, Repr

/-- `P_MT_BIT` (43_mersenne_twister.md R145): which bit of a native word does MT.BIT return? -/
inductive MtBit where
  | top | low
  deriving DecidableEq, Repr

/-- Which backends the unit is built with (46_backends.md R180, R184): the reference instantiation, or
an external collaborator of which only the interface is known. -/
inductive BackendChoice where
  | reference
  | external (id : Nat)
  deriving DecidableEq, Repr

/-- What becomes of registers the spec calls unspecified after a fault and after RST
(60_exceptions.md R192, 70_reset_and_hazards.md R210; 93_implementation_defined.md U9, U11 allow both). -/
inductive Residue where
  /-- After a fault they keep their values (10_state.md R29); after RST they hold the named values. -/
  | named
  /-- They hold a free value. -/
  | free
  deriving DecidableEq, Repr

/-- The open parameters of 00_scope.md R6. No command reads another setting than these, and none
writes them. -/
structure Params where
  setStateReport : SetStateReport
  mt32Compose : Mt32Compose
  mtBit : MtBit
  backend : BackendChoice
  residue : Residue
  deriving DecidableEq, Repr

/-- The defaults of 92_eei_decisions.md section 1. -/
def Params.default : Params :=
  { setStateReport := .silent, mt32Compose := .firstHigh, mtBit := .top, backend := .reference, residue := .named }

/-- The backend functions `CB` at their interface (46_backends.md R180 to R183), one entry for each
state shape. The initial state of the sponge kinds is no entry: it is 200 zero bytes (R181, 42_sponge.md
R110). -/
structure Backend where
  /-- `CB.resetState` of SHA1. -/
  reset5 : Vector Word32 5
  /-- `CB.resetState` of SHA224 and SHA256. -/
  reset8 : Kind → Vector Word32 8
  /-- `CB.resetState` of SHA384 and SHA512. -/
  resetLimbs : Kind → Vector Word64 8
  /-- `CB.Compress` of SHA1. -/
  compress5 : Vector Word32 5 → List Byte → Vector Word32 5
  /-- `CB.Compress` of SHA224 and SHA256. -/
  compress8 : Kind → Vector Word32 8 → List Byte → Vector Word32 8
  /-- `CB.Compress` of SHA384 and SHA512. -/
  compressLimbs : Kind → Vector Word64 8 → List Byte → Vector Word64 8
  /-- `CB.KeccakF`. -/
  keccakF : Vector Byte 200 → Vector Byte 200
  deriving Inhabited

/-- FREE VALUE (log entry 6): a backend of which only the interface is known. Every claim about a state
whose `params.backend` is free to be `external` holds for any `CB` (46_backends.md R184). -/
opaque externalBackend : Nat → Backend

/-- FREE VALUE (log entry 8): what stands in the registers after the `n`-th event that leaves them
unspecified (60_exceptions.md R192, 70_reset_and_hazards.md R210). -/
opaque residueOf : Nat → Regs → Regs

end Sys2Proof.Config
end

