-- ==== Sys2Proof/Machine/Bytes.lean ====
section
/-! DEFINITION. Byte strings and register arrays: the byte orders BE, LE and their inverses
(00_scope.md R7, 20_memory.md R43), and the reading and building of arrays of fixed length. -/

namespace Sys2Proof.Machine

/-- `LE_n(x)` of 00_scope.md R7: `n` bytes, least significant first. -/
def leBytes : Nat → Nat → List Byte
  | 0, _ => []
  | n + 1, x => BitVec.ofNat 8 x :: leBytes n (x / 256)

/-- `BE_n(x)` of 00_scope.md R7: `n` bytes, most significant first. -/
def beBytes (n x : Nat) : List Byte := (leBytes n x).reverse

/-- `fromLE` of 00_scope.md R7. -/
def fromLE : List Byte → Nat
  | [] => 0
  | b :: bs => b.toNat + 256 * fromLE bs

/-- `fromBE` of 00_scope.md R7. -/
def fromBE (bs : List Byte) : Nat := fromLE bs.reverse

/-- The first `k` pieces of `wb` bytes of a byte string, in order. -/
def pieces (wb : Nat) : Nat → List Byte → List (List Byte)
  | 0, _ => []
  | k + 1, bs => bs.take wb :: pieces wb k (bs.drop wb)

/-- A list brought to exactly `n` elements, the missing ones `d`. -/
def fit {α : Type} (d : α) : Nat → List α → List α
  | 0, _ => []
  | n + 1, [] => d :: fit d n []
  | n + 1, a :: as => a :: fit d n as

theorem length_fit {α : Type} (d : α) (n : Nat) (l : List α) : (fit d n l).length = n := by
  induction n generalizing l with
  | zero => rfl
  | succ n ih => cases l <;> simp [fit, ih]

/-- The register array of `n` cells that holds the elements of a list of `n` elements. -/
def cells {α : Type} [Inhabited α] (n : Nat) (l : List α) : Vector α n :=
  ⟨⟨fit default n l⟩, by simp [length_fit]⟩

/-- The read of cell `i` of a register array (`x[i]` of 00_scope.md R8). Every index a rule uses lies
inside the array; the default value stands for an index outside it and is never the result of a rule. -/
def cell {α : Type} [Inhabited α] {n : Nat} (v : Vector α n) (i : Nat) : α := v.toList.getD i default

end Sys2Proof.Machine
end

