-- ==== Sys2Proof/WellFormed.lean ====
section
/-! DEFINITION. Which commands have an encoding: the operands fit the fields of the header, the argument
words and the payload (30_encoding.md R63, R65). -/

namespace Sys2Proof

/-- An element of a seed array fits the `W`-bit words of its core (30_encoding.md R65). -/
def fitsVariant : Variant → Word64 → Bool
  | .mt32, x => x.toNat < 2 ^ 32
  | .mt64, _ => true

/-- A command that has an encoding. DE.NEW selects a public kind only (30_encoding.md R63); a payload
length and an element count are an unsigned 64-bit `arg0` (R65). -/
def Instr.wf : Instr → Bool
  | .deNew kind => kind != .k128
  | .deUpdate data => data.length < 2 ^ 64
  | .deDigest data => data.length < 2 ^ 64
  | .deReset => true
  | .xofNew _ => true
  | .xofDigest _ => true
  | .xofRead _ => true
  | .mtSeedR _ => true
  | .mtSeed _ _ => true
  | .mtSeedA v key => key.length < 2 ^ 64 && key.all (fitsVariant v)
  | .mtNext _ => true
  | .mtNextW _ => true
  | .mtBit _ => true
  | .mtDouble _ _ => true
  | .mtGetState _ => true
  | .mtSetState _ img => img.length < 2 ^ 64
  | .rsInt _ _ _ _ _ _ => true
  | .rsFloat _ _ _ _ => true

end Sys2Proof
end

