-- ==== Sys2Proof/Decode.lean ====
section
/-! DEFINITION. The command encoding (30_encoding.md): the raw command of 00_scope.md R5, the opcode
table, the decoder (total, rejecting by name) and the encoder. -/

namespace Sys2Proof

open Sys2Proof.Machine

/-- A raw command as the ports CMD and DIN carry it (00_scope.md R5): `(hdr, arg0, arg1, payload)`. -/
structure Command where
  hdr : Word32
  arg0 : Word64
  arg1 : Word64
  payload : List Byte
  deriving DecidableEq, Repr, Inhabited

/-- Why a command has no decoding. The first three make the header illegal (30_encoding.md R66); the
last is a transaction outside the spec (93_implementation_defined.md U20). -/
inductive DecodeError where
  /-- `op` is not one of the eighteen values of R62. -/
  | reservedOpcode
  /-- A `zero`, `sel` or `flags` bit that must be zero is 1. -/
  | reservedBits
  /-- `sel` is outside the legal values of R63. -/
  | selOutOfRange
  /-- The header is legal and the payload is not the `len` bytes it announces (20_memory.md R42). -/
  | payloadLength
  deriving DecidableEq, Repr

/-- The header is illegal (30_encoding.md R66). -/
def DecodeError.isIllegalHeader : DecodeError → Bool
  | .reservedOpcode => true
  | .reservedBits => true
  | .selOutOfRange => true
  | .payloadLength => false

/-- The eighteen opcodes of 30_encoding.md R62. -/
inductive Op where
  | deNew | deUpdate | deDigest | deReset
  | xofNew | xofDigest | xofRead
  | mtSeedR | mtSeed | mtSeedA | mtNext | mtNextW | mtBit | mtDouble | mtGetState | mtSetState
  | rsInt | rsFloat
  deriving DecidableEq, Repr

/-- A row of spec/opcode_table.json: a header belongs to it when `hdr & mask = pattern`. -/
structure OpRow where
  op : Op
  pattern : Word32
  mask : Word32
  deriving DecidableEq, Repr

/-- spec/opcode_table.json, in its order. -/
def opcodeTable : List OpRow :=
  [⟨.deNew, 0x10000000#32, 0xff00ffff#32⟩,
   ⟨.deUpdate, 0x11000000#32, 0xffffffff#32⟩,
   ⟨.deDigest, 0x12000000#32, 0xffffffff#32⟩,
   ⟨.deReset, 0x13000000#32, 0xffffffff#32⟩,
   ⟨.xofNew, 0x20000000#32, 0xff00ffff#32⟩,
   ⟨.xofDigest, 0x21000000#32, 0xffffffff#32⟩,
   ⟨.xofRead, 0x22000000#32, 0xffffffff#32⟩,
   ⟨.mtSeedR, 0x30000000#32, 0xfffeffff#32⟩,
   ⟨.mtSeed, 0x31000000#32, 0xfffeffff#32⟩] ++
  [⟨.mtSeedA, 0x32000000#32, 0xfffeffff#32⟩,
   ⟨.mtNext, 0x33000000#32, 0xfffeffff#32⟩,
   ⟨.mtNextW, 0x34000000#32, 0xfffeffff#32⟩,
   ⟨.mtBit, 0x35000000#32, 0xfffeffff#32⟩,
   ⟨.mtDouble, 0x36000000#32, 0xfffefeff#32⟩,
   ⟨.mtGetState, 0x37000000#32, 0xfffeffff#32⟩,
   ⟨.mtSetState, 0x38000000#32, 0xfffeffff#32⟩,
   ⟨.rsInt, 0x40000000#32, 0xfffef0ff#32⟩,
   ⟨.rsFloat, 0x41000000#32, 0xfffefeff#32⟩]

/-- A header fits a row of the opcode table (30_encoding.md R68). -/
def OpRow.fits (r : OpRow) (hdr : Word32) : Bool := hdr &&& r.mask == r.pattern

/-- The `op` field, hdr[31:24] (30_encoding.md R60). -/
def opField (hdr : Word32) : BitVec 8 := hdr.extractLsb' 24 8

/-- The `sel` field, hdr[23:16] (30_encoding.md R60). -/
def selField (hdr : Word32) : BitVec 8 := hdr.extractLsb' 16 8

/-- The row of a header, or why there is none. -/
def rowOf (hdr : Word32) : Except DecodeError Op :=
  match opcodeTable.find? (fun r => r.fits hdr) with
  | some r => .ok r.op
  | none =>
    if opcodeTable.any (fun r => opField r.pattern == opField hdr) then .error .reservedBits
    else .error .reservedOpcode

/-- The kind code of 10_state.md R10. -/
def Kind.code : Kind → Nat
  | .sha1 => 0
  | .sha224 => 1
  | .sha256 => 2
  | .sha384 => 3
  | .sha512 => 4
  | .sha3x224 => 5
  | .sha3x256 => 6
  | .sha3x384 => 7
  | .sha3x512 => 8
  | .k128 => 9

/-- The kind a `sel` of DE.NEW selects: codes 0 to 8; code 9 and above are reserved (30_encoding.md R63). -/
def kindOfSel (sel : BitVec 8) : Except DecodeError Kind :=
  match sel.toNat with
  | 0 => .ok .sha1
  | 1 => .ok .sha224
  | 2 => .ok .sha256
  | 3 => .ok .sha384
  | 4 => .ok .sha512
  | 5 => .ok .sha3x224
  | 6 => .ok .sha3x256
  | 7 => .ok .sha3x384
  | 8 => .ok .sha3x512
  | _ => .error .selOutOfRange

/-- The level a `sel` of XOF.NEW selects: 0 and 1; 2 and above are reserved (30_encoding.md R63). -/
def levelOfSel (sel : BitVec 8) : Except DecodeError Level :=
  match sel.toNat with
  | 0 => .ok .l128
  | 1 => .ok .l256
  | _ => .error .selOutOfRange

/-- The variant bit, hdr[16] (30_encoding.md R62, R63). -/
def variantOf (hdr : Word32) : Variant := if hdr.getLsbD 16 then .mt64 else .mt32

/-- The width code, hdr[11:10] (30_encoding.md R64). -/
def widthOf (hdr : Word32) : WidthCode :=
  match (hdr.extractLsb' 10 2).toNat with
  | 0 => .w8
  | 1 => .w16
  | 2 => .w32
  | _ => .w64

/-- `W/8`, the bytes of one seed-array element (30_encoding.md R65). -/
def Variant.wordBytes : Variant → Nat
  | .mt32 => 4
  | .mt64 => 8

/-- `len`, the payload bytes a legal header takes from DIN (20_memory.md R42). -/
def payloadLen (op : Op) (hdr : Word32) (arg0 : Word64) : Nat :=
  match op with
  | .deUpdate => arg0.toNat
  | .deDigest => arg0.toNat
  | .mtSetState => arg0.toNat
  | .mtSeedA => arg0.toNat * (variantOf hdr).wordBytes
  | _ => 0

/-- The elements of a seed array: element `j` is `fromLE(payload[j*W/8 .. (j+1)*W/8))` (30_encoding.md R65). -/
def seedElements (v : Variant) (count : Nat) (payload : List Byte) : List Word64 :=
  (pieces v.wordBytes count payload).map fun p => BitVec.ofNat 64 (fromLE p)

/-- The command of a header in row `op`, its operands assembled (30_encoding.md R63 to R65). -/
def operands (op : Op) (c : Command) : Except DecodeError Instr :=
  let v := variantOf c.hdr
  let closed := c.hdr.getLsbD 8
  match op with
  | .deNew => (kindOfSel (selField c.hdr)).map .deNew
  | .deUpdate => .ok (.deUpdate c.payload)
  | .deDigest => .ok (.deDigest c.payload)
  | .deReset => .ok .deReset
  | .xofNew => (levelOfSel (selField c.hdr)).map .xofNew
  | .xofDigest => .ok (.xofDigest c.arg0)
  | .xofRead => .ok (.xofRead c.arg0)
  | .mtSeedR => .ok (.mtSeedR v)
  | .mtSeed => .ok (.mtSeed v c.arg0)
  | .mtSeedA => .ok (.mtSeedA v (seedElements v c.arg0.toNat c.payload))
  | .mtNext => .ok (.mtNext v)
  | .mtNextW => .ok (.mtNextW v)
  | .mtBit => .ok (.mtBit v)
  | .mtDouble => .ok (.mtDouble v closed)
  | .mtGetState => .ok (.mtGetState v)
  | .mtSetState => .ok (.mtSetState v c.payload)
  | .rsInt => .ok (.rsInt v closed (c.hdr.getLsbD 9) (widthOf c.hdr) c.arg0 c.arg1)
  | .rsFloat => .ok (.rsFloat v closed c.arg0 c.arg1)

/-- The decoder: total on every raw command. The header is judged before the payload is looked at
(30_encoding.md R66, R68; 60_exceptions.md R199). -/
def decode (c : Command) : Except DecodeError Instr :=
  match rowOf c.hdr with
  | .error e => .error e
  | .ok op =>
    match operands op c with
    | .error e => .error e
    | .ok i => if c.payload.length = payloadLen op c.hdr c.arg0 then .ok i else .error .payloadLength

/-- The header with these fields; `zero` is 0 (30_encoding.md R60). -/
def header (op sel flags : Nat) : Word32 := BitVec.ofNat 32 (op * 2 ^ 24 + sel * 2 ^ 16 + flags * 2 ^ 8)

/-- The `sel` field of a variant: bit 16 of the header (30_encoding.md R63). -/
def Variant.sel : Variant → Nat
  | .mt32 => 0
  | .mt64 => 1

/-- The `sel` field of a level (30_encoding.md R63). -/
def Level.sel : Level → Nat
  | .l128 => 0
  | .l256 => 1

/-- The width code `wc` (30_encoding.md R64). -/
def WidthCode.code : WidthCode → Nat
  | .w8 => 0
  | .w16 => 1
  | .w32 => 2
  | .w64 => 3

/-- The encoder, from the layout of 30_encoding.md R60 to R65. An argument word a command ignores is 0. -/
def encode : Instr → Command
  | .deNew kind => ⟨header 0x10 kind.code 0, 0, 0, []⟩
  | .deUpdate data => ⟨header 0x11 0 0, BitVec.ofNat 64 data.length, 0, data⟩
  | .deDigest data => ⟨header 0x12 0 0, BitVec.ofNat 64 data.length, 0, data⟩
  | .deReset => ⟨header 0x13 0 0, 0, 0, []⟩
  | .xofNew level => ⟨header 0x20 level.sel 0, 0, 0, []⟩
  | .xofDigest n => ⟨header 0x21 0 0, n, 0, []⟩
  | .xofRead n => ⟨header 0x22 0 0, n, 0, []⟩
  | .mtSeedR v => ⟨header 0x30 v.sel 0, 0, 0, []⟩
  | .mtSeed v arg0 => ⟨header 0x31 v.sel 0, arg0, 0, []⟩
  | .mtSeedA v key =>
    ⟨header 0x32 v.sel 0, BitVec.ofNat 64 key.length, 0, key.flatMap fun x => leBytes v.wordBytes x.toNat⟩
  | .mtNext v => ⟨header 0x33 v.sel 0, 0, 0, []⟩
  | .mtNextW v => ⟨header 0x34 v.sel 0, 0, 0, []⟩
  | .mtBit v => ⟨header 0x35 v.sel 0, 0, 0, []⟩
  | .mtDouble v closed => ⟨header 0x36 v.sel closed.toNat, 0, 0, []⟩
  | .mtGetState v => ⟨header 0x37 v.sel 0, 0, 0, []⟩
  | .mtSetState v img => ⟨header 0x38 v.sel 0, BitVec.ofNat 64 img.length, 0, img⟩
  | .rsInt v closed signed wc arg0 arg1 =>
    ⟨header 0x40 v.sel (closed.toNat + 2 * signed.toNat + 4 * wc.code), arg0, arg1, []⟩
  | .rsFloat v closed arg0 arg1 => ⟨header 0x41 v.sel closed.toNat, arg0, arg1, []⟩

/-- The raw command whose bits are the low `nbits` bits of `w`, every bit above them 0: the header is
bits 31..0, `arg0` bits 95..32, `arg1` bits 159..96 (00_scope.md R5, 30_encoding.md R60), and the payload
bytes follow, as many as the header and `arg0` announce. -/
def commandOfBits (nbits w : Nat) : Command :=
  let bits := w % 2 ^ nbits
  let hdr := BitVec.ofNat 32 bits
  let arg0 := BitVec.ofNat 64 (bits / 2 ^ 32)
  let len := match rowOf hdr with
    | .ok op => payloadLen op hdr arg0
    | .error _ => 0
  { hdr := hdr, arg0 := arg0, arg1 := BitVec.ofNat 64 (bits / 2 ^ 96), payload := leBytes len (bits / 2 ^ 160) }

/-- What the decoder reads from a word numbered as spec/opcode_table.json numbers it. -/
def decodeTableWord (nbits w : Nat) : Option Instr := (decode (commandOfBits nbits w)).toOption

end Sys2Proof
end

