-- ==== Sys2Proof/Machine/Kinds.lean ====
section
/-! DEFINITION. The kind table of 10_state.md R10, hardwired: block sizes, digest lengths, construction
modes, and the kinds of DE.NEW and XOF.NEW. -/

namespace Sys2Proof.Machine

/-- `blockSize(kind)`, in bytes; for a sponge kind the rate (10_state.md R10). -/
def blockSize : Kind → Nat
  | .sha1 => 64
  | .sha224 => 64
  | .sha256 => 64
  | .sha384 => 128
  | .sha512 => 128
  | .sha3x224 => 144
  | .sha3x256 => 136
  | .sha3x384 => 104
  | .sha3x512 => 72
  | .k128 => 168

/-- `digestLength(kind)`, in bytes; K128 has none (10_state.md R10). -/
def digestLength : Kind → Option Nat
  | .sha1 => some 20
  | .sha224 => some 28
  | .sha256 => some 32
  | .sha384 => some 48
  | .sha512 => some 64
  | .sha3x224 => some 28
  | .sha3x256 => some 32
  | .sha3x384 => some 48
  | .sha3x512 => some 64
  | .k128 => none

/-- `constructionMode(kind) = Sponge` (10_state.md R10). -/
def isSponge : Kind → Bool
  | .sha1 => false
  | .sha224 => false
  | .sha256 => false
  | .sha384 => false
  | .sha512 => false
  | .sha3x224 => true
  | .sha3x256 => true
  | .sha3x384 => true
  | .sha3x512 => true
  | .k128 => true

/-- The kinds the XOF commands accept, codes 6 and 9 (42_sponge.md R119, R120). -/
def servesXof (k : Kind) : Bool := k == .sha3x256 || k == .k128

/-- The kind XOF.NEW makes: `9 if level = 0 else 6` (42_sponge.md R118). -/
def kindOfLevel : Level → Kind
  | .l128 => .k128
  | .l256 => .sha3x256

end Sys2Proof.Machine
end

