-- ==== Sys2Proof/Machine/Backend.lean ====
section
/-! DEFINITION. The reference instantiation of the backends (46_backends.md R185 to R187), which the spec
marks as general knowledge, and the choice of a backend. Initial hash values and round constants are the
tables of R186 and R187. -/

namespace Sys2Proof.Machine

open Sys2Proof.Config

/-- `W[t]` for `t < 16`: the big-endian words of a block (46_backends.md R185). -/
def blockWords (W wb : Nat) (block : List Byte) : List (BitVec W) :=
  (pieces wb 16 block).map fun p => BitVec.ofNat W (fromBE p)

/-- The message schedule, newest word first: `n` further words, each made from the words so far. -/
def expand {W : Nat} (next : List (BitVec W) → BitVec W) : Nat → List (BitVec W) → List (BitVec W)
  | 0, ws => ws
  | n + 1, ws => expand next n (next ws :: ws)

/-- SHA-1: `W[t] = rotl_1(W[t-3] ^ W[t-8] ^ W[t-14] ^ W[t-16])`, the words so far newest first. -/
def sha1Next (ws : List Word32) : Word32 :=
  (ws.getD 2 0 ^^^ ws.getD 7 0 ^^^ ws.getD 13 0 ^^^ ws.getD 15 0).rotateLeft 1

/-- The working variables `(a, b, c, d, e)` of SHA-1. -/
structure Sha1Vars where
  a : Word32
  b : Word32
  c : Word32
  d : Word32
  e : Word32

/-- `(f, k)` of SHA-1 round `t` (46_backends.md R185). -/
def sha1Choice (t : Nat) (b c d : Word32) : Word32 × Word32 :=
  if t < 20 then ((b &&& c) ||| (~~~b &&& d), 0x5A827999#32)
  else if t < 40 then (b ^^^ c ^^^ d, 0x6ED9EBA1#32)
  else if t < 60 then ((b &&& c) ||| (b &&& d) ||| (c &&& d), 0x8F1BBCDC#32)
  else (b ^^^ c ^^^ d, 0xCA62C1D6#32)

/-- Round `t` of SHA-1 with schedule word `w` (46_backends.md R185). -/
def sha1Round (v : Sha1Vars) (wt : Word32 × Nat) : Sha1Vars :=
  let fk := sha1Choice wt.2 v.b v.c v.d
  { a := v.a.rotateLeft 5 + fk.1 + v.e + fk.2 + wt.1, b := v.a, c := v.b.rotateLeft 30, d := v.c, e := v.d }

/-- SHA-1 compression, kind 0 (46_backends.md R185). -/
def sha1Compress (h : Vector Word32 5) (block : List Byte) : Vector Word32 5 :=
  let ws := (expand sha1Next 64 (blockWords 32 4 block).reverse).reverse
  let v := (ws.zip (List.range 80)).foldl sha1Round ⟨cell h 0, cell h 1, cell h 2, cell h 3, cell h 4⟩
  #v[cell h 0 + v.a, cell h 1 + v.b, cell h 2 + v.c, cell h 3 + v.d, cell h 4 + v.e]

/-- The functions in which SHA-2-256 and SHA-2-512 differ (46_backends.md R185): `s0`, `s1` of the
schedule and the two sums of a round. -/
structure Sha2Fns (W : Nat) where
  s0 : BitVec W → BitVec W
  s1 : BitVec W → BitVec W
  sum1 : BitVec W → BitVec W
  sum0 : BitVec W → BitVec W

/-- SHA-2-256 (46_backends.md R185). -/
def sha256Fns : Sha2Fns 32 :=
  { s0 := fun x => x.rotateRight 7 ^^^ x.rotateRight 18 ^^^ (x >>> 3)
    s1 := fun x => x.rotateRight 17 ^^^ x.rotateRight 19 ^^^ (x >>> 10)
    sum1 := fun x => x.rotateRight 6 ^^^ x.rotateRight 11 ^^^ x.rotateRight 25
    sum0 := fun x => x.rotateRight 2 ^^^ x.rotateRight 13 ^^^ x.rotateRight 22 }

/-- SHA-2-512 (46_backends.md R185). -/
def sha512Fns : Sha2Fns 64 :=
  { s0 := fun x => x.rotateRight 1 ^^^ x.rotateRight 8 ^^^ (x >>> 7)
    s1 := fun x => x.rotateRight 19 ^^^ x.rotateRight 61 ^^^ (x >>> 6)
    sum1 := fun x => x.rotateRight 14 ^^^ x.rotateRight 18 ^^^ x.rotateRight 41
    sum0 := fun x => x.rotateRight 28 ^^^ x.rotateRight 34 ^^^ x.rotateRight 39 }

/-- `W[t] = W[t-16] + s0(W[t-15]) + W[t-7] + s1(W[t-2])`, the words so far newest first. -/
def sha2Next {W : Nat} (fs : Sha2Fns W) (ws : List (BitVec W)) : BitVec W :=
  ws.getD 15 0 + fs.s0 (ws.getD 14 0) + ws.getD 6 0 + fs.s1 (ws.getD 1 0)

/-- The working variables `(a, ..., h)` of SHA-2. -/
structure Sha2Vars (W : Nat) where
  a : BitVec W
  b : BitVec W
  c : BitVec W
  d : BitVec W
  e : BitVec W
  f : BitVec W
  g : BitVec W
  h : BitVec W

/-- A round of SHA-2 with schedule word and round constant (46_backends.md R185). -/
def sha2Round {W : Nat} (fs : Sha2Fns W) (v : Sha2Vars W) (wk : BitVec W × BitVec W) : Sha2Vars W :=
  let t1 := v.h + fs.sum1 v.e + ((v.e &&& v.f) ^^^ (~~~v.e &&& v.g)) + wk.2 + wk.1
  let t2 := fs.sum0 v.a + ((v.a &&& v.b) ^^^ (v.a &&& v.c) ^^^ (v.b &&& v.c))
  { a := t1 + t2, b := v.a, c := v.b, d := v.c, e := v.d + t1, f := v.e, g := v.f, h := v.g }

/-- SHA-2 compression with the round constants `ks`, one round for each (46_backends.md R185). -/
def sha2Compress {W : Nat} (fs : Sha2Fns W) (ks : List (BitVec W)) (wb : Nat) (h : Vector (BitVec W) 8)
    (block : List Byte) : Vector (BitVec W) 8 :=
  let ws := (expand (sha2Next fs) (ks.length - 16) (blockWords W wb block).reverse).reverse
  let v := (ws.zip ks).foldl (sha2Round fs)
    ⟨cell h 0, cell h 1, cell h 2, cell h 3, cell h 4, cell h 5, cell h 6, cell h 7⟩
  #v[cell h 0 + v.a, cell h 1 + v.b, cell h 2 + v.c, cell h 3 + v.d,
     cell h 4 + v.e, cell h 5 + v.f, cell h 6 + v.g, cell h 7 + v.h]

/-- `K256` (46_backends.md R187). -/
def k256 : List Word32 :=
  [0x428a2f98#32, 0x71374491#32, 0xb5c0fbcf#32, 0xe9b5dba5#32, 0x3956c25b#32, 0x59f111f1#32, 0x923f82a4#32, 0xab1c5ed5#32,
   0xd807aa98#32, 0x12835b01#32, 0x243185be#32, 0x550c7dc3#32, 0x72be5d74#32, 0x80deb1fe#32, 0x9bdc06a7#32, 0xc19bf174#32] ++
  [0xe49b69c1#32, 0xefbe4786#32, 0x0fc19dc6#32, 0x240ca1cc#32, 0x2de92c6f#32, 0x4a7484aa#32, 0x5cb0a9dc#32, 0x76f988da#32,
   0x983e5152#32, 0xa831c66d#32, 0xb00327c8#32, 0xbf597fc7#32, 0xc6e00bf3#32, 0xd5a79147#32, 0x06ca6351#32, 0x14292967#32] ++
  [0x27b70a85#32, 0x2e1b2138#32, 0x4d2c6dfc#32, 0x53380d13#32, 0x650a7354#32, 0x766a0abb#32, 0x81c2c92e#32, 0x92722c85#32,
   0xa2bfe8a1#32, 0xa81a664b#32, 0xc24b8b70#32, 0xc76c51a3#32, 0xd192e819#32, 0xd6990624#32, 0xf40e3585#32, 0x106aa070#32] ++
  [0x19a4c116#32, 0x1e376c08#32, 0x2748774c#32, 0x34b0bcb5#32, 0x391c0cb3#32, 0x4ed8aa4a#32, 0x5b9cca4f#32, 0x682e6ff3#32,
   0x748f82ee#32, 0x78a5636f#32, 0x84c87814#32, 0x8cc70208#32, 0x90befffa#32, 0xa4506ceb#32, 0xbef9a3f7#32, 0xc67178f2#32]

/-- `K512` (46_backends.md R187). -/
def k512 : List Word64 :=
  [0x428a2f98d728ae22#64, 0x7137449123ef65cd#64, 0xb5c0fbcfec4d3b2f#64, 0xe9b5dba58189dbbc#64,
   0x3956c25bf348b538#64, 0x59f111f1b605d019#64, 0x923f82a4af194f9b#64, 0xab1c5ed5da6d8118#64,
   0xd807aa98a3030242#64, 0x12835b0145706fbe#64, 0x243185be4ee4b28c#64, 0x550c7dc3d5ffb4e2#64,
   0x72be5d74f27b896f#64, 0x80deb1fe3b1696b1#64, 0x9bdc06a725c71235#64, 0xc19bf174cf692694#64] ++
  [0xe49b69c19ef14ad2#64, 0xefbe4786384f25e3#64, 0x0fc19dc68b8cd5b5#64, 0x240ca1cc77ac9c65#64,
   0x2de92c6f592b0275#64, 0x4a7484aa6ea6e483#64, 0x5cb0a9dcbd41fbd4#64, 0x76f988da831153b5#64,
   0x983e5152ee66dfab#64, 0xa831c66d2db43210#64, 0xb00327c898fb213f#64, 0xbf597fc7beef0ee4#64,
   0xc6e00bf33da88fc2#64, 0xd5a79147930aa725#64, 0x06ca6351e003826f#64, 0x142929670a0e6e70#64] ++
  [0x27b70a8546d22ffc#64, 0x2e1b21385c26c926#64, 0x4d2c6dfc5ac42aed#64, 0x53380d139d95b3df#64,
   0x650a73548baf63de#64, 0x766a0abb3c77b2a8#64, 0x81c2c92e47edaee6#64, 0x92722c851482353b#64,
   0xa2bfe8a14cf10364#64, 0xa81a664bbc423001#64, 0xc24b8b70d0f89791#64, 0xc76c51a30654be30#64,
   0xd192e819d6ef5218#64, 0xd69906245565a910#64, 0xf40e35855771202a#64, 0x106aa07032bbd1b8#64] ++
  [0x19a4c116b8d2d0c8#64, 0x1e376c085141ab53#64, 0x2748774cdf8eeb99#64, 0x34b0bcb5e19b48a8#64,
   0x391c0cb3c5c95a63#64, 0x4ed8aa4ae3418acb#64, 0x5b9cca4f7763e373#64, 0x682e6ff3d6b2b8a3#64,
   0x748f82ee5defb2fc#64, 0x78a5636f43172f60#64, 0x84c87814a1f0ab72#64, 0x8cc702081a6439ec#64,
   0x90befffa23631e28#64, 0xa4506cebde82bde9#64, 0xbef9a3f7b2c67915#64, 0xc67178f2e372532b#64] ++
  [0xca273eceea26619c#64, 0xd186b8c721c0c207#64, 0xeada7dd6cde0eb1e#64, 0xf57d4f7fee6ed178#64,
   0x06f067aa72176fba#64, 0x0a637dc5a2c898a6#64, 0x113f9804bef90dae#64, 0x1b710b35131c471b#64,
   0x28db77f523047d84#64, 0x32caab7b40c72493#64, 0x3c9ebe0a15c9bebc#64, 0x431d67c49c100d4c#64,
   0x4cc5d4becb3e42b6#64, 0x597f299cfc657e2a#64, 0x5fcb6fab3ad6faec#64, 0x6c44198c4a475817#64]

/-- The initial hash value of SHA1 (46_backends.md R187). -/
def sha1Init : Vector Word32 5 :=
  #v[0x67452301#32, 0xefcdab89#32, 0x98badcfe#32, 0x10325476#32, 0xc3d2e1f0#32]

/-- The initial hash value of SHA224 (46_backends.md R187). -/
def sha224Init : Vector Word32 8 :=
  #v[0xc1059ed8#32, 0x367cd507#32, 0x3070dd17#32, 0xf70e5939#32, 0xffc00b31#32, 0x68581511#32, 0x64f98fa7#32, 0xbefa4fa4#32]

/-- The initial hash value of SHA256 (46_backends.md R187). -/
def sha256Init : Vector Word32 8 :=
  #v[0x6a09e667#32, 0xbb67ae85#32, 0x3c6ef372#32, 0xa54ff53a#32, 0x510e527f#32, 0x9b05688c#32, 0x1f83d9ab#32, 0x5be0cd19#32]

/-- The initial hash value of SHA384 (46_backends.md R187). -/
def sha384Init : Vector Word64 8 :=
  #v[0xcbbb9d5dc1059ed8#64, 0x629a292a367cd507#64, 0x9159015a3070dd17#64, 0x152fecd8f70e5939#64,
     0x67332667ffc00b31#64, 0x8eb44a8768581511#64, 0xdb0c2e0d64f98fa7#64, 0x47b5481dbefa4fa4#64]

/-- The initial hash value of SHA512 (46_backends.md R187). -/
def sha512Init : Vector Word64 8 :=
  #v[0x6a09e667f3bcc908#64, 0xbb67ae8584caa73b#64, 0x3c6ef372fe94f82b#64, 0xa54ff53a5f1d36f1#64,
     0x510e527fade682d1#64, 0x9b05688c2b3e6c1f#64, 0x1f83d9abfb41bd6b#64, 0x5be0cd19137e2179#64]

/-- Rotation offsets `RHO[x][y]`, at index `x + 5y` (46_backends.md R186). -/
def keccakRho : List Nat :=
  [0, 1, 62, 28, 27, 36, 44, 6, 55, 20, 3, 10, 43, 25, 39, 41, 45, 15, 21, 8, 18, 2, 61, 56, 14]

/-- Round constants `RC[0 .. 23]` (46_backends.md R186). -/
def keccakRC : List Word64 :=
  [0x0000000000000001#64, 0x0000000000008082#64, 0x800000000000808a#64, 0x8000000080008000#64,
   0x000000000000808b#64, 0x0000000080000001#64, 0x8000000080008081#64, 0x8000000000008009#64,
   0x000000000000008a#64, 0x0000000000000088#64, 0x0000000080008009#64, 0x000000008000000a#64,
   0x000000008000808b#64, 0x800000000000008b#64, 0x8000000000008089#64, 0x8000000000008003#64] ++
  [0x8000000000008002#64, 0x8000000000000080#64, 0x000000000000800a#64, 0x800000008000000a#64,
   0x8000000080008081#64, 0x8000000000008080#64, 0x0000000080000001#64, 0x8000000080008008#64]

/-- The 25 lanes of `S`: lane `(x, y)` is the little-endian word at bytes `8(x + 5y)` on, and stands at
index `x + 5y` (46_backends.md R186). -/
def keccakLanes (s : Vector Byte 200) : List Word64 :=
  (pieces 8 25 s.toList).map fun p => BitVec.ofNat 64 (fromLE p)

/-- The lanes computed from their coordinates. -/
def keccakTabulate (f : Nat → Nat → Word64) : List Word64 := (List.range 25).map fun i => f (i % 5) (i / 5)

/-- Lane `(x, y)`, both coordinates modulo 5. -/
def keccakLane (a : List Word64) (x y : Nat) : Word64 := a.getD (x % 5 + 5 * (y % 5)) 0

/-- theta (46_backends.md R186). -/
def keccakTheta (a : List Word64) : List Word64 :=
  let c := (List.range 5).map fun x =>
    keccakLane a x 0 ^^^ keccakLane a x 1 ^^^ keccakLane a x 2 ^^^ keccakLane a x 3 ^^^ keccakLane a x 4
  let d := (List.range 5).map fun x => c.getD ((x + 4) % 5) 0 ^^^ (c.getD ((x + 1) % 5) 0).rotateLeft 1
  keccakTabulate fun x y => keccakLane a x y ^^^ d.getD x 0

/-- rho and pi: `B[y][(2x + 3y) mod 5] = rotl_(RHO[x][y])(A[x][y])` (46_backends.md R186). The lane that
lands at `(u, v)` comes from `y = u`, `x = (u + 3v) mod 5`, since `2x + 3y = v` modulo 5. -/
def keccakRhoPi (a : List Word64) : List Word64 :=
  keccakTabulate fun u v =>
    let x := (u + 3 * v) % 5
    (keccakLane a x u).rotateLeft (keccakRho.getD (x + 5 * u) 0)

/-- chi (46_backends.md R186). -/
def keccakChi (b : List Word64) : List Word64 :=
  keccakTabulate fun x y => keccakLane b x y ^^^ (~~~keccakLane b (x + 1) y &&& keccakLane b (x + 2) y)

/-- One round; iota XORs the round constant into lane `(0, 0)` (46_backends.md R186). -/
def keccakRound (a : List Word64) (rc : Word64) : List Word64 :=
  match keccakChi (keccakRhoPi (keccakTheta a)) with
  | [] => []
  | l :: ls => (l ^^^ rc) :: ls

/-- Keccak-f[1600], 24 rounds (46_backends.md R186). -/
def keccakF (s : Vector Byte 200) : Vector Byte 200 :=
  cells 200 ((keccakRC.foldl keccakRound (keccakLanes s)).flatMap fun l => leBytes 8 l.toNat)

/-- The reference instantiation of `CB` (46_backends.md R185 to R187); SHA224 and SHA256 share the block
operation, SHA384 and SHA512 share theirs (41_merkle_damgard.md R104). -/
def referenceBackend : Backend :=
  { reset5 := sha1Init
    reset8 := fun k => if k = .sha224 then sha224Init else sha256Init
    resetLimbs := fun k => if k = .sha384 then sha384Init else sha512Init
    compress5 := sha1Compress
    compress8 := fun _ => sha2Compress sha256Fns k256 4
    compressLimbs := fun _ => sha2Compress sha512Fns k512 8
    keccakF := keccakF }

/-- The backend the unit is built with (46_backends.md R180). -/
def backendOf : BackendChoice → Backend
  | .reference => referenceBackend
  | .external id => externalBackend id

/-- `CB.resetState(kind)`: the fixed initial state of a kind, in the kind's shape (46_backends.md R181).
For the sponge kinds it is 200 zero bytes whatever the backend (42_sponge.md R110). -/
def resetState (cb : Backend) : Kind → DState
  | .sha1 => .words5 cb.reset5
  | .sha224 => .words8 (cb.reset8 .sha224)
  | .sha256 => .words8 (cb.reset8 .sha256)
  | .sha384 => .limbs8 (cb.resetLimbs .sha384)
  | .sha512 => .limbs8 (cb.resetLimbs .sha512)
  | .sha3x224 => .bytes (Vector.replicate 200 0#8)
  | .sha3x256 => .bytes (Vector.replicate 200 0#8)
  | .sha3x384 => .bytes (Vector.replicate 200 0#8)
  | .sha3x512 => .bytes (Vector.replicate 200 0#8)
  | .k128 => .bytes (Vector.replicate 200 0#8)

end Sys2Proof.Machine
end

