-- ==== Sys2Proof/Machine/State.lean ====
section
/-! DEFINITION. The state of the DPU as plain data: its registers, FAULT and CAUSE (10_state.md R26), what
stands on its ports between two steps (20_memory.md R41), and the model's own bookkeeping. -/

namespace Sys2Proof.Machine

/-- The fault causes of 60_exceptions.md R191, in the order of their codes 0 to 8. Codes 9 to 15 are
never produced. -/
inductive Cause where
  | none | illegalCommand | noEngine | badKind | badPhase | lenOverflow | mtUnseeded | badOperand | badRange
  deriving DecidableEq, Repr, Inhabited

/-- The outcome of a command with its response (00_scope.md R5). -/
inductive Reply where
  /-- The command completed: its bytes on DOUT and its word on RES, if it has one. -/
  | ok (dout : List Byte) (res : Option Word64)
  /-- The command raised this fault; nothing is on DOUT or RES (60_exceptions.md R192). -/
  | fault (cause : Cause)
  /-- The unit was faulted and refused the command; `cause` is the first cause (60_exceptions.md R193). -/
  | refused (cause : Cause)
  deriving DecidableEq, Repr

/-- What arrives at the unit between two steps: a command with the word that port ENT shows while it
runs (20_memory.md R41), or an assertion of RST (70_reset_and_hazards.md R210, 93_implementation_defined.md U21). -/
inductive Input where
  | command (c : Command) (ent : Word64)
  | rst
  deriving DecidableEq, Repr

/-- The state. The first three fields are the unit's registers, the next four its ports, the last two
the model's own. -/
structure State where
  /-- The Digest Engine and the two cores (10_state.md R11 to R22). -/
  regs : Regs
  /-- FAULT (10_state.md R26). -/
  fault : Bool
  /-- CAUSE (10_state.md R26). -/
  cause : Cause
  /-- CMD, DIN and RST: what is still to come, oldest first. It is host state (10_state.md R28; log entries 1, 2). -/
  inputs : List Input
  /-- ENT: the entropy word of the command that runs (43_mersenne_twister.md R137; log entry 3). -/
  ent : Word64
  /-- DOUT and RES: the response to the latest command, none since reset (20_memory.md R41; log entry 4). -/
  reply : Option Reply
  /-- DIN: how many bytes the latest command took (20_memory.md R42; log entry 17). -/
  dinTaken : Nat
  /-- The open parameters (00_scope.md R6; log entry 5). -/
  params : Config.Params
  /-- How many events have left registers unspecified: the index of the free value Config.residueOf (log entry 8). -/
  residues : Nat
  deriving DecidableEq, Repr

/-- Why the machine stops. No command of the opcode table stops it. -/
inductive Fault where
  /-- Raised by step alone, when a transaction with a legal header carries a payload that is not the `len`
  bytes its header and `arg0` announce: "behaviour of the port is outside the spec"
  (70_reset_and_hazards.md R213 row 10, 93_implementation_defined.md U20). Safe: the model stops where the
  hardware's behaviour is not described (log entry 10). -/
  | portsOutOfStep
  deriving DecidableEq, Repr

/-- Why a command has no meaning. -/
inductive Refusal where
  /-- Raised by an arm of exec whose command has no meaning yet. Safe. No arm raises it. -/
  | notModelled (mnemonic : String)
  deriving DecidableEq, Repr

/-- The unit right after hardware reset (70_reset_and_hazards.md R210): FAULT, CAUSE, DE.valid and both
`seeded` bits are 0 as the spec says; the other registers are unspecified there and hold the values of
Regs.afterReset (DESIGN CHOICE, unsafe, log entry 9); nothing stands on the ports; the open parameters
have the spec's defaults. -/
def State.reset : State :=
  { regs := Regs.afterReset, fault := false, cause := .none, inputs := [], ent := 0#64, reply := none,
    dinTaken := 0, params := Config.Params.default, residues := 0 }

end Sys2Proof.Machine
end

