-- ==== Sys2Proof/Machine/Flags.lean ====
section
/-! DEFINITION. The flags of the DPU: the cause codes (60_exceptions.md R191) and the STATUS view
(10_state.md R27). There are no condition codes. -/

namespace Sys2Proof.Machine

/-- The code CAUSE holds (60_exceptions.md R191). -/
def Cause.code : Cause → BitVec 4
  | .none => 0
  | .illegalCommand => 1
  | .noEngine => 2
  | .badKind => 3
  | .badPhase => 4
  | .lenOverflow => 5
  | .mtUnseeded => 6
  | .badOperand => 7
  | .badRange => 8

/-- The phase bit (10_state.md R17). -/
def Phase.bit : Phase → Bool
  | .absorb => false
  | .squeeze => true

/-- STATUS, 9 bits (10_state.md R27): bit 0 FAULT, bits 4:1 CAUSE, bit 5 DE_VALID, bit 6 DE_PHASE,
bit 7 MT32_SEEDED, bit 8 MT64_SEEDED. Sampling it changes nothing. -/
def State.status (s : State) : BitVec 9 :=
  BitVec.ofBool s.regs.mt64.seeded ++ BitVec.ofBool s.regs.mt32.seeded ++ BitVec.ofBool s.regs.de.phase.bit
    ++ BitVec.ofBool s.regs.de.valid ++ s.cause.code ++ BitVec.ofBool s.fault

end Sys2Proof.Machine
end

