-- ==== Sys2Proof/Machine/Ops.lean ====
section
/-! DEFINITION. What every command shares: the guards (60_exceptions.md R199), taking a fault (R192), the
refusal of a faulted unit (R193), the completion of a command with its response (00_scope.md R5), and
hardware reset (70_reset_and_hazards.md R210), the only way out of a fault. -/

namespace Sys2Proof.Machine

open Sys2Proof.Config

/-- What a command that completes leaves: the registers, its bytes on DOUT and its word on RES. -/
structure Done where
  regs : Regs
  dout : List Byte
  res : Option Word64

/-- The effect of a command on an unfaulted unit: it completes, or it raises a fault. There is no
outcome with part of the output (60_exceptions.md R209). -/
abbrev Effect := Except Cause Done

/-- A guard: `raise Fault(c)` unless the condition holds. -/
def require (ok : Bool) (c : Cause) : Except Cause Unit := if ok then .ok () else .error c

/-- A guard on a table entry: `raise Fault(c)` where the table has none. -/
def requireSome {α : Type} (o : Option α) (c : Cause) : Except Cause α :=
  match o with
  | some a => .ok a
  | none => .error c

/-- The registers once a fault has been raised. The named reading: a faulting command writes only FAULT
and CAUSE (10_state.md R29, 93_implementation_defined.md U11). The free reading: "Every other register of
the DPU becomes unspecified" (60_exceptions.md R192). Log entry 8. -/
def State.regsAfterFault (s : State) : Regs :=
  match s.params.residue with
  | .named => s.regs
  | .free => residueOf s.residues s.regs

/-- `raise Fault(c)` with `FAULT = 0` (60_exceptions.md R192): `FAULT <- 1`, `CAUSE <- c`, nothing on
DOUT or RES, no handler and no saved context. -/
def State.raiseFault (s : State) (c : Cause) : State :=
  { s with regs := s.regsAfterFault, fault := true, cause := c, reply := some (.fault c), residues := s.residues + 1 }

/-- While `FAULT = 1` a command changes no register, delivers nothing, and CAUSE keeps the first cause
(60_exceptions.md R193). -/
def State.refuse (s : State) : State := { s with reply := some (.refused s.cause) }

/-- A command that completes: its register writes and its whole output at once (60_exceptions.md R209). -/
def State.complete (s : State) (d : Done) : State :=
  { s with regs := d.regs, reply := some (.ok d.dout d.res) }

/-- The state after a command of this effect, on an unfaulted unit. -/
def State.after (s : State) (e : Effect) : State :=
  match e with
  | .ok d => s.complete d
  | .error c => s.raiseFault c

/-- Running a command of this effect: guard 0 of 60_exceptions.md R199, then the effect. -/
def perform (s : State) (e : Effect) : Host.Outcome State Fault Refusal :=
  .next (if s.fault then s.refuse else s.after e)

/-- The effect of a command on the Digest Engine: its bytes go to DOUT; the cores are untouched
(10_state.md R29). -/
def onEngine (r : Regs) (f : Except Cause (Engine × List Byte)) : Effect :=
  f.map fun eo => { regs := { r with de := eo.1 }, dout := eo.2, res := none }

/-- A command that completes with nothing on DOUT or RES. -/
def silent (r : Regs) : Done := { regs := r, dout := [], res := none }

/-- A command that completes with a word on RES. -/
def scalar (r : Regs) (x : Word64) : Done := { regs := r, dout := [], res := some x }

/-- The registers RST leaves: `DE.valid = 0`, both cores unseeded, the rest unspecified
(70_reset_and_hazards.md R210). The named reading gives them the values of Regs.afterReset (log entry 9). -/
def State.regsAfterRst (s : State) : Regs :=
  match s.params.residue with
  | .named => Regs.afterReset
  | .free =>
    let r := residueOf s.residues s.regs
    { de := { r.de with valid := false }, mt32 := { r.mt32 with seeded := false }, mt64 := { r.mt64 with seeded := false } }

/-- RST (70_reset_and_hazards.md R210): FAULT and CAUSE 0, no engine, unseeded cores, whatever the unit
was doing; no response stands on its ports. What the host still sends is the host's. -/
def State.hardReset (s : State) : State :=
  { s with regs := s.regsAfterRst, fault := false, cause := .none, reply := none, dinTaken := 0, residues := s.residues + 1 }

end Sys2Proof.Machine
end

