-- ==== Sys2Proof/Machine/EngineOps.lean ====
section
/-! DEFINITION. The procedures of the Digest Engine: InitEngine, Commit, Absorb (40_digest_engine.md R82
to R85), the pad generators and the extraction (41_merkle_damgard.md R101, R103; 42_sponge.md R113), and
the squeezes (42_sponge.md R116, R117). Each takes the backend `CB` as an argument (46_backends.md R184). -/

namespace Sys2Proof.Machine

open Sys2Proof.Config

/-- `InitEngine(k)` (40_digest_engine.md R85). -/
def initEngine (cb : Backend) (k : Kind) : Engine :=
  { valid := true, kind := k, buffer := Vector.replicate 168 0#8, bytesInBuffer := 0#8, total := 0#64,
    state := resetState cb k, phase := .absorb, cursor := 0#8 }

/-- The XOR of a block into the front of the sponge state; the bytes behind it are not touched
(40_digest_engine.md R83). -/
def xorFront : List Byte → List Byte → List Byte
  | _, [] => []
  | [], s :: ss => s :: ss
  | b :: bs, s :: ss => (s ^^^ b) :: xorFront bs ss

/-- The block operation of a state shape on a full block: `CB.Compress`, or XOR into the rate and
`CB.KeccakF` over all 200 bytes (40_digest_engine.md R83, 41_merkle_damgard.md R104). -/
def blockOp (cb : Backend) (k : Kind) (block : List Byte) : DState → DState
  | .words5 h => .words5 (cb.compress5 h block)
  | .words8 h => .words8 (cb.compress8 k h block)
  | .limbs8 h => .limbs8 (cb.compressLimbs k h block)
  | .bytes s => .bytes (cb.keccakF (cells 200 (xorFront block s.toList)))

/-- `Commit()` (40_digest_engine.md R83): the block operation, then the buffer is cleared. -/
def commit (cb : Backend) (e : Engine) : Engine :=
  { e with state := blockOp cb e.kind (e.buffer.toList.take (blockSize e.kind)) e.state,
           buffer := Vector.replicate 168 0#8, bytesInBuffer := 0#8 }

/-- A message byte enters the buffer at `bytesInBuffer`. -/
def pushByte (e : Engine) (b : Byte) : Engine :=
  { e with buffer := e.buffer.setIfInBounds e.bytesInBuffer.toNat b, bytesInBuffer := e.bytesInBuffer + 1 }

/-- The loop body of `Absorb` (40_digest_engine.md R82): a block is committed when its last byte arrives. -/
def absorbByte (cb : Backend) (e : Engine) (b : Byte) : Engine :=
  let e' := pushByte e b
  if e'.bytesInBuffer.toNat = blockSize e'.kind then commit cb e' else e'

/-- The loop of `Absorb` (40_digest_engine.md R82). -/
def absorbBytes (cb : Backend) (e : Engine) (d : List Byte) : Engine := d.foldl (absorbByte cb) e

/-- `Absorb(d)` (40_digest_engine.md R82): the overflow test precedes the first byte. -/
def absorb (cb : Backend) (e : Engine) (d : List Byte) : Except Cause Engine :=
  if e.total.toNat + d.length > 2 ^ 64 - 1 then .error .lenOverflow
  else .ok { absorbBytes cb e d with total := e.total + BitVec.ofNat 64 d.length }

/-- The zero bytes of `MdPad` (41_merkle_damgard.md R101). -/
def mdZeros (T bs : Nat) : Nat :=
  let cut := bs - bs / 8
  let r := T % bs
  if r < cut then cut - 1 - r else bs + cut - 1 - r

/-- `MdPad(T, bs)` (41_merkle_damgard.md R101). -/
def mdPad (T bs : Nat) : Except Cause (List Byte) :=
  if T ≥ 2 ^ 61 then .error .lenOverflow
  else .ok (0x80#8 :: List.replicate (mdZeros T bs) 0#8 ++ beBytes (bs / 8) (8 * T))

/-- `SpongePad(T, bs, suffix)` (42_sponge.md R113). -/
def spongePad (T bs : Nat) (suffix : Byte) : List Byte :=
  let q := bs - T % bs
  if q = 1 then [suffix ||| 0x80#8] else suffix :: List.replicate (q - 2) 0#8 ++ [0x80#8]

/-- The suffix of DE.DIGEST, SHA-3 fixed output (42_sponge.md R115). -/
def digestSuffix : Byte := 0x06#8

/-- The suffix of XOF.DIGEST and XOF.READ (42_sponge.md R115). -/
def xofSuffix : Byte := 0x1f#8

/-- The big-endian serialization of the words of a MerkleDamgard state, in index order
(41_merkle_damgard.md R103). A sponge state has none. -/
def serialize : DState → List Byte
  | .words5 h => h.toList.flatMap fun x => beBytes 4 x.toNat
  | .words8 h => h.toList.flatMap fun x => beBytes 4 x.toNat
  | .limbs8 h => h.toList.flatMap fun x => beBytes 8 x.toNat
  | .bytes _ => []

/-- `MdExtract()` (41_merkle_damgard.md R103). -/
def mdExtract (st : DState) (dl : Nat) : List Byte := (serialize st).take dl

/-- `S` of a sponge engine (42_sponge.md R110). An engine of a sponge kind always holds this shape
(State.Inv); the zeros stand for the other shapes, which no squeeze meets. -/
def spongeState : DState → Vector Byte 200
  | .bytes s => s
  | .words5 _ => Vector.replicate 200 0#8
  | .words8 _ => Vector.replicate 200 0#8
  | .limbs8 _ => Vector.replicate 200 0#8

/-- The loop of `SqueezeOnce`: `k` blocks with a permutation after each, then the rest
(42_sponge.md R116). -/
def squeezeBlocks (cb : Backend) (bs : Nat) : Nat → Vector Byte 200 → Nat → List Byte
  | 0, s, n => s.toList.take (min bs n)
  | k + 1, s, n => s.toList.take bs ++ squeezeBlocks cb bs k (cb.keccakF s) (n - bs)

/-- `SqueezeOnce(n)`, `n >= 1`, with `ceil(n / bs) - 1` permutations, none before the first read
(42_sponge.md R116). -/
def squeezeOnce (cb : Backend) (bs : Nat) (s : Vector Byte 200) (n : Nat) : List Byte :=
  squeezeBlocks cb bs ((n - 1) / bs) s n

/-- `SqueezeByte()` (42_sponge.md R117): the permutation is lazy. -/
def squeezeByte (cb : Backend) (e : Engine) : Byte × Engine :=
  let e' := if e.cursor.toNat = blockSize e.kind
    then { e with state := .bytes (cb.keccakF (spongeState e.state)), cursor := 0#8 } else e
  (cell (spongeState e'.state) e'.cursor.toNat, { e' with cursor := e'.cursor + 1 })

/-- `repeat n times: out = out ‖ [ SqueezeByte() ]` (42_sponge.md R120). -/
def squeezeBytes (cb : Backend) : Nat → Engine → List Byte × Engine
  | 0, e => ([], e)
  | n + 1, e =>
    let be := squeezeByte cb e
    let r := squeezeBytes cb n be.2
    (be.1 :: r.1, r.2)

end Sys2Proof.Machine
end

