-- ==== Sys2Proof/Machine/DigestEngine.lean ====
section
/-! DEFINITION. The commands of 40_digest_engine.md: DE.NEW, DE.UPDATE, DE.DIGEST, DE.RESET. -/

namespace Sys2Proof.Machine

open Sys2Proof.Config

/-- The pad DE.DIGEST appends to a message of `T` bytes (40_digest_engine.md R88). -/
def digestPad (k : Kind) (T : Nat) : Except Cause (List Byte) :=
  if isSponge k then .ok (spongePad T (blockSize k) digestSuffix) else mdPad T (blockSize k)

/-- The digest of an engine whose pad has been absorbed (40_digest_engine.md R88). -/
def digestOutput (cb : Backend) (e : Engine) (dl : Nat) : List Byte :=
  if isSponge e.kind then squeezeOnce cb (blockSize e.kind) (spongeState e.state) dl else mdExtract e.state dl

/-- DE.NEW (40_digest_engine.md R86). The private kind has no header: `sel = 9` is illegal
(30_encoding.md R66). -/
def newEngine (cb : Backend) (k : Kind) : Except Cause (Engine × List Byte) := do
  require (k != .k128) .illegalCommand
  return (initEngine cb k, [])

/-- DE.UPDATE (40_digest_engine.md R87). -/
def updateEngine (cb : Backend) (e : Engine) (data : List Byte) : Except Cause (Engine × List Byte) := do
  require e.valid .noEngine
  require (e.phase == .absorb) .badPhase
  let e' ← absorb cb e data
  return (e', [])

/-- DE.DIGEST (40_digest_engine.md R88). -/
def digestEngine (cb : Backend) (e : Engine) (data : List Byte) : Except Cause (Engine × List Byte) := do
  require e.valid .noEngine
  let dl ← requireSome (digestLength e.kind) .badKind
  require (e.phase == .absorb) .badPhase
  let e1 ← absorb cb e data
  let pad ← digestPad e1.kind e1.total.toNat
  let e2 ← absorb cb e1 pad
  return (initEngine cb e2.kind, digestOutput cb e2 dl)

/-- DE.RESET (40_digest_engine.md R89): no phase guard. -/
def resetEngine (cb : Backend) (e : Engine) : Except Cause (Engine × List Byte) := do
  require e.valid .noEngine
  return (initEngine cb e.kind, [])

/-- DE.NEW kind (40_digest_engine.md R86). -/
def execDeNew (kind : Kind) (s : State) : Host.Outcome State Fault Refusal :=
  perform s (onEngine s.regs (newEngine (backendOf s.params.backend) kind))

/-- DE.UPDATE bytes (40_digest_engine.md R87). -/
def execDeUpdate (data : List Byte) (s : State) : Host.Outcome State Fault Refusal :=
  perform s (onEngine s.regs (updateEngine (backendOf s.params.backend) s.regs.de data))

/-- DE.DIGEST bytes (40_digest_engine.md R88). -/
def execDeDigest (data : List Byte) (s : State) : Host.Outcome State Fault Refusal :=
  perform s (onEngine s.regs (digestEngine (backendOf s.params.backend) s.regs.de data))

/-- DE.RESET (40_digest_engine.md R89). -/
def execDeReset (s : State) : Host.Outcome State Fault Refusal :=
  perform s (onEngine s.regs (resetEngine (backendOf s.params.backend) s.regs.de))

end Sys2Proof.Machine
end

