-- ==== Sys2Proof/Machine/Fp.lean ====
section
/-! DEFINITION. The floating-point unit FP (44_ranged_sampler.md R165): IEEE 754 binary64 with round to
nearest, ties to even. Every finite value is an integer number of units of 2^-1074; each operation is
exact on those integers and rounded once, by `fl`. -/

namespace Sys2Proof.Machine

/-- The magnitude of an encoding in units of 2^-1074 (`fromBits64` of 00_scope.md R7 without the sign).
On an infinity it answers 2^2098, which lies above every finite magnitude. -/
def fpUnits (d : Word64) : Nat :=
  let e := (d.extractLsb' 52 11).toNat
  let f := (d.extractLsb' 0 52).toNat
  if e = 0 then f else (2 ^ 52 + f) * 2 ^ (e - 1)

/-- The sign bit. -/
def fpSign (d : Word64) : Bool := d.getLsbD 63

/-- The value in units of 2^-1074. Both zeros are 0. -/
def fpValue (d : Word64) : Int := if fpSign d then -(fpUnits d : Int) else fpUnits d

/-- A NaN: all-ones exponent, non-zero fraction. -/
def fpIsNaN (d : Word64) : Bool := d.extractLsb' 52 11 == 0x7FF#11 && d.extractLsb' 0 52 != 0#52

/-- An infinity: all-ones exponent, zero fraction. -/
def fpIsInf (d : Word64) : Bool := d.extractLsb' 52 11 == 0x7FF#11 && d.extractLsb' 0 52 == 0#52

/-- `num / den` to the nearest integer, ties to even. -/
def nearestEven (num den : Nat) : Nat :=
  let q := num / den
  let r := num % den
  if 2 * r < den then q else if den < 2 * r then q + 1 else q + q % 2

/-- The encoding, without the sign, of the binary64 value nearest to `num / den` units of 2^-1074, ties
to the even significand (`fl` of 00_scope.md R7). A magnitude that rounds past the largest finite value
is the infinity. With `q` the whole units, the significand has 53 bits from `q = 2^52` on: one unit in
the last place is `2^sh` units, and the encoding is `sh * 2^52` plus the rounded significand, a carry
out of the significand included. -/
def flUnits (num den : Nat) : Nat :=
  let sh := Nat.log2 (num / den) - 52
  let m := nearestEven num (den * 2 ^ sh)
  min (sh * 2 ^ 52 + m) (0x7FF * 2 ^ 52)

/-- The encoding with this sign of a magnitude encoding. -/
def fpSigned (sign : Bool) (m : Nat) : Word64 := BitVec.ofNat 64 (m + if sign then 2 ^ 63 else 0)

/-- `fl(num / den)` for naturals, `den > 0`. -/
def fpOfRatio (num den : Nat) : Word64 := fpSigned false (flUnits (num * 2 ^ 1074) den)

/-- `fl(n)` for a natural number: conversion from integer. -/
def fpOfNat (n : Nat) : Word64 := fpOfRatio n 1

/-- `fl(a + b)` for finite operands. An exact zero sum is `+0`, unless both operands are `-0`. -/
def fpAdd (a b : Word64) : Word64 :=
  let v := fpValue a + fpValue b
  if v = 0 then fpSigned (fpSign a && fpSign b) 0 else fpSigned (v < 0) (flUnits v.natAbs 1)

/-- `-a`. -/
def fpNeg (a : Word64) : Word64 := a ^^^ 0x8000000000000000#64

/-- `fl(a - b)` for finite operands. -/
def fpSub (a b : Word64) : Word64 := fpAdd a (fpNeg b)

/-- `fl(a * b)` for finite operands. -/
def fpMul (a b : Word64) : Word64 :=
  fpSigned (fpSign a != fpSign b) (flUnits (fpUnits a * fpUnits b) (2 ^ 1074))

/-- `rint(t)` of 00_scope.md R7: the nearest integer, ties to even. -/
def fpRint (t : Word64) : Int :=
  let n : Int := nearestEven (fpUnits t) (2 ^ 1074)
  if fpSign t then -n else n

end Sys2Proof.Machine
end

