-- ==== Sys2Proof/Machine/Operands.lean ====
section
/-! DEFINITION. Operand forms (30_encoding.md R65): how a command reads its argument words and how it
puts a scalar on RES. -/

namespace Sys2Proof.Machine

/-- The scalar seed of a core with `W`-bit words: `arg0[W-1:0]` (30_encoding.md R65). -/
def seedOperand (W : Nat) (arg0 : Word64) : BitVec W := arg0.setWidth W

/-- The elements of a seed array as words of the core (30_encoding.md R65). -/
def keyOperand (W : Nat) (key : List Word64) : List (BitVec W) := key.map fun x => x.setWidth W

/-- `w = 8 << wc`, the operand width of RS.INT (30_encoding.md R65). -/
def widthBits : WidthCode → Nat
  | .w8 => 8
  | .w16 => 16
  | .w32 => 32
  | .w64 => 64

/-- A bound of RS.INT: `sext_w` or `zext_w` of the low `w` bits of an argument word (30_encoding.md R65). -/
def boundOperand (signed : Bool) (wc : WidthCode) (arg : Word64) : Int :=
  if signed then (arg.setWidth (widthBits wc)).toInt else (arg.setWidth (widthBits wc)).toNat

/-- `narrow(x)` of 44_ranged_sampler.md R162: `trunc_w(x)`, sign- or zero-extended to the 64 bits of RES
(30_encoding.md R65). -/
def narrow (signed : Bool) (wc : WidthCode) (x : Int) : Word64 :=
  let t := BitVec.ofInt (widthBits wc) x
  if signed then t.signExtend 64 else t.setWidth 64

/-- One bit on RES: `RES[0]`, `RES[63:1] = 0` (30_encoding.md R65). -/
def bitResult (b : Bool) : Word64 := if b then 1#64 else 0#64

end Sys2Proof.Machine
end

