-- ==== Sys2Proof/Machine/Twister.lean ====
section
/-! DEFINITION. The Mersenne Twister cores: constants (43_mersenne_twister.md R131), seeding (R133, R135),
twist and tempering (R139, R140), extraction (R142, R147), state image (R148, R149). -/

namespace Sys2Proof.Machine

/-- The constants of a core with `N` words of `W` bits (43_mersenne_twister.md R131). -/
structure MtParams (W N : Nat) where
  /-- `M`, the middle offset. -/
  M : Nat
  /-- `F1`, the scalar-seed multiplier. -/
  F1 : BitVec W
  /-- `SH`, the shift of `f`. -/
  SH : Nat
  /-- `A`, the twist constant. -/
  A : BitVec W
  /-- `UPPER`, the mask of the bits taken from element `i`. -/
  UPPER : BitVec W
  /-- `LOWER`, the mask of the bits taken from element `i + 1`. -/
  LOWER : BitVec W
  /-- Tempering stages 1 to 4: right shift and mask, left shift and mask, left shift and mask, right shift. -/
  shift1 : Nat
  mask1 : BitVec W
  shift2 : Nat
  mask2 : BitVec W
  shift3 : Nat
  mask3 : BitVec W
  shift4 : Nat
  /-- `S0`, the base seed of array seeding. -/
  S0 : BitVec W
  /-- `F2`, the first-pass multiplier. -/
  F2 : BitVec W
  /-- `F3`, the second-pass multiplier. -/
  F3 : BitVec W
  /-- `TOP`, forced into `X[0]` after array seeding. -/
  TOP : BitVec W

/-- The column MT32 of 43_mersenne_twister.md R131. -/
def mt32Params : MtParams 32 624 :=
  { M := 397, F1 := 1812433253#32, SH := 30, A := 0x9908B0DF#32, UPPER := 0x80000000#32, LOWER := 0x7FFFFFFF#32,
    shift1 := 11, mask1 := 0xFFFFFFFF#32, shift2 := 7, mask2 := 0x9D2C5680#32, shift3 := 15, mask3 := 0xEFC60000#32,
    shift4 := 18, S0 := 19650218#32, F2 := 1664525#32, F3 := 1566083941#32, TOP := 0x80000000#32 }

/-- The column MT64 of 43_mersenne_twister.md R131. -/
def mt64Params : MtParams 64 312 :=
  { M := 156, F1 := 6364136223846793005#64, SH := 62, A := 0xB5026F5AA96619E9#64, UPPER := 0xFFFFFFFF80000000#64,
    LOWER := 0x000000007FFFFFFF#64, shift1 := 29, mask1 := 0x5555555555555555#64, shift2 := 17,
    mask2 := 0x71D67FFFEDA60000#64, shift3 := 37, mask3 := 0xFFF7EEE000000000#64, shift4 := 43, S0 := 19650218#64,
    F2 := 3935559000370003845#64, F3 := 2862933555777941757#64, TOP := 0x8000000000000000#64 }

section
variable {W N : Nat} (p : MtParams W N)

/-- `f(x) = x ^ (x >> SH)` (43_mersenne_twister.md R132). -/
def mtF (x : BitVec W) : BitVec W := x ^^^ (x >>> p.SH)

/-- `X[i], X[i+1], ...` of scalar seeding, `n` elements, from `x = X[i-1]` (43_mersenne_twister.md R133). -/
def seedTail : Nat → Nat → BitVec W → List (BitVec W)
  | 0, _, _ => []
  | n + 1, i, x =>
    let y := p.F1 * mtF p x + BitVec.ofNat W i
    y :: seedTail n (i + 1) y

/-- `SeedScalar(v, s)` (43_mersenne_twister.md R133): every element of `X` is written, `w <- N`. -/
def seedScalar (s : BitVec W) : MtCore W N :=
  { X := cells N (s :: seedTail p (N - 1) 1 s), w := BitVec.ofNat 10 N, seeded := true }

/-- The array and the loop counters `i`, `j` of `SeedArray` (43_mersenne_twister.md R135). -/
structure Mix (W N : Nat) where
  X : Vector (BitVec W) N
  i : Nat
  j : Nat

/-- `i = i + 1; if i >= N: X[0] <- X[N-1]; i = 1` (43_mersenne_twister.md R135). -/
def Mix.advance (m : Mix W N) : Mix W N :=
  if m.i + 1 ≥ N then { m with X := m.X.setIfInBounds 0 (cell m.X (N - 1)), i := 1 } else { m with i := m.i + 1 }

/-- The body of the first pass (43_mersenne_twister.md R135). -/
def mixFirst (key : List (BitVec W)) (m : Mix W N) : Mix W N :=
  let x := ((cell m.X m.i ^^^ (mtF p (cell m.X (m.i - 1)) * p.F2)) + key.getD m.j 0) + BitVec.ofNat W m.j
  let m' := Mix.advance { m with X := m.X.setIfInBounds m.i x }
  { m' with j := if m.j + 1 ≥ key.length then 0 else m.j + 1 }

/-- The body of the second pass (43_mersenne_twister.md R135). -/
def mixSecond (m : Mix W N) : Mix W N :=
  let x := (cell m.X m.i ^^^ (mtF p (cell m.X (m.i - 1)) * p.F3)) - BitVec.ofNat W m.i
  Mix.advance { m with X := m.X.setIfInBounds m.i x }

/-- `n` rounds of a loop body. -/
def rounds {α : Type} (f : α → α) : Nat → α → α
  | 0, a => a
  | n + 1, a => rounds f n (f a)

/-- `SeedArray(v, key)`, `key` not empty (43_mersenne_twister.md R135). -/
def seedArray (key : List (BitVec W)) : MtCore W N :=
  let m0 : Mix W N := { X := (seedScalar p p.S0).X, i := 1, j := 0 }
  let m1 := rounds (mixFirst p key) (max N key.length) m0
  let m2 := rounds (mixSecond p) (N - 1) m1
  { X := m2.X.setIfInBounds 0 p.TOP, w := BitVec.ofNat 10 N, seeded := true }

/-- The loop body of `Twist` (43_mersenne_twister.md R139): in place, so an element already rewritten is
read as it stands now. -/
def twistAt (X : Vector (BitVec W) N) (i : Nat) : Vector (BitVec W) N :=
  let y := (cell X i &&& p.UPPER) ||| (cell X ((i + 1) % N) &&& p.LOWER)
  X.setIfInBounds i (cell X ((i + p.M) % N) ^^^ (y >>> 1) ^^^ (if y.getLsbD 0 then p.A else 0))

/-- `Twist(v)` (43_mersenne_twister.md R139): `i` from 0 to `N - 1`, then `w <- 0`. -/
def twist (c : MtCore W N) : MtCore W N :=
  { c with X := (List.range N).foldl (twistAt p) c.X, w := 0#10 }

/-- `Temper(v, y)` (43_mersenne_twister.md R140). -/
def temper (y : BitVec W) : BitVec W :=
  let y1 := y ^^^ ((y >>> p.shift1) &&& p.mask1)
  let y2 := y1 ^^^ ((y1 <<< p.shift2) &&& p.mask2)
  let y3 := y2 ^^^ ((y2 <<< p.shift3) &&& p.mask3)
  y3 ^^^ (y3 >>> p.shift4)

/-- The core an extraction reads from: twisted when `w = N` (43_mersenne_twister.md R142). -/
def readied (c : MtCore W N) : MtCore W N := if c.w.toNat = N then twist p c else c

/-- `NextWord(v)` on a core (43_mersenne_twister.md R142). -/
def nextWord (c : MtCore W N) : BitVec W × MtCore W N :=
  let c' := readied p c
  (temper p (cell c'.X c'.w.toNat), { c' with w := c'.w + 1 })

end

/-- The state image of MT.GETSTATE: `LE_2(w)`, then every word in `W/8` bytes, little-endian
(43_mersenne_twister.md R148). -/
def stateImage {W N : Nat} (c : MtCore W N) : List Byte :=
  leBytes 2 c.w.toNat ++ c.X.toList.flatMap fun x => leBytes (W / 8) x.toNat

/-- The bytes of a state image, both variants (43_mersenne_twister.md R148). -/
def imageBytes : Nat := 2498

/-- MT.SETSTATE on a core (43_mersenne_twister.md R149): the core an image describes, or nothing when the
call is ignored for its length or its index. -/
def importImage (W N : Nat) (img : List Byte) : Option (MtCore W N) :=
  let wi := fromLE (img.take 2)
  if img.length ≠ imageBytes then none
  else if wi > N then none
  else some
    { X := cells N ((pieces (W / 8) N (img.drop 2)).map fun q => BitVec.ofNat W (fromLE q)),
      w := BitVec.ofNat 10 wi, seeded := true }

/-- `MTv.seeded`. -/
def isSeeded (v : Variant) (r : Regs) : Bool :=
  match v with
  | .mt32 => r.mt32.seeded
  | .mt64 => r.mt64.seeded

/-- `NextWord(v)`, zero-extended to 64 bits (43_mersenne_twister.md R142). -/
def drawWord (v : Variant) (r : Regs) : Word64 × Regs :=
  match v with
  | .mt32 =>
    let d := nextWord mt32Params r.mt32
    (d.1.setWidth 64, { r with mt32 := d.2 })
  | .mt64 =>
    let d := nextWord mt64Params r.mt64
    (d.1, { r with mt64 := d.2 })

/-- `Draw53(v)` (43_mersenne_twister.md R147). -/
def draw53 (v : Variant) (r : Regs) : Nat × Regs :=
  match v with
  | .mt64 =>
    let d := drawWord .mt64 r
    ((d.1 >>> 11).toNat, d.2)
  | .mt32 =>
    let a := drawWord .mt32 r
    let b := drawWord .mt32 a.2
    ((a.1 >>> 5).toNat * 2 ^ 26 + (b.1 >>> 6).toNat, b.2)

/-- The binary64 value of a 53-bit draw: half-open `k / 2^53`, closed `fl(k / (2^53 - 1))`
(43_mersenne_twister.md R147). -/
def unitDouble (closed : Bool) (k : Nat) : Word64 :=
  if closed then fpOfRatio k (2 ^ 53 - 1) else fpOfRatio k (2 ^ 53)

/-- `NextDouble(v, closed)`, as `bits64` (43_mersenne_twister.md R147). -/
def nextDouble (v : Variant) (closed : Bool) (r : Regs) : Word64 × Regs :=
  let k := draw53 v r
  (unitDouble closed k.1, k.2)

end Sys2Proof.Machine
end

