-- ==== Sys2Proof/Machine/MersenneTwister.lean ====
section
/-! DEFINITION. The commands of 43_mersenne_twister.md: MT.SEEDR, MT.SEED, MT.SEEDA, MT.NEXT, MT.NEXTW,
MT.BIT, MT.DOUBLE, MT.GETSTATE, MT.SETSTATE. -/

namespace Sys2Proof.Machine

open Sys2Proof.Config

/-- The registers after the selected core has been seeded with a scalar, taken from a 64-bit word
(43_mersenne_twister.md R133, R134, R137). -/
def seededWith (v : Variant) (x : Word64) (r : Regs) : Regs :=
  match v with
  | .mt32 => { r with mt32 := seedScalar mt32Params (seedOperand 32 x) }
  | .mt64 => { r with mt64 := seedScalar mt64Params (seedOperand 64 x) }

/-- The registers after the selected core has been seeded with an array (43_mersenne_twister.md R135). -/
def seededWithKey (v : Variant) (key : List Word64) (r : Regs) : Regs :=
  match v with
  | .mt32 => { r with mt32 := seedArray mt32Params (keyOperand 32 key) }
  | .mt64 => { r with mt64 := seedArray mt64Params (keyOperand 64 key) }

/-- MT.SEEDA (43_mersenne_twister.md R136): an empty array faults. -/
def seedAEffect (v : Variant) (key : List Word64) (r : Regs) : Effect := do
  require (!key.isEmpty) .badOperand
  return silent (seededWithKey v key r)

/-- An extraction command: the guard on `MTv.seeded`, then a word for RES and the advanced registers
(43_mersenne_twister.md R141). -/
def extraction (v : Variant) (draw : Regs → Word64 × Regs) (r : Regs) : Effect := do
  require (isSeeded v r) .mtUnseeded
  return scalar (draw r).2 (draw r).1

/-- The 64-bit value of MT.NEXT from two native words of MT32, `a` drawn first (43_mersenne_twister.md R143). -/
def composeWords (order : Mt32Compose) (a b : Word64) : Word64 :=
  match order with
  | .firstHigh => (a <<< 32) ||| b
  | .firstLow => (b <<< 32) ||| a

/-- The draw of MT.NEXT (43_mersenne_twister.md R143). -/
def drawNext (order : Mt32Compose) (v : Variant) (r : Regs) : Word64 × Regs :=
  match v with
  | .mt64 => drawWord .mt64 r
  | .mt32 =>
    let a := drawWord .mt32 r
    let b := drawWord .mt32 a.2
    (composeWords order a.1 b.1, b.2)

/-- `W`, the word width (43_mersenne_twister.md R131). -/
def wordBits : Variant → Nat
  | .mt32 => 32
  | .mt64 => 64

/-- The bit of a native word MT.BIT returns (43_mersenne_twister.md R145). -/
def chosenBit (which : MtBit) (v : Variant) (y : Word64) : Bool :=
  match which with
  | .top => y.getLsbD (wordBits v - 1)
  | .low => y.getLsbD 0

/-- The draw of MT.BIT (43_mersenne_twister.md R145). -/
def drawBit (which : MtBit) (v : Variant) (r : Regs) : Word64 × Regs :=
  let d := drawWord v r
  (bitResult (chosenBit which v d.1), d.2)

/-- The state image of the selected core (43_mersenne_twister.md R148). -/
def imageOf (v : Variant) (r : Regs) : List Byte :=
  match v with
  | .mt32 => stateImage r.mt32
  | .mt64 => stateImage r.mt64

/-- MT.GETSTATE (43_mersenne_twister.md R148): the state is unchanged. -/
def getStateEffect (v : Variant) (r : Regs) : Effect := do
  require (isSeeded v r) .mtUnseeded
  return { regs := r, dout := imageOf v r, res := none }

/-- The registers after an import into the selected core, or nothing when the image is ignored
(43_mersenne_twister.md R149). -/
def imported (v : Variant) (img : List Byte) (r : Regs) : Option Regs :=
  match v with
  | .mt32 => (importImage 32 624 img).map fun c => { r with mt32 := c }
  | .mt64 => (importImage 64 312 img).map fun c => { r with mt64 := c }

/-- What MT.SETSTATE puts on RES: nothing, or with `report` whether the image was accepted
(43_mersenne_twister.md R150). -/
def reportResult (setting : SetStateReport) (accepted : Bool) : Option Word64 :=
  match setting with
  | .silent => none
  | .report => some (bitResult accepted)

/-- MT.SETSTATE (43_mersenne_twister.md R149, R150): a malformed image is ignored and never a fault. -/
def setStateEffect (setting : SetStateReport) (v : Variant) (img : List Byte) (r : Regs) : Effect :=
  match imported v img r with
  | some r' => .ok { regs := r', dout := [], res := reportResult setting true }
  | none => .ok { regs := r, dout := [], res := reportResult setting false }

/-- MT.SEEDR v (43_mersenne_twister.md R137): the entropy word is an input without a law. -/
def execMtSeedR (v : Variant) (s : State) : Host.Outcome State Fault Refusal :=
  perform s (.ok (silent (seededWith v s.ent s.regs)))

/-- MT.SEED v, seed (43_mersenne_twister.md R134). -/
def execMtSeed (v : Variant) (arg0 : Word64) (s : State) : Host.Outcome State Fault Refusal :=
  perform s (.ok (silent (seededWith v arg0 s.regs)))

/-- MT.SEEDA v, array (43_mersenne_twister.md R136). -/
def execMtSeedA (v : Variant) (key : List Word64) (s : State) : Host.Outcome State Fault Refusal :=
  perform s (seedAEffect v key s.regs)

/-- MT.NEXT v (43_mersenne_twister.md R143). -/
def execMtNext (v : Variant) (s : State) : Host.Outcome State Fault Refusal :=
  perform s (extraction v (drawNext s.params.mt32Compose v) s.regs)

/-- MT.NEXTW v (43_mersenne_twister.md R142). -/
def execMtNextW (v : Variant) (s : State) : Host.Outcome State Fault Refusal :=
  perform s (extraction v (drawWord v) s.regs)

/-- MT.BIT v (43_mersenne_twister.md R145). -/
def execMtBit (v : Variant) (s : State) : Host.Outcome State Fault Refusal :=
  perform s (extraction v (drawBit s.params.mtBit v) s.regs)

/-- MT.DOUBLE v, open or closed (43_mersenne_twister.md R146). -/
def execMtDouble (v : Variant) (closed : Bool) (s : State) : Host.Outcome State Fault Refusal :=
  perform s (extraction v (nextDouble v closed) s.regs)

/-- MT.GETSTATE v (43_mersenne_twister.md R148). -/
def execMtGetState (v : Variant) (s : State) : Host.Outcome State Fault Refusal :=
  perform s (getStateEffect v s.regs)

/-- MT.SETSTATE v, image (43_mersenne_twister.md R149). -/
def execMtSetState (v : Variant) (img : List Byte) (s : State) : Host.Outcome State Fault Refusal :=
  perform s (setStateEffect s.params.setStateReport v img s.regs)

end Sys2Proof.Machine
end

