-- ==== Sys2Proof/Machine/RangedSampler.lean ====
section
/-! DEFINITION. The commands of 44_ranged_sampler.md: RS.INT and RS.FLOAT. The sampler has no register
of its own (10_state.md R25). -/

namespace Sys2Proof.Machine

/-- The map of a draw into `[lo, hi]`, clamp included (44_ranged_sampler.md R162): `span = fl(hi - lo)`,
`t = fl(d * span)`, `r = rint(t)`, `x = lo + r` on unbounded integers. -/
def sampleInt (lo hi : Int) (d : Word64) : Int :=
  let x := lo + fpRint (fpMul d (fpOfNat (hi - lo).toNat))
  let x := if x > hi then hi else x
  if x < lo then lo else x

/-- RS.INT (44_ranged_sampler.md R161, R162): the range is judged first, `lo = hi` completes without a
draw, only then must the core be seeded. -/
def rsIntEffect (v : Variant) (closed signed : Bool) (wc : WidthCode) (lo hi : Int) (r : Regs) : Effect := do
  require (lo ≤ hi) .badRange
  if lo = hi then
    return scalar r (narrow signed wc lo)
  else
    require (isSeeded v r) .mtUnseeded
    return scalar (nextDouble v closed r).2 (narrow signed wc (sampleInt lo hi (nextDouble v closed r).1))

/-- A finite binary64 value. -/
def fpIsFinite (d : Word64) : Bool := !fpIsNaN d && !fpIsInf d

/-- The range of RS.FLOAT is valid: finite bounds, `lo <= hi`, a finite span (44_ranged_sampler.md R164). -/
def floatRangeOk (lo hi : Word64) : Bool :=
  fpIsFinite lo && fpIsFinite hi && decide (fpValue lo ≤ fpValue hi) && !fpIsInf (fpSub hi lo)

/-- The map of a draw into `[lo, hi]`, clamp included (44_ranged_sampler.md R164): two rounded operations,
no fused multiply-add. -/
def sampleFloat (lo hi d : Word64) : Word64 :=
  let x := fpAdd lo (fpMul d (fpSub hi lo))
  let x := if fpValue x > fpValue hi then hi else x
  if fpValue x < fpValue lo then lo else x

/-- RS.FLOAT (44_ranged_sampler.md R161, R164): `lo = hi` in IEEE equality returns the bits of `lo`. -/
def rsFloatEffect (v : Variant) (closed : Bool) (lo hi : Word64) (r : Regs) : Effect := do
  require (floatRangeOk lo hi) .badRange
  if fpValue lo = fpValue hi then
    return scalar r lo
  else
    require (isSeeded v r) .mtUnseeded
    return scalar (nextDouble v closed r).2 (sampleFloat lo hi (nextDouble v closed r).1)

/-- RS.INT v, open or closed, type, lo, hi (44_ranged_sampler.md R162). -/
def execRsInt (v : Variant) (closed signed : Bool) (wc : WidthCode) (arg0 arg1 : Word64) (s : State) :
    Host.Outcome State Fault Refusal :=
  perform s (rsIntEffect v closed signed wc (boundOperand signed wc arg0) (boundOperand signed wc arg1) s.regs)

/-- RS.FLOAT v, open or closed, lo, hi (44_ranged_sampler.md R164). -/
def execRsFloat (v : Variant) (closed : Bool) (arg0 arg1 : Word64) (s : State) : Host.Outcome State Fault Refusal :=
  perform s (rsFloatEffect v closed arg0 arg1 s.regs)

end Sys2Proof.Machine
end

