-- ==== Sys2Proof/Machine/Xof.lean ====
section
/-! DEFINITION. The commands of 42_sponge.md: XOF.NEW, XOF.DIGEST, XOF.READ. -/

namespace Sys2Proof.Machine

open Sys2Proof.Config

/-- The XOF pad is absorbed: `Absorb(SpongePad(DE.total, bs, 0x1f))` (42_sponge.md R119, R120). -/
def absorbXofPad (cb : Backend) (e : Engine) : Except Cause Engine :=
  absorb cb e (spongePad e.total.toNat (blockSize e.kind) xofSuffix)

/-- XOF.DIGEST (42_sponge.md R119, R121): the zero-length request ends before the phase guard. -/
def digestXof (cb : Backend) (e : Engine) (n : Nat) : Except Cause (Engine × List Byte) := do
  require e.valid .noEngine
  require (servesXof e.kind) .badKind
  if n = 0 then
    return (e, [])
  else
    require (e.phase == .absorb) .badPhase
    let e1 ← absorbXofPad cb e
    return (initEngine cb e.kind, squeezeOnce cb (blockSize e.kind) (spongeState e1.state) n)

/-- The first read finalises the input; a later one finds the engine in SQUEEZE (42_sponge.md R120). -/
def enterSqueeze (cb : Backend) (e : Engine) : Except Cause Engine :=
  match e.phase with
  | .absorb => do
    let e1 ← absorbXofPad cb e
    return { e1 with phase := .squeeze, cursor := 0#8 }
  | .squeeze => .ok e

/-- XOF.READ (42_sponge.md R120, R121). -/
def readXof (cb : Backend) (e : Engine) (n : Nat) : Except Cause (Engine × List Byte) := do
  require e.valid .noEngine
  require (servesXof e.kind) .badKind
  if n = 0 then
    return (e, [])
  else
    let e1 ← enterSqueeze cb e
    let r := squeezeBytes cb n e1
    return (r.2, r.1)

/-- XOF.NEW level (42_sponge.md R118). -/
def execXofNew (level : Level) (s : State) : Host.Outcome State Fault Refusal :=
  perform s (onEngine s.regs (.ok (initEngine (backendOf s.params.backend) (kindOfLevel level), [])))

/-- XOF.DIGEST n (42_sponge.md R119). -/
def execXofDigest (n : Word64) (s : State) : Host.Outcome State Fault Refusal :=
  perform s (onEngine s.regs (digestXof (backendOf s.params.backend) s.regs.de n.toNat))

/-- XOF.READ n (42_sponge.md R120). -/
def execXofRead (n : Word64) (s : State) : Host.Outcome State Fault Refusal :=
  perform s (onEngine s.regs (readXof (backendOf s.params.backend) s.regs.de n.toNat))

end Sys2Proof.Machine
end

