-- ==== Sys2Proof/Machine/Dispatch.lean ====
section
/-! DEFINITION. The one dispatch of commands to their meanings: one arm per constructor of Instr. -/

namespace Sys2Proof.Machine

def exec (i : Instr) (s : State) : Host.Outcome State Fault Refusal :=
  match i with
  | .deNew kind => Sys2Proof.Machine.execDeNew kind s
  | .deUpdate data => Sys2Proof.Machine.execDeUpdate data s
  | .deDigest data => Sys2Proof.Machine.execDeDigest data s
  | .deReset => Sys2Proof.Machine.execDeReset s
  | .xofNew level => Sys2Proof.Machine.execXofNew level s
  | .xofDigest n => Sys2Proof.Machine.execXofDigest n s
  | .xofRead n => Sys2Proof.Machine.execXofRead n s
  | .mtSeedR v => Sys2Proof.Machine.execMtSeedR v s
  | .mtSeed v arg0 => Sys2Proof.Machine.execMtSeed v arg0 s
  | .mtSeedA v key => Sys2Proof.Machine.execMtSeedA v key s
  | .mtNext v => Sys2Proof.Machine.execMtNext v s
  | .mtNextW v => Sys2Proof.Machine.execMtNextW v s
  | .mtBit v => Sys2Proof.Machine.execMtBit v s
  | .mtDouble v closed => Sys2Proof.Machine.execMtDouble v closed s
  | .mtGetState v => Sys2Proof.Machine.execMtGetState v s
  | .mtSetState v img => Sys2Proof.Machine.execMtSetState v img s
  | .rsInt v closed signed wc arg0 arg1 => Sys2Proof.Machine.execRsInt v closed signed wc arg0 arg1 s
  | .rsFloat v closed arg0 arg1 => Sys2Proof.Machine.execRsFloat v closed arg0 arg1 s

end Sys2Proof.Machine
end

