-- ==== Sys2Proof/Machine/Transaction.lean ====
section
/-! DEFINITION. One transaction on the ports (20_memory.md R42): what the unit takes from CMD, DIN and
ENT, and how a raw command comes to be executed or refused. -/

namespace Sys2Proof.Machine

/-- The state in which a command runs: the rest of the host's list, the entropy word on ENT, and the
number of DIN bytes taken for it. -/
def State.latch (s : State) (rest : List Input) (ent : Word64) (taken : Nat) : State :=
  { s with inputs := rest, ent := ent, dinTaken := taken }

/-- A raw command arrives with the entropy word `ent` on ENT (20_memory.md R42, 60_exceptions.md R199). A
faulted unit refuses it and takes no payload (R193). An illegal header raises ILLEGAL_COMMAND and takes
no payload (R194, 30_encoding.md R66). A legal header takes its whole payload, and the command runs. A
payload that is not the announced one is outside the spec (93_implementation_defined.md U20). -/
def runCommand (s : State) (rest : List Input) (c : Command) (ent : Word64) : Host.Outcome State Fault Refusal :=
  if s.fault then .next (s.latch rest ent 0).refuse
  else
    match decode c with
    | .ok i => exec i (s.latch rest ent c.payload.length)
    | .error e =>
      if e.isIllegalHeader then .next ((s.latch rest ent 0).raiseFault .illegalCommand)
      else .fault .portsOutOfStep

/-- One step: the oldest input is taken. With none, the unit is idle and nothing changes
(60_exceptions.md R207). RST is a step between commands (93_implementation_defined.md U21). -/
def transact (s : State) : Host.Outcome State Fault Refusal :=
  match s.inputs with
  | [] => .next s
  | .rst :: rest => .next ({ s with inputs := rest } : State).hardReset
  | .command c ent :: rest => runCommand s rest c ent

/-- `s` with a raw command as the very next input, before all others, its ENT word as it stands. -/
def State.enqueue (s : State) (c : Command) : State := { s with inputs := .command c s.ent :: s.inputs }

end Sys2Proof.Machine
end

