-- ==== Sys2Proof/Machine/Step.lean ====
section
/-! DEFINITION. The step function, and the placing of a word where it is taken next. -/

namespace Sys2Proof.Machine

/-- One step of the DPU: one transaction, or RST, or nothing to do (00_scope.md R5, 20_memory.md R46). -/
def step (s : State) : Host.Outcome State Fault Refusal := transact s

/-- `s` with the command whose bits are the low `nbits` bits of `w` as the very next input (log entry 2). -/
def State.withFetchWord (s : State) (nbits w : Nat) : State := s.enqueue (commandOfBits nbits w)

end Sys2Proof.Machine
end

