-- ==== Sys2Proof/Machine/HostClients.lean ====
section
/-! DEFINITION. The host clients of 45_host_clients.md, HMAC, HKDF, X9.63 KDF and MGF1: programs of the
host over the commands of the unit, not part of the unit (00_scope.md R4). No command and no step uses this
file. A host variable is a plain argument; the unit is the state that is handed on. -/

namespace Sys2Proof.Machine.Client

/-- The unit after one command of the host. -/
def issue (s : State) (i : Instr) : State :=
  match exec i s with
  | .next t => t
  | .fault _ => s
  | .refused _ => s

/-- The bytes the host takes from DOUT after a command. -/
def dout (s : State) : List Byte :=
  match s.reply with
  | some (.ok d _) => d
  | some (.fault _) => []
  | some (.refused _) => []
  | none => []

/-- `HMACContext`: the pads, in host memory (45_host_clients.md R170). -/
structure HmacContext where
  iKeyPad : List Byte
  oKeyPad : List Byte

/-- A key of at most `bs` bytes, zero-padded to `bs` and XORed with a fixed byte (45_host_clients.md R170). -/
def keyPad (bs : Nat) (k0 : List Byte) (x : Byte) : List Byte := (fit 0#8 bs k0).map fun b => b ^^^ x

/-- The pads of a key no longer than the block (45_host_clients.md R170). -/
def derivePads (bs : Nat) (k0 : List Byte) : HmacContext :=
  { iKeyPad := keyPad bs k0 0x36#8, oKeyPad := keyPad bs k0 0x5c#8 }

/-- `HMAC.reset()` (45_host_clients.md R171). -/
def hmacReset (ctx : HmacContext) (s : State) : State := issue (issue s .deReset) (.deUpdate ctx.iKeyPad)

/-- `HMAC.new(kind, key)`: a key longer than the block is hashed first (45_host_clients.md R170, R171). -/
def hmacNew (kind : Kind) (key : List Byte) (s : State) : HmacContext × State :=
  let s1 := issue s (.deNew kind)
  if key.length > blockSize kind then
    let s2 := issue s1 (.deDigest key)
    let ctx := derivePads (blockSize kind) (dout s2)
    (ctx, hmacReset ctx s2)
  else
    let ctx := derivePads (blockSize kind) key
    (ctx, hmacReset ctx s1)

/-- `HMAC.update(data)` (45_host_clients.md R172). -/
def hmacUpdate (data : List Byte) (s : State) : State := issue s (.deUpdate data)

/-- `HMAC.compute(data)`, back in the post-reset state (45_host_clients.md R172). -/
def hmacCompute (ctx : HmacContext) (data : List Byte) (s : State) : List Byte × State :=
  let s1 := issue s (.deDigest data)
  let s2 := issue (issue s1 (.deUpdate ctx.oKeyPad)) (.deDigest (dout s1))
  (dout s2, issue s2 (.deUpdate ctx.iKeyPad))

/-- `HMAC(key, m)`: `new(kind, key); compute(m)` (45_host_clients.md R172). -/
def hmac (kind : Kind) (key m : List Byte) (s : State) : List Byte × State :=
  let cs := hmacNew kind key s
  hmacCompute cs.1 m cs.2

/-- `ceil(size / dl)`. -/
def blocksFor (size dl : Nat) : Nat := (size + dl - 1) / dl

/-- `T(i) ‖ T(i+1) ‖ ...` of HKDF's expand phase, `n` blocks from `T(i-1) = t` (45_host_clients.md R174). -/
def hkdfExpand (kind : Kind) (prk info : List Byte) : Nat → Nat → List Byte → State → List Byte × State
  | 0, _, _, s => ([], s)
  | n + 1, i, t, s =>
    let ts := hmac kind prk (t ++ info ++ [BitVec.ofNat 8 i]) s
    let r := hkdfExpand kind prk info n (i + 1) ts.1 ts.2
    (ts.1 ++ r.1, r.2)

/-- HKDF (45_host_clients.md R174). No answer is a host contract violation: no command is issued (R177). -/
def hkdf (kind : Kind) (ikm : List Byte) (size : Nat) (info salt : List Byte) (s : State) : Option (List Byte × State) := do
  let dl ← digestLength kind
  if 0 < size ∧ size ≤ 255 * dl then
    let p := hmac kind salt ikm s
    let r := hkdfExpand kind p.1 info (blocksFor size dl) 1 [] p.2
    return (r.1.take size, r.2)
  else none

/-- `n` blocks `H(z ‖ BE_4(c) ‖ info)` of the counter iteration (45_host_clients.md R175). -/
def counterBlocks (z info : List Byte) : Nat → Nat → State → List Byte × State
  | 0, _, s => ([], s)
  | n + 1, c, s =>
    let t := issue s (.deDigest (z ++ beBytes 4 c ++ info))
    let r := counterBlocks z info n (c + 1) t
    (dout t ++ r.1, r.2)

/-- `CounterKDF` (45_host_clients.md R175): with `size = 0` no command is issued. -/
def counterKdf (kind : Kind) (dl : Nat) (z : List Byte) (size : Nat) (info : List Byte) (start : Nat) (s : State) :
    List Byte × State :=
  if size = 0 then ([], s)
  else
    let r := counterBlocks z info (blocksFor size dl) start (issue s (.deNew kind))
    (r.1.take size, r.2)

/-- X9.63 KDF (45_host_clients.md R175, R177). -/
def x963Kdf (kind : Kind) (ikm : List Byte) (size : Nat) (info : List Byte) (s : State) : Option (List Byte × State) := do
  let dl ← digestLength kind
  if size < dl * (2 ^ 32 - 1) then return counterKdf kind dl ikm size info 1 s else none

/-- MGF1 (45_host_clients.md R175, R177). -/
def mgf1 (kind : Kind) (seed : List Byte) (size : Nat) (s : State) : Option (List Byte × State) := do
  let dl ← digestLength kind
  if size ≤ dl * 2 ^ 32 then return counterKdf kind dl seed size [] 0 s else none

end Sys2Proof.Machine.Client
end

