-- ==== Sys2Proof/Safety.lean ====
section
/-! DEFINITION. What counts as a sound state of the DPU, in the terms claims use: the invariants of the
Digest Engine (10_state.md R19), of the cores (R24) and of the fault registers (R26), the engine that
holds a given message (40_digest_engine.md R84), its digest and output sequence, and the relations that spell
out a raised fault, an announced payload, a twist and an array seeding. -/

namespace Sys2Proof.Machine

/-- The state has the shape of its kind (10_state.md R10, R16). -/
def hasShape : Kind → DState → Bool
  | .sha1, .words5 _ => true
  | .sha224, .words8 _ => true
  | .sha256, .words8 _ => true
  | .sha384, .limbs8 _ => true
  | .sha512, .limbs8 _ => true
  | .sha3x224, .bytes _ => true
  | .sha3x256, .bytes _ => true
  | .sha3x384, .bytes _ => true
  | .sha3x512, .bytes _ => true
  | .k128, .bytes _ => true
  | _, _ => false

/-- Items 2 and 5 of 10_state.md R19 in ABSORB, item 4 in SQUEEZE. -/
def Engine.phaseInv (e : Engine) : Prop :=
  match e.phase with
  | .absorb => e.bytesInBuffer.toNat = e.total.toNat % blockSize e.kind ∧ e.cursor = 0#8
  | .squeeze => e.bytesInBuffer = 0#8 ∧ e.total.toNat % blockSize e.kind = 0 ∧ 0 < e.cursor.toNat ∧
      e.cursor.toNat ≤ blockSize e.kind ∧ servesXof e.kind = true

/-- The invariants of 10_state.md R19 of an engine that exists: item 1 the buffer is never full between
commands, item 3 the cells at and above `bytesInBuffer` are zero, the state has the kind's shape (R16),
and the items of the phase. -/
structure Engine.Inv (e : Engine) : Prop where
  notFull : e.bytesInBuffer.toNat < blockSize e.kind
  clearAbove : ∀ i, e.bytesInBuffer.toNat ≤ i → cell e.buffer i = 0#8
  shape : hasShape e.kind e.state = true
  phase : e.phaseInv

/-- `0 <= w <= N` of a seeded core (10_state.md R24). -/
def MtCore.Inv {W N : Nat} (c : MtCore W N) : Prop := c.seeded = true → c.w.toNat ≤ N

/-- The invariants of the registers of an unfaulted unit. -/
structure Regs.Inv (r : Regs) : Prop where
  engine : r.de.valid = true → r.de.Inv
  mt32 : r.mt32.Inv
  mt64 : r.mt64.Inv

/-- The invariant of the machine. The register invariants are claimed of an unfaulted unit only
(10_state.md R19); CAUSE is NONE exactly while `FAULT = 0` (R26). -/
structure State.Inv (s : State) : Prop where
  regs : s.fault = false → s.regs.Inv
  cause : s.fault = false ↔ s.cause = .none

/-- `len`, the payload bytes a command with a legal header takes from DIN (20_memory.md R42): `arg0` for
DE.UPDATE, DE.DIGEST and MT.SETSTATE, `arg0 * W/8` for MT.SEEDA, none for any other. -/
def announcedLength (c : Command) : Nat :=
  let op := c.hdr.extractLsb' 24 8
  if op ∈ [0x11#8, 0x12#8, 0x38#8] then c.arg0.toNat
  else if op = 0x32#8 then c.arg0.toNat * (if c.hdr.getLsbD 16 then 8 else 4)
  else 0

/-- The outcome `o` is that of `raise Fault(c)` in the unfaulted state `s` (60_exceptions.md R192): `FAULT = 1`,
`CAUSE = c`, the response says so and carries nothing. What stands in the other registers, and the count of
such events, is the model's reading (log entry 8); everything else is as in `s`. -/
def RaisesFault (o : Host.Outcome State Fault Refusal) (s : State) (c : Cause) : Prop :=
  o = .next { s with regs := s.regsAfterFault, fault := true, cause := c, reply := some (.fault c),
                     residues := s.residues + 1 }

/-- The commit of a full block `B` (40_digest_engine.md R83): the compression of the kind, or, cell by cell,
`S[i] ^ B[i]` in the rate and `S[i]` in the capacity, and then the permutation of all 200 bytes. -/
def commitBlock (cb : Config.Backend) (k : Kind) (B : List Byte) : DState → DState
  | .words5 h => .words5 (cb.compress5 h B)
  | .words8 h => .words8 (cb.compress8 k h B)
  | .limbs8 h => .limbs8 (cb.compressLimbs k h B)
  | .bytes s => .bytes (cb.keccakF (Vector.ofFn fun i : Fin 200 =>
      if i.val < blockSize k then cell s i.val ^^^ B.getD i.val 0#8 else cell s i.val))

/-- The state after the full blocks of a byte string have been committed to the initial state of a kind, in
order; block `i` is the bytes `i * bs` to `i * bs + bs - 1` (40_digest_engine.md R82, R84(c)). -/
def blocksState (cb : Config.Backend) (k : Kind) (m : List Byte) : DState :=
  (List.range (m.length / blockSize k)).foldl
    (fun st i => commitBlock cb k ((m.drop (i * blockSize k)).take (blockSize k)) st) (resetState cb k)

/-- The engine of kind `k` that has absorbed the message `m` since its initial state (40_digest_engine.md
R84(b)): the full blocks are committed, the buffer holds the rest followed by zeros. -/
def messageEngine (cb : Config.Backend) (k : Kind) (m : List Byte) : Engine :=
  { valid := true, kind := k, buffer := cells 168 (m.drop (blockSize k * (m.length / blockSize k))),
    bytesInBuffer := BitVec.ofNat 8 (m.length % blockSize k), total := BitVec.ofNat 64 m.length,
    state := blocksState cb k m, phase := .absorb, cursor := 0#8 }

/-- `n` permutations of a sponge state. -/
def permuted (cb : Config.Backend) : Nat → Vector Byte 200 → Vector Byte 200
  | 0, s => s
  | n + 1, s => cb.keccakF (permuted cb n s)

/-- Byte `i` of the output sequence of a sponge state, `S_(i / bs)[i mod bs]` (42_sponge.md R123). -/
def streamByte (cb : Config.Backend) (bs : Nat) (s : Vector Byte 200) (i : Nat) : Byte :=
  cell (permuted cb (i / bs) s) (i % bs)

/-- The pad DE.DIGEST appends to a message of `T` bytes, with the suffix `0x06` for a sponge kind
(40_digest_engine.md R88, 42_sponge.md R115); no byte where it faults instead. -/
def padBytes (k : Kind) (T : Nat) : List Byte :=
  if isSponge k then spongePad T (blockSize k) 0x06#8
  else match mdPad T (blockSize k) with
    | .ok pad => pad
    | .error _ => []

/-- Output byte `i` of a digest: the bits `8 * (wb - 1 - (i mod wb)) + 7` down to `8 * (wb - 1 - (i mod wb))` of
`H[i / wb]`, with 4 bytes to a word or 8 to a limb (41_merkle_damgard.md R103); `S[i]` of a sponge state
(42_sponge.md R116). -/
def digestByte : DState → Nat → Byte
  | .words5 h, i => (cell h (i / 4)).extractLsb' (8 * (3 - i % 4)) 8
  | .words8 h, i => (cell h (i / 4)).extractLsb' (8 * (3 - i % 4)) 8
  | .limbs8 h, i => (cell h (i / 8)).extractLsb' (8 * (7 - i % 8)) 8
  | .bytes s, i => cell s i

/-- The digest of a message: the first `digestLength` output bytes of the state after the blocks of the padded
message (41_merkle_damgard.md R100, 42_sponge.md R116; the rate of a fixed-output sponge kind holds them all). -/
def digestOf (cb : Config.Backend) (k : Kind) (m : List Byte) : List Byte :=
  (List.range ((digestLength k).getD 0)).map (digestByte (blocksState cb k (m ++ padBytes k m.length)))

/-- `S_0`, the sponge state after absorbing the message and its `0x1f` pad (42_sponge.md R123). -/
def xofStart (cb : Config.Backend) (k : Kind) (m : List Byte) : Vector Byte 200 :=
  spongeState (blocksState cb k (m ++ spongePad m.length (blockSize k) 0x1f#8))

/-- The bytes `c` to `c + n - 1` of the output sequence `Z(m)` (42_sponge.md R123). -/
def xofBytes (cb : Config.Backend) (k : Kind) (m : List Byte) (c n : Nat) : List Byte :=
  (List.range n).map fun i => streamByte cb (blockSize k) (xofStart cb k m) (c + i)

/-- The engine of kind `k` that has absorbed `m` and delivered `c >= 1` bytes (42_sponge.md R123(c)). -/
def squeezedEngine (cb : Config.Backend) (k : Kind) (m : List Byte) (c : Nat) : Engine :=
  { valid := true, kind := k, buffer := Vector.replicate 168 0#8, bytesInBuffer := 0#8,
    total := BitVec.ofNat 64 (m.length + (blockSize k - m.length % blockSize k)),
    state := .bytes (permuted cb ((c - 1) / blockSize k) (xofStart cb k m)), phase := .squeeze,
    cursor := BitVec.ofNat 8 ((c - 1) % blockSize k + 1) }

/-- A word of a twist: `m ^ (y >> 1) ^ (A if y is odd)` with `y` the bits `UPPER` of `a` and `LOWER` of `b`
(43_mersenne_twister.md R139). -/
def twistWord {W : Nat} (A UPPER LOWER m a b : BitVec W) : BitVec W :=
  let y := (a &&& UPPER) ||| (b &&& LOWER)
  m ^^^ (y >>> 1) ^^^ (if y.getLsbD 0 then A else 0#W)

/-- `new` is the array after a twist of `old`, in terms of `old` and of the words already rewritten
(43_mersenne_twister.md R139). -/
def IsTwistOf {W : Nat} (N M : Nat) (A UPPER LOWER : BitVec W) (old new : Nat → BitVec W) : Prop :=
  let word := twistWord A UPPER LOWER
  (∀ i, i < N - M → new i = word (old (i + M)) (old i) (old (i + 1))) ∧
  (∀ i, N - M ≤ i → i < N - 1 → new i = word (new (i + M - N)) (old i) (old (i + 1))) ∧
  new (N - 1) = word (new (M - 1)) (old (N - 1)) (new 0)

/-- `Y` is the array `X` after one step of a mixing pass: word `i` becomes `x`, and so does word 0 when `i`
is the last index (`X[0] <- X[N-1]` of 43_mersenne_twister.md R135). -/
def IsMixStep {W : Nat} (N i : Nat) (x : BitVec W) (X Y : Nat → BitVec W) : Prop :=
  ∀ n, n < N → Y n = if n = i ∨ (n = 0 ∧ i = N - 1) then x else X n

/-- `X` is what the two mixing passes of `SeedArray` make of the array seeded with `s0`, before `X[0]` is
forced (43_mersenne_twister.md R135). `P t` is the array after `t` steps of the first pass, `Q t` after `t`
of the second. Index `i` runs through `1 .. N-1` over and over, through both passes; `j` runs through the
key over and over. -/
def IsArraySeed {W : Nat} (N sh : Nat) (s0 f1 f2 f3 : BitVec W) (key : List (BitVec W)) (X : Nat → BitVec W) : Prop :=
  let f := fun (x : BitVec W) => x ^^^ (x >>> sh)
  let len := max N key.length
  ∃ P Q : Nat → Nat → BitVec W,
    P 0 0 = s0 ∧
    (∀ n, 1 ≤ n → n < N → P 0 n = f1 * f (P 0 (n - 1)) + BitVec.ofNat W n) ∧
    (∀ t, t < len →
      let i := t % (N - 1) + 1
      let j := t % key.length
      IsMixStep N i (((P t i ^^^ (f (P t (i - 1)) * f2)) + key.getD j 0#W) + BitVec.ofNat W j) (P t) (P (t + 1))) ∧
    (∀ n, n < N → Q 0 n = P len n) ∧
    (∀ t, t < N - 1 →
      let i := (len + t) % (N - 1) + 1
      IsMixStep N i ((Q t i ^^^ (f (Q t (i - 1)) * f3)) - BitVec.ofNat W i) (Q t) (Q (t + 1))) ∧
    ∀ n, n < N → X n = Q (N - 1) n

/-- RES read as a number, signed or unsigned (30_encoding.md R65). -/
def resValue (signed : Bool) (r : Word64) : Int := if signed then r.toInt else r.toNat

end Sys2Proof.Machine
end

