-- ==== Sys2Proof/Certificates/Slice0/Obligations.lean ====
section
/-! DEFINITION. The statements for the provers, in the order of OBLIGATIONS.json: encoding, steps and
faults, reset, Digest Engine, sponge and XOF, Mersenne Twister, Ranged Sampler, the machine as a whole. -/

open Sys2Proof Sys2Proof.Machine Sys2Proof.Config

/-! Encoding. -/

/-- 30_encoding.md R60 to R65: the decoder undoes the encoder on every well-formed command. -/
def Obligations.DecodeInvertsEncode : Prop :=
  ∀ i : Instr, i.wf = true → decode (encode i) = .ok i

/-- 30_encoding.md R60 to R65: what decodes is well formed, and encodes again to its header and payload. -/
def Obligations.DecodedCommandsReencode : Prop :=
  ∀ (c : Command) (i : Instr), decode c = .ok i →
    i.wf = true ∧ (encode i).hdr = c.hdr ∧ (encode i).payload = c.payload

/-- 20_memory.md R42, 30_encoding.md R61: unused argument words are ignored. -/
def Obligations.UnusedArgumentWordsAreIgnored : Prop :=
  ∀ (c : Command) (i : Instr) (a0 a1 : Word64), decode c = .ok i →
    match i with
    | .deNew _ => decode { c with arg0 := a0, arg1 := a1 } = .ok i
    | .deUpdate _ => decode { c with arg1 := a1 } = .ok i
    | .deDigest _ => decode { c with arg1 := a1 } = .ok i
    | .deReset => decode { c with arg0 := a0, arg1 := a1 } = .ok i
    | .xofNew _ => decode { c with arg0 := a0, arg1 := a1 } = .ok i
    | .xofDigest _ => decode { c with arg1 := a1 } = .ok i
    | .xofRead _ => decode { c with arg1 := a1 } = .ok i
    | .mtSeedR _ => decode { c with arg0 := a0, arg1 := a1 } = .ok i
    | .mtSeed _ _ => decode { c with arg1 := a1 } = .ok i
    | .mtSeedA _ _ => decode { c with arg1 := a1 } = .ok i
    | .mtNext _ => decode { c with arg0 := a0, arg1 := a1 } = .ok i
    | .mtNextW _ => decode { c with arg0 := a0, arg1 := a1 } = .ok i
    | .mtBit _ => decode { c with arg0 := a0, arg1 := a1 } = .ok i
    | .mtDouble _ _ => decode { c with arg0 := a0, arg1 := a1 } = .ok i
    | .mtGetState _ => decode { c with arg0 := a0, arg1 := a1 } = .ok i
    | .mtSetState _ _ => decode { c with arg1 := a1 } = .ok i
    | .rsInt _ _ _ _ x y => x = c.arg0 ∧ y = c.arg1
    | .rsFloat _ _ x y => x = c.arg0 ∧ y = c.arg1

/-- 30_encoding.md R68: a header fits at most one row, and it is illegal exactly when it fits no row
with `sel` in its legal range. -/
def Obligations.HeaderFitsOneRowOrIsIllegal : Prop :=
  ∀ c : Command,
    (∀ r ∈ opcodeTable, ∀ r' ∈ opcodeTable, r.fits c.hdr = true → r'.fits c.hdr = true → r = r') ∧
    ((∃ e, decode c = .error e ∧ e.isIllegalHeader = true) ↔
      ¬ ∃ r ∈ opcodeTable, r.fits c.hdr = true ∧ (r.op = .deNew → (selField c.hdr).toNat ≤ 8) ∧
        (r.op = .xofNew → (selField c.hdr).toNat ≤ 1))

/-- 30_encoding.md R66: which headers are illegal, field by field; an illegal header raises
ILLEGAL_COMMAND and takes no payload. What else a fault leaves is the model's reading (log entry 8); the
host's list, the word on ENT and the count of bytes taken are its bookkeeping (log entries 1, 3, 17). -/
def Obligations.IllegalHeadersFault : Prop :=
  ∀ c : Command,
    let op := opField c.hdr
    let sel := selField c.hdr
    let flags := c.hdr.extractLsb' 8 8
    ((∃ e, decode c = .error e ∧ e.isIllegalHeader = true) ↔
      op ∉ [0x10#8, 0x11#8, 0x12#8, 0x13#8, 0x20#8, 0x21#8, 0x22#8, 0x30#8, 0x31#8, 0x32#8, 0x33#8, 0x34#8,
        0x35#8, 0x36#8, 0x37#8, 0x38#8, 0x40#8, 0x41#8] ∨
      c.hdr.extractLsb' 0 8 ≠ 0#8 ∨
      (op = 0x10#8 ∧ 9 ≤ sel.toNat) ∨
      (op = 0x20#8 ∧ 2 ≤ sel.toNat) ∨
      (op ∈ [0x11#8, 0x12#8, 0x13#8, 0x21#8, 0x22#8] ∧ sel ≠ 0#8) ∨
      (0x30#8 ≤ op ∧ sel &&& 0xFE#8 ≠ 0#8) ∨
      (op = 0x40#8 ∧ flags &&& 0xF0#8 ≠ 0#8) ∨
      (op ∈ [0x36#8, 0x41#8] ∧ flags &&& 0xFE#8 ≠ 0#8) ∨
      (op ∉ [0x36#8, 0x40#8, 0x41#8] ∧ flags ≠ 0#8)) ∧
    ∀ (s : State) (ent : Word64) (rest : List Input), s.inputs = .command c ent :: rest → s.fault = false →
      (∃ e, decode c = .error e ∧ e.isIllegalHeader = true) →
      RaisesFault (step s) { s with inputs := rest, ent := ent, dinTaken := 0 } .illegalCommand

/-- 30_encoding.md R71: worked encodings. -/
def Obligations.WorkedEncodingsDecode : Prop :=
  decode ⟨0x10020000#32, 0, 0, []⟩ = .ok (.deNew .sha256) ∧
  decode ⟨0x10080000#32, 7, 9, []⟩ = .ok (.deNew .sha3x512) ∧
  decode ⟨0x11000000#32, 3, 0, [0x61, 0x62, 0x63]⟩ = .ok (.deUpdate [0x61, 0x62, 0x63]) ∧
  decode ⟨0x12000000#32, 0, 0, []⟩ = .ok (.deDigest []) ∧
  decode ⟨0x20010000#32, 0, 0, []⟩ = .ok (.xofNew .l256) ∧
  decode ⟨0x22000000#32, 10, 0, []⟩ = .ok (.xofRead 10) ∧
  decode ⟨0x31000000#32, 0x1571, 0, []⟩ = .ok (.mtSeed .mt32 0x1571) ∧
  decode ⟨0x31010000#32, 0x1571, 0, []⟩ = .ok (.mtSeed .mt64 0x1571) ∧
  decode ⟨0x32000000#32, 2, 0, [0x23, 0x01, 0, 0, 0x34, 0x02, 0, 0]⟩ = .ok (.mtSeedA .mt32 [0x123, 0x234]) ∧
  decode ⟨0x36010100#32, 0, 0, []⟩ = .ok (.mtDouble .mt64 true) ∧
  decode ⟨0x40010D00#32, 1, 6, []⟩ = .ok (.rsInt .mt64 true false .w64 1 6) ∧
  decode ⟨0x40000300#32, 0x80, 0x7F, []⟩ = .ok (.rsInt .mt32 true true .w8 0x80 0x7F) ∧
  decode ⟨0x41010000#32, 0x3FF0000000000000, 0x4008000000000000, []⟩ =
    .ok (.rsFloat .mt64 false 0x3FF0000000000000 0x4008000000000000) ∧
  decode ⟨0x14000000#32, 0, 0, []⟩ = .error .reservedOpcode ∧
  decode ⟨0x10090000#32, 0, 0, []⟩ = .error .selOutOfRange ∧
  decode ⟨0x13000001#32, 0, 0, []⟩ = .error .reservedBits

/-! Steps, faults and reset. -/

/-- 20_memory.md R42, R46: a step of an unfaulted unit takes the oldest command with its whole payload
and runs the command it decodes to; withFetchWord puts a command there; with nothing sent, nothing changes. The list of inputs and the count of
bytes taken are the model's (log entries 1, 2, 17). -/
def Obligations.StepRunsTheDecodedCommand : Prop :=
  ∀ s : State,
    (∀ (c : Command) (ent : Word64) (rest : List Input) (i : Instr), s.inputs = .command c ent :: rest →
      s.fault = false → decode c = .ok i →
      step s = exec i { s with inputs := rest, ent := ent, dinTaken := c.payload.length }) ∧
    (∀ (nbits w : Nat) (i : Instr), s.fault = false → decodeTableWord nbits w = some i →
      step (s.withFetchWord nbits w) = exec i { s with dinTaken := (commandOfBits nbits w).payload.length }) ∧
    (s.inputs = [] → step s = .next s)

/-- 20_memory.md R42: the payload length is fixed by the command and `arg0`. -/
def Obligations.PayloadLengthIsAnnounced : Prop :=
  ∀ (c : Command) (i : Instr), decode c = .ok i →
    c.payload.length =
      match i with
      | .deUpdate _ => c.arg0.toNat
      | .deDigest _ => c.arg0.toNat
      | .mtSetState _ _ => c.arg0.toNat
      | .mtSeedA .mt32 _ => c.arg0.toNat * 4
      | .mtSeedA .mt64 _ => c.arg0.toNat * 8
      | .deNew _ | .deReset | .xofNew _ | .xofDigest _ | .xofRead _ | .mtSeedR _ | .mtSeed _ _ | .mtNext _
      | .mtNextW _ | .mtBit _ | .mtDouble _ _ | .mtGetState _ | .rsInt _ _ _ _ _ _ | .rsFloat _ _ _ _ => 0

/-- The model's choice (log entry 10, 93_implementation_defined.md U20): a payload that is not the announced
one, under a legal header, on an unfaulted unit, stops the machine, and nothing else does. -/
def Obligations.OnlyAMismatchedPayloadStops : Prop :=
  ∀ s : State,
    let mismatched := s.fault = false ∧ ∃ c ent rest, s.inputs = .command c ent :: rest ∧
      (¬ ∃ e, decode c = .error e ∧ e.isIllegalHeader = true) ∧ c.payload.length ≠ announcedLength c
    ((¬ ∃ t, step s = .next t) ↔ mismatched) ∧ (mismatched → step s = .fault .portsOutOfStep)

/-- 60_exceptions.md R209: an unfaulted unit answers every command, with a legal header or an illegal one, in
one of two ways: `ok` with a response, or a fault with a cause and no response. What the response is, the
statements about each command say. What stands in the registers after a fault is `regsAfterFault`, counted by
`residues` (log entry 8). -/
def Obligations.CommandsCompleteOrFault : Prop :=
  (∀ (i : Instr) (s : State), s.fault = false →
    (∃ (regs : Regs) (dout : List Byte) (res : Option Word64),
      exec i s = .next { s with regs := regs, reply := some (.ok dout res) }) ∨
    (∃ cause : Cause, cause ≠ .none ∧
      exec i s = .next { s with regs := s.regsAfterFault, fault := true, cause := cause,
                                reply := some (.fault cause), residues := s.residues + 1 })) ∧
  (∀ (s : State) (c : Command) (ent : Word64) (rest : List Input), s.inputs = .command c ent :: rest →
    s.fault = false → decode c ≠ .error .payloadLength →
    ∃ t, step s = .next t ∧
      ((∃ dout res, t.reply = some (.ok dout res) ∧ t.fault = false ∧ t.cause = s.cause) ∨
       (∃ cause, cause ≠ .none ∧ t.reply = some (.fault cause) ∧ t.fault = true ∧ t.cause = cause)))

/-- 60_exceptions.md R191: the causes a command can raise. -/
def Obligations.CausesRaisedByEachCommand : Prop :=
  ∀ (i : Instr) (s t : State), i.wf = true → s.fault = false → exec i s = .next t → t.fault = true →
    t.cause ∈
      (match i with
      | .deNew _ => []
      | .deUpdate _ => [.noEngine, .badPhase, .lenOverflow]
      | .deDigest _ => [.noEngine, .badKind, .badPhase, .lenOverflow]
      | .deReset => [.noEngine]
      | .xofNew _ => []
      | .xofDigest _ => [.noEngine, .badKind, .badPhase, .lenOverflow]
      | .xofRead _ => [.noEngine, .badKind, .lenOverflow]
      | .mtSeedR _ => []
      | .mtSeed _ _ => []
      | .mtSeedA _ _ => [.badOperand]
      | .mtNext _ => [.mtUnseeded]
      | .mtNextW _ => [.mtUnseeded]
      | .mtBit _ => [.mtUnseeded]
      | .mtDouble _ _ => [.mtUnseeded]
      | .mtGetState _ => [.mtUnseeded]
      | .mtSetState _ _ => []
      | .rsInt _ _ _ _ _ _ => [.badRange, .mtUnseeded]
      | .rsFloat _ _ _ _ => [.badRange, .mtUnseeded] : List Cause)

/-- 60_exceptions.md R193: while FAULT = 1 every command is refused, takes no payload and changes no
register; only hardware reset clears FAULT. That the command leaves the host's list, and its ENT word shows
on the port, is the model's bookkeeping (log entries 1, 3, 17). -/
def Obligations.FaultedUnitRefusesEverything : Prop :=
  ∀ s : State, s.fault = true →
    (∀ i : Instr, exec i s = .next { s with reply := some (.refused s.cause) }) ∧
    (∀ (c : Command) (ent : Word64) (rest : List Input), s.inputs = .command c ent :: rest →
      step s = .next { s with inputs := rest, ent := ent, dinTaken := 0, reply := some (.refused s.cause) }) ∧
    (∀ t : State, step s = .next t → t.fault = false → ∃ rest, s.inputs = .rst :: rest)

/-- 10_state.md R26: FAULT once set stays, with the first cause and every register, until an RST. -/
def Obligations.FaultEndsOnlyByReset : Prop :=
  ∀ s t : State, s.fault = true → step s = .next t →
    (t.fault = true ∧ t.cause = s.cause ∧ t.regs = s.regs) ∨
    (t.fault = false ∧ t.cause = .none ∧ ∃ rest, s.inputs = .rst :: rest)

/-- 10_state.md R29, under the model's named residue (log entry 8): a faulting command writes only FAULT
and CAUSE among the registers. -/
def Obligations.FaultingCommandsKeepRegisters : Prop :=
  ∀ (i : Instr) (s t : State), s.params.residue = .named → exec i s = .next t → t.fault = true →
    t.regs = s.regs

/-- 70_reset_and_hazards.md R210: RST clears FAULT and CAUSE, and leaves no engine and unseeded cores,
from any state. STATUS is 0 but for bit 6, which is unspecified. What the host still sends stays (log entry 1). -/
def Obligations.HardwareResetFromAnyState : Prop :=
  ∀ (s : State) (rest : List Input), s.inputs = .rst :: rest →
    ∃ t, step s = .next t ∧ t.fault = false ∧ t.cause = .none ∧ t.regs.de.valid = false ∧
      t.regs.mt32.seeded = false ∧ t.regs.mt64.seeded = false ∧ t.status &&& 0b110111111#9 = 0#9 ∧ t.inputs = rest

/-- 70_reset_and_hazards.md R210: the registers whose value the spec gives, in the state after reset. That
nothing is sent yet, so that a step changes nothing, is the model's choice (log entry 1). -/
def Obligations.ResetStateIsAsTheSpecSays : Prop :=
  State.reset.fault = false ∧ State.reset.cause = .none ∧ State.reset.regs.de.valid = false ∧
  State.reset.regs.mt32.seeded = false ∧ State.reset.regs.mt64.seeded = false ∧
  State.reset.status &&& 0b110111111#9 = 0#9 ∧ step State.reset = .next State.reset

/-- 10_state.md R27: the STATUS view, bit by bit, with the codes of 60_exceptions.md R191. -/
def Obligations.StatusShowsFaultCauseAndGuards : Prop :=
  ∀ s : State,
    s.status.getLsbD 0 = s.fault ∧
    (s.status.extractLsb' 1 4).toNat =
      (match s.cause with
      | .none => 0
      | .illegalCommand => 1
      | .noEngine => 2
      | .badKind => 3
      | .badPhase => 4
      | .lenOverflow => 5
      | .mtUnseeded => 6
      | .badOperand => 7
      | .badRange => 8) ∧
    s.status.getLsbD 5 = s.regs.de.valid ∧
    s.status.getLsbD 6 = (s.regs.de.phase == .squeeze) ∧
    s.status.getLsbD 7 = s.regs.mt32.seeded ∧
    s.status.getLsbD 8 = s.regs.mt64.seeded

/-- 60_exceptions.md R199, R192, the columns of the Digest Engine and the XOF: the first test that fails is the
cause, which CAUSE and the response show with `FAULT = 1`. The other registers are log entry 8. -/
def Obligations.EngineChecksComeInOrder : Prop :=
  ∀ (s : State) (data : List Byte) (n : Word64), s.fault = false →
    let e := s.regs.de
    let bs := blockSize e.kind
    let T := e.total.toNat + data.length
    let pad := bs - e.total.toNat % bs
    let xof := e.kind = .sha3x256 ∨ e.kind = .k128
    (e.valid = false →
      RaisesFault (exec (.deUpdate data) s) s .noEngine ∧ RaisesFault (exec (.deDigest data) s) s .noEngine ∧
      RaisesFault (exec .deReset s) s .noEngine ∧ RaisesFault (exec (.xofDigest n) s) s .noEngine ∧
      RaisesFault (exec (.xofRead n) s) s .noEngine) ∧
    (e.valid = true → e.kind = .k128 → RaisesFault (exec (.deDigest data) s) s .badKind) ∧
    (e.valid = true → ¬ xof →
      RaisesFault (exec (.xofDigest n) s) s .badKind ∧ RaisesFault (exec (.xofRead n) s) s .badKind) ∧
    (e.valid = true → e.phase = .squeeze → RaisesFault (exec (.deUpdate data) s) s .badPhase) ∧
    (e.valid = true → e.phase = .squeeze → e.kind ≠ .k128 →
      RaisesFault (exec (.deDigest data) s) s .badPhase) ∧
    (e.valid = true → e.phase = .squeeze → xof → n ≠ 0 →
      RaisesFault (exec (.xofDigest n) s) s .badPhase) ∧
    (e.valid = true → e.phase = .absorb → 2 ^ 64 - 1 < T →
      RaisesFault (exec (.deUpdate data) s) s .lenOverflow) ∧
    (e.valid = true → e.phase = .absorb → e.kind ≠ .k128 → 2 ^ 64 - 1 < T →
      RaisesFault (exec (.deDigest data) s) s .lenOverflow) ∧
    (e.valid = true → e.phase = .absorb → isSponge e.kind = false → 2 ^ 61 ≤ T →
      RaisesFault (exec (.deDigest data) s) s .lenOverflow) ∧
    (e.valid = true → e.phase = .absorb → isSponge e.kind = true → e.kind ≠ .k128 → 2 ^ 64 - 1 < T + (bs - T % bs) →
      RaisesFault (exec (.deDigest data) s) s .lenOverflow) ∧
    (e.valid = true → e.phase = .absorb → xof → n ≠ 0 → 2 ^ 64 - 1 < e.total.toNat + pad →
      RaisesFault (exec (.xofDigest n) s) s .lenOverflow ∧ RaisesFault (exec (.xofRead n) s) s .lenOverflow)

/-- 60_exceptions.md R199, R192, the columns of the generator and the sampler (R195, R198): the first test that
fails is the cause, which CAUSE and the response show with `FAULT = 1`; the other registers are log entry 8. The
range of a sampler command is judged first, an equal range needs no seeded core. -/
def Obligations.GeneratorChecksComeInOrder : Prop :=
  ∀ (s : State) (v : Variant) (closed signed : Bool) (wc : WidthCode) (x y : Word64), s.fault = false →
    isSeeded v s.regs = (match v with
      | .mt32 => s.regs.mt32.seeded
      | .mt64 => s.regs.mt64.seeded) ∧
    RaisesFault (exec (.mtSeedA v []) s) s .badOperand ∧
    (isSeeded v s.regs = false →
      RaisesFault (exec (.mtNext v) s) s .mtUnseeded ∧ RaisesFault (exec (.mtNextW v) s) s .mtUnseeded ∧
      RaisesFault (exec (.mtBit v) s) s .mtUnseeded ∧
      RaisesFault (exec (.mtDouble v closed) s) s .mtUnseeded ∧
      RaisesFault (exec (.mtGetState v) s) s .mtUnseeded) ∧
    (boundOperand signed wc y < boundOperand signed wc x →
      RaisesFault (exec (.rsInt v closed signed wc x y) s) s .badRange) ∧
    (isSeeded v s.regs = false → boundOperand signed wc x < boundOperand signed wc y →
      RaisesFault (exec (.rsInt v closed signed wc x y) s) s .mtUnseeded) ∧
    ((fpIsNaN x = true ∨ fpIsNaN y = true ∨ fpIsInf x = true ∨ fpIsInf y = true ∨ fpValue y < fpValue x ∨
        fpIsInf (fpSub y x) = true) →
      RaisesFault (exec (.rsFloat v closed x y) s) s .badRange) ∧
    (isSeeded v s.regs = false → fpIsNaN x = false → fpIsNaN y = false → fpIsInf x = false → fpIsInf y = false →
      fpValue x < fpValue y → fpIsInf (fpSub y x) = false →
      RaisesFault (exec (.rsFloat v closed x y) s) s .mtUnseeded)

/-- 10_state.md R19, R24, R26: the invariants hold after reset. -/
def Obligations.InvariantHoldsAtReset : Prop := State.reset.Inv

/-- 10_state.md R19, R24, R26: every step keeps the invariants of the engine, the cores and the fault
registers. -/
def Obligations.EveryStepKeepsTheInvariant : Prop :=
  ∀ s t : State, s.Inv → step s = .next t → t.Inv

/-! The Digest Engine. -/

/-- 40_digest_engine.md R85, R86, R89, 42_sponge.md R118: DE.NEW, XOF.NEW and DE.RESET put the engine in
the initial state of its kind, and change nothing else. The kind table is 10_state.md R10; the initial state of
a sponge kind is 200 zero bytes (42_sponge.md R110, 46_backends.md R181). -/
def Obligations.NewAndResetInitialiseTheEngine : Prop :=
  (∀ k : Kind, (blockSize k, digestLength k, isSponge k) =
    match k with
    | .sha1 => (64, some 20, false)
    | .sha224 => (64, some 28, false)
    | .sha256 => (64, some 32, false)
    | .sha384 => (128, some 48, false)
    | .sha512 => (128, some 64, false)
    | .sha3x224 => (144, some 28, true)
    | .sha3x256 => (136, some 32, true)
    | .sha3x384 => (104, some 48, true)
    | .sha3x512 => (72, some 64, true)
    | .k128 => (168, none, true)) ∧
  ∀ s : State, s.fault = false →
    let cb := backendOf s.params.backend
    let start := fun (k : Kind) =>
      (match k with
      | .sha1 => .words5 cb.reset5
      | .sha224 | .sha256 => .words8 (cb.reset8 k)
      | .sha384 | .sha512 => .limbs8 (cb.resetLimbs k)
      | .sha3x224 | .sha3x256 | .sha3x384 | .sha3x512 | .k128 => .bytes (Vector.replicate 200 0#8) : DState)
    let initial := fun (k : Kind) =>
      ({ valid := true, kind := k, buffer := Vector.replicate 168 0#8, bytesInBuffer := 0#8, total := 0#64,
         state := start k, phase := .absorb, cursor := 0#8 } : Engine)
    (∀ k, resetState cb k = start k ∧ initEngine cb k = initial k) ∧
    (∀ k, k ≠ .k128 → exec (.deNew k) s =
      .next { s with regs := { s.regs with de := initial k }, reply := some (.ok [] none) }) ∧
    exec (.xofNew .l128) s =
      .next { s with regs := { s.regs with de := initial .k128 }, reply := some (.ok [] none) } ∧
    exec (.xofNew .l256) s =
      .next { s with regs := { s.regs with de := initial .sha3x256 }, reply := some (.ok [] none) } ∧
    (s.regs.de.valid = true → exec .deReset s =
      .next { s with regs := { s.regs with de := initial s.regs.de.kind }, reply := some (.ok [] none) })

/-- 40_digest_engine.md R82, R87: DE.UPDATE completes in ABSORB unless the counter would pass 2^64 - 1;
it counts every byte, keeps kind, phase and cursor, and writes nothing outside the engine. -/
def Obligations.UpdateCompletes : Prop :=
  ∀ (s : State) (data : List Byte), s.fault = false → s.regs.de.valid = true → s.regs.de.phase = .absorb →
    s.regs.de.total.toNat + data.length ≤ 2 ^ 64 - 1 →
    ∃ e : Engine,
      exec (.deUpdate data) s = .next { s with regs := { s.regs with de := e }, reply := some (.ok [] none) } ∧
      e.valid = true ∧ e.kind = s.regs.de.kind ∧ e.phase = .absorb ∧ e.cursor = s.regs.de.cursor ∧
      e.total.toNat = s.regs.de.total.toNat + data.length ∧ (data = [] → e = s.regs.de) ∧
      (s.regs.de.Inv → e.bytesInBuffer.toNat = e.total.toNat % blockSize e.kind)

/-- 40_digest_engine.md R84(b), (c): an engine that holds a message, and absorbs more bytes, holds the
longer message; the initial engine holds the empty one. -/
def Obligations.UpdateExtendsTheMessage : Prop :=
  ∀ (s : State) (k : Kind) (m data : List Byte), s.fault = false →
    let cb := backendOf s.params.backend
    s.regs.de = messageEngine cb k m → m.length + data.length ≤ 2 ^ 64 - 1 →
    messageEngine cb k [] = initEngine cb k ∧
    exec (.deUpdate data) s =
      .next { s with regs := { s.regs with de := messageEngine cb k (m ++ data) }, reply := some (.ok [] none) }

/-- 20_memory.md R44, 40_digest_engine.md R84(a): the boundaries between updates have no effect. -/
def Obligations.UpdateChunkingDoesNotMatter : Prop :=
  ∀ (s : State) (a b : List Byte), s.fault = false → s.regs.de.valid = true → s.regs.de.phase = .absorb →
    s.regs.de.total.toNat + a.length + b.length ≤ 2 ^ 64 - 1 →
    ∃ t u, exec (.deUpdate a) s = .next t ∧ exec (.deUpdate b) t = .next u ∧ u.fault = false ∧
      exec (.deUpdate (a ++ b)) s = .next u

/-- 40_digest_engine.md R88: DE.DIGEST completes in ABSORB on every kind but K128, unless the length
overflows; it delivers `digestLength` bytes and leaves the engine initial, and nothing else changes. -/
def Obligations.DigestCompletes : Prop :=
  ∀ (s : State) (data : List Byte) (dl : Nat), s.fault = false → s.regs.de.valid = true →
    s.regs.de.phase = .absorb → digestLength s.regs.de.kind = some dl →
    let cb := backendOf s.params.backend
    let bs := blockSize s.regs.de.kind
    let T := s.regs.de.total.toNat + data.length
    (isSponge s.regs.de.kind = false → T < 2 ^ 61) →
    (isSponge s.regs.de.kind = true → T + (bs - T % bs) ≤ 2 ^ 64 - 1) →
    ∃ out : List Byte,
      exec (.deDigest data) s =
        .next { s with regs := { s.regs with de := initEngine cb s.regs.de.kind }, reply := some (.ok out none) } ∧
      (s.regs.de.Inv → out.length = dl)

/-- 41_merkle_damgard.md R100, R103, 42_sponge.md R111, R115, R116, 40_digest_engine.md R83, R88: the digest of
the bytes absorbed since the initial state, followed by the payload, is read byte by byte from the state after
the blocks of the padded message, each committed as `commitBlock` spells it out. -/
def Obligations.DigestIsTheFoldOverThePaddedMessage : Prop :=
  ∀ (s : State) (k : Kind) (m data : List Byte) (dl : Nat), s.fault = false →
    let cb := backendOf s.params.backend
    let T := m.length + data.length
    s.regs.de = messageEngine cb k m → digestLength k = some dl →
    (isSponge k = false → T < 2 ^ 61) →
    (isSponge k = true → T + (blockSize k - T % blockSize k) ≤ 2 ^ 64 - 1) →
    exec (.deDigest data) s =
      .next { s with regs := { s.regs with de := initEngine cb k }, reply := some (.ok (digestOf cb k (m ++ data)) none) }

/-- 40_digest_engine.md R88: after a digest, the same digest twice in a row gives the same output and
leaves the same state. -/
def Obligations.DigestTwiceGivesTheSameOutput : Prop :=
  ∀ (s t : State) (m : List Byte), s.fault = false → exec (.deDigest m) s = .next t → t.fault = false →
    ∃ u, exec (.deDigest m) t = .next u ∧ u.fault = false ∧ exec (.deDigest m) u = .next u

/-- 41_merkle_damgard.md R101, R102: the length pad is 0x80, zeros and the big-endian bit length; it ends
on a block boundary and takes one more block exactly when the cutoff is passed. -/
def Obligations.LengthPadEndsOnABlock : Prop :=
  ∀ T bs : Nat, bs = 64 ∨ bs = 128 →
    let cut := bs - bs / 8
    (2 ^ 61 ≤ T → mdPad T bs = .error .lenOverflow) ∧
    (T < 2 ^ 61 → ∃ z, z ≤ bs - 1 ∧
      mdPad T bs = .ok (0x80#8 :: List.replicate z 0#8 ++
        (List.range (bs / 8)).map fun j => BitVec.ofNat 8 (8 * T / 256 ^ (bs / 8 - 1 - j))) ∧
      (T + (1 + z + bs / 8)) % bs = 0 ∧
      (T + (1 + z + bs / 8)) / bs = T / bs + (if T % bs < cut then 1 else 2))

/-- 42_sponge.md R113, R114: the sponge pad is never empty, ends on the next block boundary, carries the
suffix in its first byte and the top bit in its last, and depends on `T mod bs` only. -/
def Obligations.SpongePadEndsOnTheNextBlock : Prop :=
  ∀ (T bs : Nat) (suffix : Byte), 0 < bs →
    let pad := spongePad T bs suffix
    let q := bs - T % bs
    pad.length = q ∧ 1 ≤ q ∧ q ≤ bs ∧ (T + q) % bs = 0 ∧ (T + q) / bs = T / bs + 1 ∧
    pad = spongePad (T % bs) bs suffix ∧
    (q = 1 → pad = [suffix ||| 0x80#8]) ∧
    (2 ≤ q → pad = suffix :: (List.replicate (q - 2) 0#8 ++ [0x80#8]))

/-! Sponge and XOF. -/

/-- 42_sponge.md R119, R120: the XOF commands complete on kinds 6 and 9, XOF.DIGEST in ABSORB, XOF.READ
in either phase, with exactly `n` bytes; XOF.DIGEST leaves the engine initial, XOF.READ in SQUEEZE. -/
def Obligations.XofCommandsComplete : Prop :=
  ∀ (s : State) (n : Word64), s.fault = false → s.regs.de.valid = true → n ≠ 0 →
    (s.regs.de.kind = .sha3x256 ∨ s.regs.de.kind = .k128) →
    let cb := backendOf s.params.backend
    let bs := blockSize s.regs.de.kind
    let room := s.regs.de.total.toNat + (bs - s.regs.de.total.toNat % bs) ≤ 2 ^ 64 - 1
    (s.regs.de.phase = .absorb → room →
      ∃ out : List Byte, out.length = n.toNat ∧
        exec (.xofDigest n) s =
          .next { s with regs := { s.regs with de := initEngine cb s.regs.de.kind }, reply := some (.ok out none) }) ∧
    ((s.regs.de.phase = .absorb → room) →
      ∃ (out : List Byte) (e : Engine), out.length = n.toNat ∧
        exec (.xofRead n) s = .next { s with regs := { s.regs with de := e }, reply := some (.ok out none) } ∧
        e.valid = true ∧ e.kind = s.regs.de.kind ∧ e.phase = .squeeze ∧
        (s.regs.de.phase = .squeeze → e.buffer = s.regs.de.buffer ∧ e.bytesInBuffer = s.regs.de.bytesInBuffer ∧
          e.total = s.regs.de.total))

/-- 42_sponge.md R121: a zero-length request returns the empty string and changes nothing in either
phase; the kind guard still applies, and raises BAD_KIND (60_exceptions.md R192; the other registers are log
entry 8). -/
def Obligations.ZeroLengthRequestsChangeNothing : Prop :=
  ∀ s : State, s.fault = false → s.regs.de.valid = true →
    ((s.regs.de.kind = .sha3x256 ∨ s.regs.de.kind = .k128) →
      exec (.xofDigest 0) s = .next { s with reply := some (.ok [] none) } ∧
      exec (.xofRead 0) s = .next { s with reply := some (.ok [] none) }) ∧
    (¬ (s.regs.de.kind = .sha3x256 ∨ s.regs.de.kind = .k128) →
      RaisesFault (exec (.xofDigest 0) s) s .badKind ∧ RaisesFault (exec (.xofRead 0) s) s .badKind)

/-- 42_sponge.md R119, R123(a): XOF.DIGEST n delivers the first `n` bytes of the output sequence. -/
def Obligations.XofDigestDeliversTheSequence : Prop :=
  ∀ (s : State) (k : Kind) (m : List Byte) (n : Word64), s.fault = false →
    let cb := backendOf s.params.backend
    (k = .sha3x256 ∨ k = .k128) → s.regs.de = messageEngine cb k m → n ≠ 0 →
    m.length + (blockSize k - m.length % blockSize k) ≤ 2 ^ 64 - 1 →
    exec (.xofDigest n) s =
      .next { s with regs := { s.regs with de := initEngine cb k }, reply := some (.ok (xofBytes cb k m 0 n.toNat) none) }

/-- 42_sponge.md R120, R123(b), (c): the first read delivers the first bytes of the output sequence, a
later one goes on where the reads before it ended; state and cursor are those of the bytes read so far. -/
def Obligations.XofReadsWalkTheSequence : Prop :=
  ∀ (s : State) (k : Kind) (m : List Byte) (n : Word64) (c : Nat), s.fault = false →
    let cb := backendOf s.params.backend
    (k = .sha3x256 ∨ k = .k128) → n ≠ 0 →
    m.length + (blockSize k - m.length % blockSize k) ≤ 2 ^ 64 - 1 →
    (s.regs.de = messageEngine cb k m → exec (.xofRead n) s =
      .next { s with regs := { s.regs with de := squeezedEngine cb k m n.toNat },
                     reply := some (.ok (xofBytes cb k m 0 n.toNat) none) }) ∧
    (1 ≤ c → s.regs.de = squeezedEngine cb k m c → exec (.xofRead n) s =
      .next { s with regs := { s.regs with de := squeezedEngine cb k m (c + n.toNat) },
                     reply := some (.ok (xofBytes cb k m c n.toNat) none) })

/-- 42_sponge.md R123(d): splitting a read changes no output byte and no register. -/
def Obligations.SplittingAReadChangesNothing : Prop :=
  ∀ (s t u : State) (a b : Word64), s.fault = false → a.toNat + b.toNat < 2 ^ 64 →
    exec (.xofRead a) s = .next t → t.fault = false → exec (.xofRead b) t = .next u → u.fault = false →
    ∃ x y : List Byte, t.reply = some (.ok x none) ∧ u.reply = some (.ok y none) ∧
      exec (.xofRead (a + b)) s = .next { u with reply := some (.ok (x ++ y) none) }

/-- 42_sponge.md R122, 40_digest_engine.md R90: the phase changes from ABSORB to SQUEEZE by XOF.READ
n > 0 only, and back by DE.NEW, XOF.NEW and DE.RESET only. -/
def Obligations.PhaseChangesOnlyAsTheTableShows : Prop :=
  ∀ (i : Instr) (s t : State), s.fault = false → exec i s = .next t → t.fault = false →
    t.regs.de.phase ≠ s.regs.de.phase →
    (s.regs.de.phase = .absorb ∧ ∃ n, n ≠ 0 ∧ i = .xofRead n) ∨
    (s.regs.de.phase = .squeeze ∧ ((∃ k, i = .deNew k) ∨ (∃ l, i = .xofNew l) ∨ i = .deReset))

/-! The Mersenne Twister cores. -/

/-- 43_mersenne_twister.md R133: scalar seeding writes every word by the recurrence, sets `w` to `N` and
`seeded`, and changes nothing else; MT.SEED takes the low `W` bits of `arg0`. -/
def Obligations.ScalarSeedFollowsTheRecurrence : Prop :=
  ∀ (s : State) (x : Word64), s.fault = false →
    (∃ c : MtCore 32 624,
      exec (.mtSeed .mt32 x) s = .next { s with regs := { s.regs with mt32 := c }, reply := some (.ok [] none) } ∧
      c.seeded = true ∧ c.w = 624#10 ∧ cell c.X 0 = x.extractLsb' 0 32 ∧
      ∀ i, 1 ≤ i → i ≤ 623 → cell c.X i =
        1812433253#32 * (cell c.X (i - 1) ^^^ (cell c.X (i - 1) >>> 30)) + BitVec.ofNat 32 i) ∧
    (∃ c : MtCore 64 312,
      exec (.mtSeed .mt64 x) s = .next { s with regs := { s.regs with mt64 := c }, reply := some (.ok [] none) } ∧
      c.seeded = true ∧ c.w = 312#10 ∧ cell c.X 0 = x ∧
      ∀ i, 1 ≤ i → i ≤ 311 → cell c.X i =
        6364136223846793005#64 * (cell c.X (i - 1) ^^^ (cell c.X (i - 1) >>> 62)) + BitVec.ofNat 64 i)

/-- 43_mersenne_twister.md R137: MT.SEEDR completes and leaves what MT.SEED with the entropy word leaves,
whatever that word is (log entry 3). -/
def Obligations.EntropySeedIsAScalarSeedOfTheDraw : Prop :=
  ∀ (s : State) (v : Variant), s.fault = false →
    ∃ regs : Regs,
      exec (.mtSeedR v) s = .next { s with regs := regs, reply := some (.ok [] none) } ∧
      exec (.mtSeed v s.ent) s = .next { s with regs := regs, reply := some (.ok [] none) } ∧
      isSeeded v regs = true

/-- 43_mersenne_twister.md R136, R135, R131: array seeding completes on a non-empty array; every word of `X` is
what the two mixing passes make of the seed array, with the constants of the variant, and `X[0]` is then forced
to the top bit; `w` is `N`, and nothing outside the core changes. -/
def Obligations.ArraySeedFollowsTheTwoPasses : Prop :=
  ∀ (s : State) (key : List Word64), s.fault = false → key ≠ [] →
    (∃ (c : MtCore 32 624) (X : Nat → Word32),
      exec (.mtSeedA .mt32 key) s = .next { s with regs := { s.regs with mt32 := c }, reply := some (.ok [] none) } ∧
      c.seeded = true ∧ c.w = 624#10 ∧
      IsArraySeed 624 30 19650218#32 1812433253#32 1664525#32 1566083941#32
        (key.map fun x => x.extractLsb' 0 32) X ∧
      ∀ n, n < 624 → cell c.X n = if n = 0 then 0x80000000#32 else X n) ∧
    (∃ (c : MtCore 64 312) (X : Nat → Word64),
      exec (.mtSeedA .mt64 key) s = .next { s with regs := { s.regs with mt64 := c }, reply := some (.ok [] none) } ∧
      c.seeded = true ∧ c.w = 312#10 ∧
      IsArraySeed 312 62 19650218#64 6364136223846793005#64 3935559000370003845#64 2862933555777941757#64 key X ∧
      ∀ n, n < 312 → cell c.X n = if n = 0 then 0x8000000000000000#64 else X n)

/-- 43_mersenne_twister.md R139: what each word of the array is after a twist, in terms of the old array
and of the words already rewritten; for the two cores with the numbers of R131. -/
def Obligations.TwistFollowsTheRecurrence : Prop :=
  (∀ {W N : Nat} (p : MtParams W N) (c : MtCore W N), 0 < p.M → p.M < N →
    IsTwistOf N p.M p.A p.UPPER p.LOWER (cell c.X) (cell (twist p c).X) ∧
    (twist p c).w = 0#10 ∧ (twist p c).seeded = c.seeded) ∧
  (∀ c : MtCore 32 624,
    IsTwistOf 624 397 0x9908B0DF#32 0x80000000#32 0x7FFFFFFF#32 (cell c.X) (cell (twist mt32Params c).X)) ∧
  (∀ c : MtCore 64 312,
    IsTwistOf 312 156 0xB5026F5AA96619E9#64 0xFFFFFFFF80000000#64 0x000000007FFFFFFF#64 (cell c.X)
      (cell (twist mt64Params c).X))

/-- 43_mersenne_twister.md R140: the tempering stages of both variants; tempering is linear over XOR and
a bijection. -/
def Obligations.TemperingIsALinearBijection : Prop :=
  (∀ y : Word32,
    let y1 := y ^^^ (y >>> 11)
    let y2 := y1 ^^^ ((y1 <<< 7) &&& 0x9D2C5680#32)
    let y3 := y2 ^^^ ((y2 <<< 15) &&& 0xEFC60000#32)
    temper mt32Params y = y3 ^^^ (y3 >>> 18)) ∧
  (∀ y : Word64,
    let y1 := y ^^^ ((y >>> 29) &&& 0x5555555555555555#64)
    let y2 := y1 ^^^ ((y1 <<< 17) &&& 0x71D67FFFEDA60000#64)
    let y3 := y2 ^^^ ((y2 <<< 37) &&& 0xFFF7EEE000000000#64)
    temper mt64Params y = y3 ^^^ (y3 >>> 43)) ∧
  (∀ a b : Word32, temper mt32Params (a ^^^ b) = temper mt32Params a ^^^ temper mt32Params b) ∧
  (∀ a b : Word64, temper mt64Params (a ^^^ b) = temper mt64Params a ^^^ temper mt64Params b) ∧
  temper mt32Params 0 = 0 ∧ temper mt64Params 0 = 0 ∧
  Function.Bijective (temper mt32Params) ∧ Function.Bijective (temper mt64Params)

/-- 43_mersenne_twister.md R142: MT.NEXTW on a seeded core delivers the tempered word at `w`,
zero-extended, and advances `w`; at `w = N` it twists first. Nothing outside the core changes. -/
def Obligations.NativeExtractionTwistsWhenExhausted : Prop :=
  ∀ s : State, s.fault = false →
    (s.regs.mt32.seeded = true →
      let c := if s.regs.mt32.w = 624#10 then twist mt32Params s.regs.mt32 else s.regs.mt32
      exec (.mtNextW .mt32) s =
        .next { s with regs := { s.regs with mt32 := { c with w := c.w + 1 } },
                       reply := some (.ok [] (some ((temper mt32Params (cell c.X c.w.toNat)).zeroExtend 64))) }) ∧
    (s.regs.mt64.seeded = true →
      let c := if s.regs.mt64.w = 312#10 then twist mt64Params s.regs.mt64 else s.regs.mt64
      exec (.mtNextW .mt64) s =
        .next { s with regs := { s.regs with mt64 := { c with w := c.w + 1 } },
                       reply := some (.ok [] (some (temper mt64Params (cell c.X c.w.toNat)))) })

/-- 43_mersenne_twister.md R143: MT.NEXT is one native word on MT64, two on MT32, composed as the open
parameter says. -/
def Obligations.NextComposesNativeWords : Prop :=
  ∀ s : State, s.fault = false →
    (s.regs.mt64.seeded = true →
      ∃ t, exec (.mtNextW .mt64) s = .next t ∧ t.fault = false ∧ exec (.mtNext .mt64) s = .next t) ∧
    (s.regs.mt32.seeded = true →
      ∃ (t u : State) (a b : Word64),
        exec (.mtNextW .mt32) s = .next t ∧ t.reply = some (.ok [] (some a)) ∧
        exec (.mtNextW .mt32) t = .next u ∧ u.reply = some (.ok [] (some b)) ∧
        exec (.mtNext .mt32) s = .next { u with reply := some (.ok [] (some
          (match s.params.mt32Compose with
          | .firstHigh => (a <<< 32) ||| b
          | .firstLow => (b <<< 32) ||| a))) })

/-- 43_mersenne_twister.md R145: MT.BIT consumes one native word and delivers its top bit, or its low bit
where the open parameter says so. -/
def Obligations.BitIsOneBitOfANativeWord : Prop :=
  ∀ (s : State) (v : Variant), s.fault = false → isSeeded v s.regs = true →
    ∃ (t : State) (y : Word64),
      exec (.mtNextW v) s = .next t ∧ t.reply = some (.ok [] (some y)) ∧
      exec (.mtBit v) s = .next { t with reply := some (.ok [] (some (BitVec.ofNat 64
        (match s.params.mtBit, v with
        | .top, .mt32 => y.toNat / 2 ^ 31
        | .top, .mt64 => y.toNat / 2 ^ 63
        | .low, .mt32 => y.toNat % 2
        | .low, .mt64 => y.toNat % 2)))) }

/-- 43_mersenne_twister.md R146, R147: MT.DOUBLE takes 53 bits of one native word of MT64, or 27 and 26
bits of two of MT32, and scales them once. -/
def Obligations.DoubleTakesFiftyThreeBits : Prop :=
  ∀ (s : State) (closed : Bool), s.fault = false →
    (s.regs.mt64.seeded = true →
      ∃ (t : State) (y : Word64),
        exec (.mtNextW .mt64) s = .next t ∧ t.reply = some (.ok [] (some y)) ∧
        exec (.mtDouble .mt64 closed) s =
          .next { t with reply := some (.ok [] (some (unitDouble closed (y.toNat / 2 ^ 11)))) }) ∧
    (s.regs.mt32.seeded = true →
      ∃ (t u : State) (a b : Word64),
        exec (.mtNextW .mt32) s = .next t ∧ t.reply = some (.ok [] (some a)) ∧
        exec (.mtNextW .mt32) t = .next u ∧ u.reply = some (.ok [] (some b)) ∧
        a.toNat / 2 ^ 5 * 2 ^ 26 + b.toNat / 2 ^ 6 < 2 ^ 53 ∧
        exec (.mtDouble .mt32 closed) s =
          .next { u with reply := some (.ok [] (some
            (unitDouble closed (a.toNat / 2 ^ 5 * 2 ^ 26 + b.toNat / 2 ^ 6)))) })

/-- 43_mersenne_twister.md R147: a half-open draw is exactly k / 2^53, so below 1 and 0 only for k = 0; a
closed draw is fl(k / (2^53 - 1)), one rounding of the quotient, at most 1, and 1 only for k = 2^53 - 1;
both grow with k and are finite and not negative. Values are counted in units of 2^-1074. -/
def Obligations.UnitDrawsStayInTheUnitInterval : Prop :=
  ∀ k k' : Nat, k < 2 ^ 53 → k' < 2 ^ 53 →
    fpUnits (unitDouble false k) * 2 ^ 53 = k * 2 ^ 1074 ∧
    (unitDouble true k).toNat = flUnits (k * 2 ^ 1074) (2 ^ 53 - 1) ∧
    fpUnits (unitDouble true k) ≤ 2 ^ 1074 ∧
    (fpUnits (unitDouble true k) = 2 ^ 1074 ↔ k = 2 ^ 53 - 1) ∧
    (k ≤ k' → ∀ closed, fpUnits (unitDouble closed k) ≤ fpUnits (unitDouble closed k')) ∧
    (∀ closed, fpSign (unitDouble closed k) = false ∧ fpIsNaN (unitDouble closed k) = false ∧
      fpIsInf (unitDouble closed k) = false)

/-- 43_mersenne_twister.md R148: MT.GETSTATE on a seeded core delivers the 2498-byte little-endian image
and changes no register. -/
def Obligations.StateImageIsLittleEndian : Prop :=
  ∀ s : State, s.fault = false →
    (s.regs.mt32.seeded = true → ∃ img : List Byte,
      exec (.mtGetState .mt32) s = .next { s with reply := some (.ok img none) } ∧ img.length = 2498 ∧
      img.getD 0 0 = BitVec.ofNat 8 s.regs.mt32.w.toNat ∧ img.getD 1 0 = BitVec.ofNat 8 (s.regs.mt32.w.toNat / 256) ∧
      ∀ i j, i < 624 → j < 4 → img.getD (2 + 4 * i + j) 0 = (cell s.regs.mt32.X i).extractLsb' (8 * j) 8) ∧
    (s.regs.mt64.seeded = true → ∃ img : List Byte,
      exec (.mtGetState .mt64) s = .next { s with reply := some (.ok img none) } ∧ img.length = 2498 ∧
      img.getD 0 0 = BitVec.ofNat 8 s.regs.mt64.w.toNat ∧ img.getD 1 0 = BitVec.ofNat 8 (s.regs.mt64.w.toNat / 256) ∧
      ∀ i j, i < 312 → j < 8 → img.getD (2 + 8 * i + j) 0 = (cell s.regs.mt64.X i).extractLsb' (8 * j) 8)

/-- 43_mersenne_twister.md R149, R150: MT.SETSTATE never faults; an image of the wrong length or with an
index above `N` changes no register, any other is imported word by word, on a seeded or unseeded core. RES
carries whether it was accepted only where the open parameter says so. -/
def Obligations.ImportAcceptsOrIgnores : Prop :=
  ∀ (s : State) (img : List Byte), s.fault = false →
    let w := (img.getD 0 0#8).toNat + 256 * (img.getD 1 0#8).toNat
    let told := fun (accepted : Bool) =>
      (match s.params.setStateReport with
      | .silent => none
      | .report => some (if accepted then 1#64 else 0#64) : Option Word64)
    ((img.length ≠ 2498 ∨ 624 < w) →
      exec (.mtSetState .mt32 img) s = .next { s with reply := some (.ok [] (told false)) }) ∧
    ((img.length ≠ 2498 ∨ 312 < w) →
      exec (.mtSetState .mt64 img) s = .next { s with reply := some (.ok [] (told false)) }) ∧
    (img.length = 2498 → w ≤ 624 → ∃ c : MtCore 32 624,
      exec (.mtSetState .mt32 img) s =
        .next { s with regs := { s.regs with mt32 := c }, reply := some (.ok [] (told true)) } ∧
      c.seeded = true ∧ c.w.toNat = w ∧
      ∀ i j, i < 624 → j < 4 → (cell c.X i).extractLsb' (8 * j) 8 = img.getD (2 + 4 * i + j) 0#8) ∧
    (img.length = 2498 → w ≤ 312 → ∃ c : MtCore 64 312,
      exec (.mtSetState .mt64 img) s =
        .next { s with regs := { s.regs with mt64 := c }, reply := some (.ok [] (told true)) } ∧
      c.seeded = true ∧ c.w.toNat = w ∧
      ∀ i j, i < 312 → j < 8 → (cell c.X i).extractLsb' (8 * j) 8 = img.getD (2 + 8 * i + j) 0#8)

/-- 43_mersenne_twister.md R151(b): an export followed by its import leaves every register as it was, so
every later draw is the same. -/
def Obligations.ExportThenImportRestoresTheCore : Prop :=
  ∀ (s : State) (v : Variant), s.Inv → s.fault = false → isSeeded v s.regs = true →
    ∃ (t u : State) (img : List Byte),
      exec (.mtGetState v) s = .next t ∧ t.reply = some (.ok img none) ∧ t.regs = s.regs ∧
      exec (.mtSetState v img) t = .next u ∧ u.fault = false ∧ u.regs = s.regs

/-! The Ranged Sampler. -/

/-- 44_ranged_sampler.md R162, R163: RS.INT on `lo < hi` and a seeded core consumes one MT.DOUBLE draw,
maps it by the formula, clamps it, and delivers a value of `[lo, hi]`; all 64 bits of RES read that value,
sign-extended or zero-extended (30_encoding.md R65). -/
def Obligations.IntegerSampleLiesInTheRange : Prop :=
  ∀ (s : State) (v : Variant) (closed signed : Bool) (wc : WidthCode) (a0 a1 : Word64), s.fault = false →
    isSeeded v s.regs = true →
    let lo := boundOperand signed wc a0
    let hi := boundOperand signed wc a1
    lo < hi →
    ∃ (t : State) (d : Word64) (x : Int),
      exec (.mtDouble v closed) s = .next t ∧ t.reply = some (.ok [] (some d)) ∧
      x = max lo (min hi (lo + fpRint (fpMul d (fpOfNat (hi - lo).toNat)))) ∧ lo ≤ x ∧ x ≤ hi ∧
      exec (.rsInt v closed signed wc a0 a1) s = .next { t with reply := some (.ok [] (some (narrow signed wc x))) } ∧
      resValue signed (narrow signed wc x) = x ∧ boundOperand signed wc (narrow signed wc x) = x

/-- 44_ranged_sampler.md R161, R163, R164: an equal range delivers the constant and changes no register, on
a seeded or an unseeded core; all 64 bits of RES read the constant, for RS.FLOAT they are those of `lo`. -/
def Obligations.EqualRangesConsumeNoDraw : Prop :=
  ∀ (s : State) (v : Variant) (closed signed : Bool) (wc : WidthCode) (a0 a1 : Word64), s.fault = false →
    (boundOperand signed wc a0 = boundOperand signed wc a1 → ∃ x : Word64,
      resValue signed x = boundOperand signed wc a0 ∧
      exec (.rsInt v closed signed wc a0 a1) s = .next { s with reply := some (.ok [] (some x)) }) ∧
    (fpIsNaN a0 = false → fpIsInf a0 = false → fpIsNaN a1 = false → fpIsInf a1 = false → fpValue a0 = fpValue a1 →
      exec (.rsFloat v closed a0 a1) s = .next { s with reply := some (.ok [] (some a0)) })

/-- 44_ranged_sampler.md R164: RS.FLOAT on a finite range `lo < hi` of finite span and a seeded core
consumes one MT.DOUBLE draw, maps it by two rounded operations, clamps it, and delivers a finite value of
`[lo, hi]`. -/
def Obligations.FloatSampleLiesInTheRange : Prop :=
  ∀ (s : State) (v : Variant) (closed : Bool) (lo hi : Word64), s.fault = false → isSeeded v s.regs = true →
    fpIsNaN lo = false → fpIsInf lo = false → fpIsNaN hi = false → fpIsInf hi = false → fpValue lo < fpValue hi →
    fpIsInf (fpSub hi lo) = false →
    ∃ (t : State) (d x : Word64),
      exec (.mtDouble v closed) s = .next t ∧ t.reply = some (.ok [] (some d)) ∧
      (let y := fpAdd lo (fpMul d (fpSub hi lo))
       x = if fpValue hi < fpValue y then hi else if fpValue y < fpValue lo then lo else y) ∧
      fpValue lo ≤ fpValue x ∧ fpValue x ≤ fpValue hi ∧ fpIsNaN x = false ∧ fpIsInf x = false ∧
      exec (.rsFloat v closed lo hi) s = .next { t with reply := some (.ok [] (some x)) }

/-- 44_ranged_sampler.md R165: rounding is monotone, keeps representable values, and answers the nearest
representable value with ties to even; `rint` is within 1/2 of its argument, with ties to even. -/
def Obligations.RoundingIsToNearestEven : Prop :=
  (∀ n d n' d' : Nat, 0 < d → 0 < d' → n * d' ≤ n' * d → flUnits n d ≤ flUnits n' d') ∧
  (∀ m : Nat, m < 0x7FF * 2 ^ 52 → flUnits (fpUnits (BitVec.ofNat 64 m)) 1 = m) ∧
  (∀ n d : Nat, 0 < d → flUnits n d < 0x7FF * 2 ^ 52 → ∀ m : Nat, m < 0x7FF * 2 ^ 52 →
    let off := fun (k : Nat) => ((n : Int) - fpUnits (BitVec.ofNat 64 k) * d).natAbs
    off (flUnits n d) ≤ off m ∧ (off (flUnits n d) = off m → m ≠ flUnits n d → flUnits n d % 2 = 0)) ∧
  (∀ t : Word64,
    let off := (fpValue t - fpRint t * 2 ^ 1074).natAbs
    2 * off ≤ 2 ^ 1074 ∧ (2 * off = 2 ^ 1074 → fpRint t % 2 = 0))

/-! The machine as a whole. -/

/-- 10_state.md R29: the frame of a command that completes. It writes neither FAULT and CAUSE nor the
ports it does not use; engine and cores never touch each other; each register group a command does not
write is unchanged. -/
def Obligations.CompletedCommandsKeepTheirFrame : Prop :=
  ∀ (i : Instr) (s t : State), s.fault = false → exec i s = .next t → t.fault = false →
    let e := s.regs.de
    let e' := t.regs.de
    let coresKept := t.regs.mt32 = s.regs.mt32 ∧ t.regs.mt64 = s.regs.mt64
    let onlyCore := fun (v : Variant) =>
      e' = e ∧ (v = .mt32 → t.regs.mt64 = s.regs.mt64) ∧ (v = .mt64 → t.regs.mt32 = s.regs.mt32)
    let seededKept := t.regs.mt32.seeded = s.regs.mt32.seeded ∧ t.regs.mt64.seeded = s.regs.mt64.seeded
    t.cause = s.cause ∧ t.inputs = s.inputs ∧ t.ent = s.ent ∧ t.dinTaken = s.dinTaken ∧ t.params = s.params ∧
    t.residues = s.residues ∧
    match i with
    | .deNew k => coresKept ∧ e'.kind = k
    | .deUpdate _ => coresKept ∧ e'.valid = e.valid ∧ e'.kind = e.kind ∧ e'.phase = e.phase ∧ e'.cursor = e.cursor
    | .deDigest _ => coresKept ∧ e'.valid = e.valid ∧ e'.kind = e.kind ∧ e'.phase = e.phase
    | .deReset => coresKept ∧ e'.valid = e.valid ∧ e'.kind = e.kind
    | .xofNew _ => coresKept
    | .xofDigest _ => coresKept ∧ e'.valid = e.valid ∧ e'.kind = e.kind ∧ e'.phase = e.phase
    | .xofRead _ => coresKept ∧ e'.valid = e.valid ∧ e'.kind = e.kind
    | .mtSeedR v => onlyCore v
    | .mtSeed v _ => onlyCore v
    | .mtSeedA v _ => onlyCore v
    | .mtNext v => onlyCore v ∧ seededKept
    | .mtNextW v => onlyCore v ∧ seededKept
    | .mtBit v => onlyCore v ∧ seededKept
    | .mtDouble v _ => onlyCore v ∧ seededKept
    | .mtGetState _ => t.regs = s.regs
    | .mtSetState v _ => onlyCore v
    | .rsInt v _ _ _ _ _ => onlyCore v ∧ seededKept
    | .rsFloat v _ _ _ => onlyCore v ∧ seededKept

/-- 30_encoding.md R61: which commands put bytes on DOUT and which a word on RES (MT.SETSTATE only where
P_SETSTATE_REPORT says so). -/
def Obligations.OutputsGoToTheirPorts : Prop :=
  ∀ (i : Instr) (s t : State) (dout : List Byte) (res : Option Word64), s.fault = false → exec i s = .next t →
    t.reply = some (.ok dout res) →
    match i with
    | .deNew _ | .deUpdate _ | .deReset | .xofNew _ | .mtSeedR _ | .mtSeed _ _ | .mtSeedA _ _ =>
      dout = [] ∧ res = none
    | .deDigest _ | .mtGetState _ => res = none
    | .xofDigest n | .xofRead n => dout.length = n.toNat ∧ res = none
    | .mtNext _ | .mtNextW _ | .mtBit _ | .mtDouble _ _ | .rsInt _ _ _ _ _ _ | .rsFloat _ _ _ _ =>
      dout = [] ∧ res.isSome = true
    | .mtSetState _ _ => dout = [] ∧ (s.params.setStateReport = .silent → res = none)

/-- 20_memory.md R46(c), 70_reset_and_hazards.md R217: a command depends on the unit's registers, its
operands and the configuration only, and on the entropy word only if it is MT.SEEDR; what else is on the
ports passes through it. -/
def Obligations.CommandsDependOnRegistersOnly : Prop :=
  ∀ (i : Instr) (s : State) (inputs : List Input) (ent : Word64) (reply : Option Reply) (taken : Nat),
    (∀ v, i ≠ .mtSeedR v) →
    ∃ t, exec i s = .next t ∧
      exec i { s with inputs := inputs, ent := ent, reply := reply, dinTaken := taken } =
        .next { t with inputs := inputs, ent := ent, dinTaken := taken }

/-- 20_memory.md R45: these commands, when they complete, leave the same state when repeated. -/
def Obligations.RepeatedCommandsAreIdempotent : Prop :=
  ∀ (i : Instr) (s t : State), s.fault = false → exec i s = .next t → t.fault = false →
    (match i with
    | .deNew _ | .deReset | .xofNew _ | .mtSeed _ _ | .mtSeedA _ _ | .mtGetState _ | .mtSetState _ _ => True
    | .deUpdate data => data = []
    | .xofDigest n | .xofRead n => n = 0
    | .rsInt _ _ signed wc x y => boundOperand signed wc x = boundOperand signed wc y
    | .rsFloat _ _ x y => fpValue x = fpValue y
    | .deDigest _ | .mtSeedR _ | .mtNext _ | .mtNextW _ | .mtBit _ | .mtDouble _ _ => False) →
    exec i t = .next t

/-- 45_host_clients.md R170 to R172: the host's HMAC sequence over the unit computes the nested digest of
the padded keys and the message, for every kind with a digest length and any backend. -/
def Obligations.HmacIsTheNestedDigest : Prop :=
  ∀ (s : State) (kind : Kind) (key m : List Byte), s.fault = false → kind ≠ .k128 → key.length < 2 ^ 60 →
    m.length < 2 ^ 60 →
    let H := digestOf (backendOf s.params.backend) kind
    let bs := blockSize kind
    let k0 := if bs < key.length then H key else key
    let k1 := k0 ++ List.replicate (bs - k0.length) 0#8
    (Client.hmac kind key m s).1 =
      H (k1.map (fun b => b ^^^ 0x5c#8) ++ H (k1.map (fun b => b ^^^ 0x36#8) ++ m))

/-- 44_ranged_sampler.md R165, 00_scope.md R7, 43_mersenne_twister.md R147: on finite operands each operation
answers the exact result rounded once by `fl`, which RoundingIsToNearestEven pins; `fl` is the infinity
exactly from the magnitude halfway above the largest finite value on. Magnitudes are counted in units of
2^-1074. The sign of an exact zero sum is the model's reading of IEEE 754 (log entry 7). -/
def Obligations.FpOperationsRoundTheExactResult : Prop :=
  (∀ x : Word64,
    let e := x.toNat / 2 ^ 52 % 2 ^ 11
    let f := x.toNat % 2 ^ 52
    fpUnits x = (if e = 0 then f else (2 ^ 52 + f) * 2 ^ (e - 1)) ∧ (fpSign x = true ↔ 2 ^ 63 ≤ x.toNat) ∧
    fpValue x = (if 2 ^ 63 ≤ x.toNat then -(fpUnits x : Int) else fpUnits x) ∧
    (fpIsNaN x = true ↔ e = 2047 ∧ f ≠ 0) ∧ (fpIsInf x = true ↔ e = 2047 ∧ f = 0)) ∧
  (∀ n d : Nat, 0 < d → flUnits n d ≤ 0x7FF * 2 ^ 52 ∧
    (flUnits n d = 0x7FF * 2 ^ 52 ↔ (2 ^ 54 - 1) * 2 ^ 2044 * d ≤ n)) ∧
  (∀ a b : Word64, fpIsNaN a = false → fpIsInf a = false → fpIsNaN b = false → fpIsInf b = false →
    let fl := fun (negative : Prop) [Decidable negative] (n d : Nat) => flUnits n d + if negative then 2 ^ 63 else 0
    let sum := fpValue a + fpValue b
    let diff := fpValue a - fpValue b
    (fpMul a b).toNat = fl (fpSign a ≠ fpSign b) (fpUnits a * fpUnits b) (2 ^ 1074) ∧
    (sum ≠ 0 → (fpAdd a b).toNat = fl (sum < 0) sum.natAbs 1) ∧
    (sum = 0 → (fpAdd a b).toNat = fl (fpSign a = true ∧ fpSign b = true) 0 1) ∧
    (diff ≠ 0 → (fpSub a b).toNat = fl (diff < 0) diff.natAbs 1) ∧
    (diff = 0 → (fpSub a b).toNat = fl (fpSign a = true ∧ fpSign b = false) 0 1)) ∧
  (∀ n : Nat, (fpOfNat n).toNat = flUnits (n * 2 ^ 1074) 1) ∧
  (∀ k : Nat, (unitDouble false k).toNat = flUnits (k * 2 ^ 1074) (2 ^ 53) ∧
    (unitDouble true k).toNat = flUnits (k * 2 ^ 1074) (2 ^ 53 - 1))

/-- 30_encoding.md R65: a bound of RS.INT is the low 8, 16, 32 or 64 bits of its argument word, read as two's
complement or as unsigned; the bits above are ignored. -/
def Obligations.SamplerBoundsAreTheLowBits : Prop :=
  ∀ (signed : Bool) (wc : WidthCode) (arg : Word64),
    let w : Nat := match wc with
      | .w8 => 8
      | .w16 => 16
      | .w32 => 32
      | .w64 => 64
    let low : Nat := arg.toNat % 2 ^ w
    boundOperand signed wc arg =
      if signed = true ∧ 2 ^ (w - 1) ≤ low then (low : Int) - (2 : Int) ^ w else (low : Int)
end

