-- ==== Sys2Proof/Laws/Bytes.lean ====
section
/-! SUPPORT. Byte strings and register arrays: lengths, the inverse byte orders, reads of what was built
or written. -/

namespace Sys2Proof.Machine

@[simp] theorem length_leBytes (n x : Nat) : (leBytes n x).length = n := by
  induction n generalizing x with
  | zero => rfl
  | succ n ih => simp [leBytes, ih]

@[simp] theorem length_beBytes (n x : Nat) : (beBytes n x).length = n := by simp [beBytes]

theorem fromLE_leBytes (n x : Nat) : fromLE (leBytes n x) = x % 256 ^ n := by
  induction n generalizing x with
  | zero => simp [leBytes, fromLE, Nat.mod_one]
  | succ n ih =>
    have h : x % 256 ^ (n + 1) = x % 256 + 256 * (x / 256 % 256 ^ n) := by rw [Nat.pow_succ', Nat.mod_mul]
    simp [leBytes, fromLE, ih, h]

theorem fromLE_lt (bs : List Byte) : fromLE bs < 256 ^ bs.length := by
  induction bs with
  | nil => simp [fromLE]
  | cons b bs ih =>
    have hb := b.isLt
    have : 256 ^ (bs.length + 1) = 256 * 256 ^ bs.length := Nat.pow_succ'
    simp only [fromLE, List.length_cons]
    omega

theorem leBytes_fromLE (bs : List Byte) : leBytes bs.length (fromLE bs) = bs := by
  induction bs with
  | nil => rfl
  | cons b bs ih =>
    have hb := b.isLt
    have h1 : (b.toNat + 256 * fromLE bs) / 256 = fromLE bs := by omega
    have h2 : BitVec.ofNat 8 (b.toNat + 256 * fromLE bs) = b := by
      apply BitVec.eq_of_toNat_eq; rw [BitVec.toNat_ofNat]; omega
    simp [leBytes, fromLE, h1, h2, ih]

@[simp] theorem length_pieces (wb k : Nat) (bs : List Byte) : (pieces wb k bs).length = k := by
  induction k generalizing bs with
  | zero => rfl
  | succ k ih => simp [pieces, ih]

theorem cell_eq_getElem {α : Type} [Inhabited α] {n : Nat} (v : Vector α n) (i : Nat) (h : i < n) : cell v i = v[i] := by
  simp [cell, List.getD_eq_getElem?_getD, h]

theorem cell_of_le {α : Type} [Inhabited α] {n : Nat} (v : Vector α n) (i : Nat) (h : n ≤ i) : cell v i = default := by
  simp [cell, List.getD_eq_getElem?_getD, h]

theorem cell_setIfInBounds {α : Type} [Inhabited α] {n : Nat} (v : Vector α n) (i j : Nat) (x : α) :
    cell (v.setIfInBounds i x) j = if i = j ∧ j < n then x else cell v j := by
  by_cases hj : j < n
  · simp [cell_eq_getElem _ _ hj, Vector.getElem_setIfInBounds, hj]
  · simp [cell_of_le _ _ (Nat.le_of_not_lt hj), hj]

theorem fit_getElem? {α : Type} (d : α) (n : Nat) (l : List α) (i : Nat) :
    (fit d n l)[i]? = if i < n then some (l.getD i d) else none := by
  induction n generalizing l i with
  | zero => simp [fit]
  | succ n ih => cases l <;> cases i <;> simp [fit, ih]

theorem cell_cells {α : Type} [Inhabited α] (n : Nat) (l : List α) (i : Nat) :
    cell (cells n l) i = if i < n then l.getD i default else default := by
  by_cases h : i < n <;> simp [cell, cells, List.getD_eq_getElem?_getD, fit_getElem?, h]

theorem cell_replicate {α : Type} [Inhabited α] (n : Nat) (x : α) (i : Nat) :
    cell (Vector.replicate n x) i = if i < n then x else default := by
  by_cases h : i < n
  · simp [cell_eq_getElem _ _ h, h]
  · simp [cell_of_le _ _ (Nat.le_of_not_lt h), h]

/-- Two register arrays with equal cells are equal. -/
theorem ext_cell {α : Type} [Inhabited α] {n : Nat} (v u : Vector α n) (h : ∀ i, i < n → cell v i = cell u i) : v = u := by
  ext i hi
  simpa [cell_eq_getElem _ _ hi] using h i hi

theorem fit_of_length {α : Type} (d : α) (l : List α) : fit d l.length l = l := by
  induction l with
  | nil => rfl
  | cons a l ih => simp [fit, ih]

/-- An array rebuilt from its own cells is that array. -/
theorem cells_toList {α : Type} [Inhabited α] {n : Nat} (v : Vector α n) : cells n v.toList = v := by
  have h : fit default n v.toList = v.toList := by
    have := fit_of_length (default : α) v.toList
    simpa using this
  ext i hi
  simp [cells, h]

end Sys2Proof.Machine
end

