-- ==== Sys2Proof/Laws/State.lean ====
section
/-! SUPPORT. One lemma per field per update of the state and of the engine registers, so that no later
proof unfolds a record update. -/

namespace Sys2Proof.Machine

section
variable (s : State) (c : Cause) (d : Done) (rest : List Input) (ent : Word64) (n : Nat) (cmd : Command)

@[simp] theorem raiseFault_regs : (s.raiseFault c).regs = s.regsAfterFault := rfl
@[simp] theorem raiseFault_fault : (s.raiseFault c).fault = true := rfl
@[simp] theorem raiseFault_cause : (s.raiseFault c).cause = c := rfl
@[simp] theorem raiseFault_inputs : (s.raiseFault c).inputs = s.inputs := rfl
@[simp] theorem raiseFault_ent : (s.raiseFault c).ent = s.ent := rfl
@[simp] theorem raiseFault_reply : (s.raiseFault c).reply = some (.fault c) := rfl
@[simp] theorem raiseFault_dinTaken : (s.raiseFault c).dinTaken = s.dinTaken := rfl
@[simp] theorem raiseFault_params : (s.raiseFault c).params = s.params := rfl
@[simp] theorem raiseFault_residues : (s.raiseFault c).residues = s.residues + 1 := rfl

@[simp] theorem refuse_regs : s.refuse.regs = s.regs := rfl
@[simp] theorem refuse_fault : s.refuse.fault = s.fault := rfl
@[simp] theorem refuse_cause : s.refuse.cause = s.cause := rfl
@[simp] theorem refuse_inputs : s.refuse.inputs = s.inputs := rfl
@[simp] theorem refuse_ent : s.refuse.ent = s.ent := rfl
@[simp] theorem refuse_reply : s.refuse.reply = some (.refused s.cause) := rfl
@[simp] theorem refuse_dinTaken : s.refuse.dinTaken = s.dinTaken := rfl
@[simp] theorem refuse_params : s.refuse.params = s.params := rfl
@[simp] theorem refuse_residues : s.refuse.residues = s.residues := rfl

@[simp] theorem complete_regs : (s.complete d).regs = d.regs := rfl
@[simp] theorem complete_fault : (s.complete d).fault = s.fault := rfl
@[simp] theorem complete_cause : (s.complete d).cause = s.cause := rfl
@[simp] theorem complete_inputs : (s.complete d).inputs = s.inputs := rfl
@[simp] theorem complete_ent : (s.complete d).ent = s.ent := rfl
@[simp] theorem complete_reply : (s.complete d).reply = some (.ok d.dout d.res) := rfl
@[simp] theorem complete_dinTaken : (s.complete d).dinTaken = s.dinTaken := rfl
@[simp] theorem complete_params : (s.complete d).params = s.params := rfl
@[simp] theorem complete_residues : (s.complete d).residues = s.residues := rfl

@[simp] theorem latch_regs : (s.latch rest ent n).regs = s.regs := rfl
@[simp] theorem latch_fault : (s.latch rest ent n).fault = s.fault := rfl
@[simp] theorem latch_cause : (s.latch rest ent n).cause = s.cause := rfl
@[simp] theorem latch_inputs : (s.latch rest ent n).inputs = rest := rfl
@[simp] theorem latch_ent : (s.latch rest ent n).ent = ent := rfl
@[simp] theorem latch_reply : (s.latch rest ent n).reply = s.reply := rfl
@[simp] theorem latch_dinTaken : (s.latch rest ent n).dinTaken = n := rfl
@[simp] theorem latch_params : (s.latch rest ent n).params = s.params := rfl
@[simp] theorem latch_residues : (s.latch rest ent n).residues = s.residues := rfl

@[simp] theorem hardReset_regs : s.hardReset.regs = s.regsAfterRst := rfl
@[simp] theorem hardReset_fault : s.hardReset.fault = false := rfl
@[simp] theorem hardReset_cause : s.hardReset.cause = .none := rfl
@[simp] theorem hardReset_inputs : s.hardReset.inputs = s.inputs := rfl
@[simp] theorem hardReset_ent : s.hardReset.ent = s.ent := rfl
@[simp] theorem hardReset_reply : s.hardReset.reply = none := rfl
@[simp] theorem hardReset_dinTaken : s.hardReset.dinTaken = 0 := rfl
@[simp] theorem hardReset_params : s.hardReset.params = s.params := rfl
@[simp] theorem hardReset_residues : s.hardReset.residues = s.residues + 1 := rfl

@[simp] theorem enqueue_inputs : (s.enqueue cmd).inputs = .command cmd s.ent :: s.inputs := rfl
@[simp] theorem enqueue_regs : (s.enqueue cmd).regs = s.regs := rfl
@[simp] theorem enqueue_fault : (s.enqueue cmd).fault = s.fault := rfl

end

section
variable (cb : Config.Backend) (e : Engine) (b : Byte)

@[simp] theorem pushByte_valid : (pushByte e b).valid = e.valid := rfl
@[simp] theorem pushByte_kind : (pushByte e b).kind = e.kind := rfl
@[simp] theorem pushByte_buffer : (pushByte e b).buffer = e.buffer.setIfInBounds e.bytesInBuffer.toNat b := rfl
@[simp] theorem pushByte_bytesInBuffer : (pushByte e b).bytesInBuffer = e.bytesInBuffer + 1 := rfl
@[simp] theorem pushByte_total : (pushByte e b).total = e.total := rfl
@[simp] theorem pushByte_state : (pushByte e b).state = e.state := rfl
@[simp] theorem pushByte_phase : (pushByte e b).phase = e.phase := rfl
@[simp] theorem pushByte_cursor : (pushByte e b).cursor = e.cursor := rfl

@[simp] theorem commit_valid : (commit cb e).valid = e.valid := rfl
@[simp] theorem commit_kind : (commit cb e).kind = e.kind := rfl
@[simp] theorem commit_buffer : (commit cb e).buffer = Vector.replicate 168 0#8 := rfl
@[simp] theorem commit_bytesInBuffer : (commit cb e).bytesInBuffer = 0#8 := rfl
@[simp] theorem commit_total : (commit cb e).total = e.total := rfl
@[simp] theorem commit_state : (commit cb e).state =
    blockOp cb e.kind (e.buffer.toList.take (blockSize e.kind)) e.state := rfl
@[simp] theorem commit_phase : (commit cb e).phase = e.phase := rfl
@[simp] theorem commit_cursor : (commit cb e).cursor = e.cursor := rfl

variable (k : Kind)

@[simp] theorem initEngine_valid : (initEngine cb k).valid = true := rfl
@[simp] theorem initEngine_kind : (initEngine cb k).kind = k := rfl
@[simp] theorem initEngine_buffer : (initEngine cb k).buffer = Vector.replicate 168 0#8 := rfl
@[simp] theorem initEngine_bytesInBuffer : (initEngine cb k).bytesInBuffer = 0#8 := rfl
@[simp] theorem initEngine_total : (initEngine cb k).total = 0#64 := rfl
@[simp] theorem initEngine_state : (initEngine cb k).state = resetState cb k := rfl
@[simp] theorem initEngine_phase : (initEngine cb k).phase = .absorb := rfl
@[simp] theorem initEngine_cursor : (initEngine cb k).cursor = 0#8 := rfl

end

end Sys2Proof.Machine
end

