-- ==== Sys2Proof/Laws/Ops.lean ====
section
/-! SUPPORT. What the shared operations of a command can do: the guards, and the three ways a command
that runs can end. -/

namespace Sys2Proof.Machine

@[simp] theorem require_true (c : Cause) : require true c = .ok () := rfl
@[simp] theorem require_false (c : Cause) : require false c = .error c := rfl
@[simp] theorem requireSome_some {α : Type} (a : α) (c : Cause) : requireSome (some a) c = .ok a := rfl
@[simp] theorem requireSome_none {α : Type} (c : Cause) : requireSome (none : Option α) c = .error c := rfl

/-- What the statements spell out of a fault is `raiseFault`. -/
theorem raisesFault_iff {o : Host.Outcome State Fault Refusal} {s : State} {c : Cause} :
    RaisesFault o s c ↔ o = .next (s.raiseFault c) := Iff.rfl

theorem require_eq_ok {b : Bool} {c : Cause} {u : Unit} : require b c = .ok u ↔ b = true := by
  cases b <;> simp [require]

theorem require_eq_error {b : Bool} {c c' : Cause} : require b c = .error c' ↔ b = false ∧ c = c' := by
  cases b <;> simp [require]

/-- A sequence of effects completes exactly when each completes. -/
theorem bind_eq_ok {α β : Type} {x : Except Cause α} {f : α → Except Cause β} {y : β} :
    (x >>= f) = .ok y ↔ ∃ a, x = .ok a ∧ f a = .ok y := by
  cases x <;> simp [bind, Except.bind]

/-- A sequence of effects faults where its first part faults, or where the rest does. -/
theorem bind_eq_error {α β : Type} {x : Except Cause α} {f : α → Except Cause β} {c : Cause} :
    (x >>= f) = .error c ↔ x = .error c ∨ ∃ a, x = .ok a ∧ f a = .error c := by
  cases x <;> simp [bind, Except.bind]

@[simp] theorem ok_bind {α β : Type} (a : α) (f : α → Except Cause β) : ((Except.ok a : Except Cause α) >>= f) = f a := rfl
@[simp] theorem error_bind {α β : Type} (c : Cause) (f : α → Except Cause β) :
    ((Except.error c : Except Cause α) >>= f) = .error c := rfl

/-- A faulted unit refuses (60_exceptions.md R193). -/
theorem perform_faulted {s : State} (h : s.fault = true) (e : Effect) : perform s e = .next s.refuse := by
  simp [perform, h]

/-- An unfaulted unit completes an effect that completes. -/
theorem perform_ok {s : State} (h : s.fault = false) (d : Done) : perform s (.ok d) = .next (s.complete d) := by
  simp [perform, h, State.after]

/-- An unfaulted unit takes the fault an effect raises (60_exceptions.md R192). -/
theorem perform_error {s : State} (h : s.fault = false) (c : Cause) :
    perform s (.error c : Effect) = .next (s.raiseFault c) := by
  simp [perform, h, State.after]

/-- Everything a command that runs can do: refuse, complete, or fault. -/
theorem perform_cases {s t : State} {e : Effect} (h : perform s e = .next t) :
    (s.fault = true ∧ t = s.refuse) ∨
    (s.fault = false ∧ ∃ d, e = .ok d ∧ t = s.complete d) ∨
    (s.fault = false ∧ ∃ c, e = .error c ∧ t = s.raiseFault c) := by
  cases hf : s.fault with
  | true => rw [perform_faulted hf] at h; cases h; exact .inl ⟨rfl, rfl⟩
  | false =>
    cases e with
    | ok d => rw [perform_ok hf] at h; cases h; exact .inr (.inl ⟨rfl, d, rfl, rfl⟩)
    | error c => rw [perform_error hf] at h; cases h; exact .inr (.inr ⟨rfl, c, rfl, rfl⟩)

theorem perform_is_next (s : State) (e : Effect) : ∃ t, perform s e = .next t := ⟨_, rfl⟩

@[simp] theorem onEngine_ok (r : Regs) (e : Engine) (out : List Byte) :
    onEngine r (.ok (e, out)) = .ok { regs := { r with de := e }, dout := out, res := none } := rfl
@[simp] theorem onEngine_error (r : Regs) (c : Cause) : onEngine r (.error c) = .error c := rfl

theorem onEngine_eq_ok {r : Regs} {f : Except Cause (Engine × List Byte)} {d : Done} :
    onEngine r f = .ok d ↔ ∃ e out, f = .ok (e, out) ∧ d = { regs := { r with de := e }, dout := out, res := none } := by
  cases f with
  | ok eo => cases eo; simp [eq_comm]
  | error c => simp

theorem onEngine_eq_error {r : Regs} {f : Except Cause (Engine × List Byte)} {c : Cause} :
    onEngine r f = .error c ↔ f = .error c := by
  cases f with
  | ok eo => cases eo; simp
  | error c => simp

/-- With the named residue a fault leaves every register as it was (10_state.md R29). -/
theorem regsAfterFault_named {s : State} (h : s.params.residue = .named) : s.regsAfterFault = s.regs := by
  simp [State.regsAfterFault, h]

@[simp] theorem regsAfterRst_valid (s : State) : s.regsAfterRst.de.valid = false := by
  cases h : s.params.residue <;> simp [State.regsAfterRst, h, Regs.afterReset, Engine.afterReset]
@[simp] theorem regsAfterRst_mt32 (s : State) : s.regsAfterRst.mt32.seeded = false := by
  cases h : s.params.residue <;> simp [State.regsAfterRst, h, Regs.afterReset, MtCore.afterReset]
@[simp] theorem regsAfterRst_mt64 (s : State) : s.regsAfterRst.mt64.seeded = false := by
  cases h : s.params.residue <;> simp [State.regsAfterRst, h, Regs.afterReset, MtCore.afterReset]

/-- Everything a step can do. -/
theorem step_cases {s t : State} (h : step s = .next t) :
    (s.inputs = [] ∧ t = s) ∨
    (∃ rest, s.inputs = .rst :: rest ∧ t = ({ s with inputs := rest } : State).hardReset) ∨
    (∃ c ent rest, s.inputs = .command c ent :: rest ∧ s.fault = true ∧ t = (s.latch rest ent 0).refuse) ∨
    (∃ c ent rest e, s.inputs = .command c ent :: rest ∧ s.fault = false ∧ decode c = .error e ∧
      e.isIllegalHeader = true ∧ t = (s.latch rest ent 0).raiseFault .illegalCommand) ∨
    (∃ c ent rest i, s.inputs = .command c ent :: rest ∧ s.fault = false ∧ decode c = .ok i ∧
      exec i (s.latch rest ent c.payload.length) = .next t) := by
  unfold step transact at h
  split at h
  · next hi => cases h; exact .inl ⟨hi, rfl⟩
  · next rest hi => cases h; exact .inr (.inl ⟨rest, hi, rfl⟩)
  · next c ent rest hi =>
    unfold runCommand at h
    cases hf : s.fault with
    | true =>
      simp only [hf, if_true] at h
      cases h; exact .inr (.inr (.inl ⟨c, ent, rest, hi, rfl, rfl⟩))
    | false =>
      simp only [hf, Bool.false_eq_true, if_false] at h
      split at h
      · next i hd => exact .inr (.inr (.inr (.inr ⟨c, ent, rest, i, hi, rfl, hd, h⟩)))
      · next e hd =>
        split at h
        · next he => cases h; exact .inr (.inr (.inr (.inl ⟨c, ent, rest, e, hi, rfl, hd, he, rfl⟩)))
        · cases h

end Sys2Proof.Machine
end

