-- ==== Sys2Proof/Laws/Engine.lean ====
section
/-! SUPPORT. The procedures of the Digest Engine: what Absorb, the pads and the squeezes change, the
lengths of what they produce, and the procedures against what the statements spell out. -/

namespace Sys2Proof.Machine

open Sys2Proof.Config

theorem blockSize_pos (k : Kind) : 0 < blockSize k := by cases k <;> decide
theorem blockSize_le (k : Kind) : blockSize k ≤ 168 := by cases k <;> decide

theorem hasShape_resetState (cb : Backend) (k : Kind) : hasShape k (resetState cb k) = true := by
  cases k <;> rfl

theorem hasShape_blockOp (cb : Backend) (k : Kind) (k' : Kind) (block : List Byte) (st : DState) :
    hasShape k (blockOp cb k' block st) = hasShape k st := by
  cases k <;> cases st <;> rfl

theorem absorbByte_eq (cb : Backend) (e : Engine) (b : Byte) : absorbByte cb e b =
    if (pushByte e b).bytesInBuffer.toNat = blockSize e.kind then commit cb (pushByte e b) else pushByte e b := rfl

/-- Absorbing a byte leaves the engine's identity and its counters for output alone. -/
theorem absorbByte_frame (cb : Backend) (e : Engine) (b : Byte) :
    (absorbByte cb e b).valid = e.valid ∧ (absorbByte cb e b).kind = e.kind ∧ (absorbByte cb e b).total = e.total ∧
    (absorbByte cb e b).phase = e.phase ∧ (absorbByte cb e b).cursor = e.cursor := by
  rw [absorbByte_eq]
  split <;> simp

theorem absorbBytes_frame (cb : Backend) (e : Engine) (d : List Byte) :
    (absorbBytes cb e d).valid = e.valid ∧ (absorbBytes cb e d).kind = e.kind ∧ (absorbBytes cb e d).total = e.total ∧
    (absorbBytes cb e d).phase = e.phase ∧ (absorbBytes cb e d).cursor = e.cursor := by
  induction d generalizing e with
  | nil => simp [absorbBytes]
  | cons b d ih =>
    obtain ⟨h1, h2, h3, h4, h5⟩ := ih (absorbByte cb e b)
    obtain ⟨g1, g2, g3, g4, g5⟩ := absorbByte_frame cb e b
    exact ⟨h1.trans g1, h2.trans g2, h3.trans g3, h4.trans g4, h5.trans g5⟩

theorem absorbBytes_append (cb : Backend) (e : Engine) (a b : List Byte) :
    absorbBytes cb e (a ++ b) = absorbBytes cb (absorbBytes cb e a) b := by
  simp [absorbBytes]

/-- The counter does not enter the loop of Absorb. -/
theorem absorbByte_total (cb : Backend) (e : Engine) (b : Byte) (T : Word64) :
    absorbByte cb { e with total := T } b = { absorbByte cb e b with total := T } := by
  have h : pushByte { e with total := T } b = { pushByte e b with total := T } := rfl
  simp only [absorbByte, h]
  split <;> rfl

theorem absorbBytes_total (cb : Backend) (e : Engine) (d : List Byte) (T : Word64) :
    absorbBytes cb { e with total := T } d = { absorbBytes cb e d with total := T } := by
  induction d generalizing e with
  | nil => rfl
  | cons b d ih =>
    simp only [absorbBytes, List.foldl_cons, absorbByte_total]
    exact ih _

/-- What holds of the buffer between two bytes: items 1 and 3 of 10_state.md R19 and the shape. -/
structure BufferInv (e : Engine) : Prop where
  notFull : e.bytesInBuffer.toNat < blockSize e.kind
  clearAbove : ∀ i, e.bytesInBuffer.toNat ≤ i → cell e.buffer i = 0#8
  shape : hasShape e.kind e.state = true

theorem Engine.Inv.buffer {e : Engine} (h : e.Inv) : BufferInv e := ⟨h.notFull, h.clearAbove, h.shape⟩

theorem toNat_succ_bytesInBuffer {e : Engine} (h : BufferInv e) :
    (e.bytesInBuffer + 1).toNat = e.bytesInBuffer.toNat + 1 := by
  have := h.notFull
  have := blockSize_le e.kind
  have h1 : (1 : BitVec 8).toNat = 1 := rfl
  rw [BitVec.toNat_add, h1]
  omega

theorem cell_cleared (i : Nat) : cell (Vector.replicate 168 (0#8 : Byte)) i = 0#8 := by
  rw [cell_replicate]; split <;> rfl

/-- One byte absorbed: the buffer invariant holds again, and the count goes up by one modulo the block. -/
theorem absorbByte_buffer (cb : Backend) {e : Engine} (h : BufferInv e) (b : Byte) :
    BufferInv (absorbByte cb e b) ∧
    (absorbByte cb e b).bytesInBuffer.toNat = (e.bytesInBuffer.toNat + 1) % blockSize e.kind := by
  have hn := h.notFull
  have hs := toNat_succ_bytesInBuffer h
  have hpos := blockSize_pos e.kind
  rw [absorbByte_eq]
  simp only [pushByte_bytesInBuffer, hs]
  split
  · next hfull =>
    refine ⟨⟨by simpa using hpos, fun i _ => by simpa using cell_cleared i, ?_⟩, ?_⟩
    · simpa [hasShape_blockOp] using h.shape
    · rw [hfull]; simp
  · next hnot =>
    have hlt : e.bytesInBuffer.toNat + 1 < blockSize e.kind := by omega
    refine ⟨⟨by simpa only [pushByte_bytesInBuffer, pushByte_kind, hs] using hlt, fun i hi => ?_, by simpa using h.shape⟩, ?_⟩
    · simp only [pushByte_bytesInBuffer, hs] at hi
      simp only [pushByte_buffer, cell_setIfInBounds]
      have : ¬(e.bytesInBuffer.toNat = i ∧ i < 168) := by omega
      simp only [this, if_false]
      exact h.clearAbove i (by omega)
    · rw [pushByte_bytesInBuffer, hs, Nat.mod_eq_of_lt hlt]

theorem absorbBytes_buffer (cb : Backend) {e : Engine} (h : BufferInv e) (d : List Byte) :
    BufferInv (absorbBytes cb e d) ∧
    (absorbBytes cb e d).bytesInBuffer.toNat = (e.bytesInBuffer.toNat + d.length) % blockSize e.kind := by
  induction d generalizing e with
  | nil => exact ⟨h, (Nat.mod_eq_of_lt h.notFull).symm⟩
  | cons b d ih =>
    obtain ⟨hb, hc⟩ := absorbByte_buffer cb h b
    obtain ⟨h1, h2⟩ := ih hb
    refine ⟨h1, h2.trans ?_⟩
    rw [hc, (absorbByte_frame cb e b).2.1, Nat.mod_add_mod, List.length_cons]
    congr 1; omega

/-- Everything Absorb can do: it faults on an overflow of the counter, or it absorbs every byte. -/
theorem absorb_cases (cb : Backend) (e : Engine) (d : List Byte) :
    (e.total.toNat + d.length > 2 ^ 64 - 1 ∧ absorb cb e d = .error .lenOverflow) ∨
    (e.total.toNat + d.length ≤ 2 ^ 64 - 1 ∧
      absorb cb e d = .ok { absorbBytes cb e d with total := e.total + BitVec.ofNat 64 d.length }) := by
  unfold absorb
  split
  · next h => exact .inl ⟨h, rfl⟩
  · next h => exact .inr ⟨by omega, rfl⟩

/-- What an Absorb that completes leaves. -/
theorem absorb_ok {cb : Backend} {e e' : Engine} {d : List Byte} (h : absorb cb e d = .ok e') :
    e.total.toNat + d.length ≤ 2 ^ 64 - 1 ∧
    e' = { absorbBytes cb e d with total := e.total + BitVec.ofNat 64 d.length } ∧
    e'.total.toNat = e.total.toNat + d.length ∧ e'.valid = e.valid ∧ e'.kind = e.kind ∧ e'.phase = e.phase ∧
    e'.cursor = e.cursor := by
  rcases absorb_cases cb e d with ⟨_, h'⟩ | ⟨hle, h'⟩
  · rw [h'] at h; cases h
  · rw [h'] at h; cases h
    obtain ⟨f1, f2, _, f4, f5⟩ := absorbBytes_frame cb e d
    refine ⟨hle, rfl, ?_, f1, f2, f4, f5⟩
    simp only [BitVec.toNat_add, BitVec.toNat_ofNat]
    omega

/-- Absorb keeps the buffer invariant; the count moves by the length modulo the block. -/
theorem absorb_buffer {cb : Backend} {e e' : Engine} {d : List Byte} (hb : BufferInv e) (h : absorb cb e d = .ok e') :
    BufferInv e' ∧ e'.bytesInBuffer.toNat = (e.bytesInBuffer.toNat + d.length) % blockSize e.kind := by
  obtain ⟨_, rfl, _⟩ := absorb_ok h
  obtain ⟨h1, h2⟩ := absorbBytes_buffer cb hb d
  exact ⟨⟨h1.notFull, h1.clearAbove, h1.shape⟩, h2⟩

theorem initEngine_inv (cb : Backend) (k : Kind) : (initEngine cb k).Inv where
  notFull := by simpa using blockSize_pos k
  clearAbove i _ := by simpa using cell_cleared i
  shape := hasShape_resetState cb k
  phase := by simp [Engine.phaseInv]

/-- Absorb in ABSORB keeps the engine invariant. -/
theorem absorb_inv {cb : Backend} {e e' : Engine} {d : List Byte} (hi : e.Inv) (hp : e.phase = .absorb)
    (h : absorb cb e d = .ok e') : e'.Inv ∧ e'.phase = .absorb := by
  obtain ⟨_, _, ht, _, hk, hph, hc⟩ := absorb_ok h
  obtain ⟨hb, hn⟩ := absorb_buffer hi.buffer h
  have hphase := hi.phase
  simp only [Engine.phaseInv, hp] at hphase
  refine ⟨⟨hb.notFull, hb.clearAbove, hb.shape, ?_⟩, hph.trans hp⟩
  simp only [Engine.phaseInv, hph.trans hp, hc, hphase.2, hk, ht, hn, hphase.1, and_true]
  exact Nat.mod_add_mod _ _ _

@[simp] theorem length_spongePad (T bs : Nat) (suffix : Byte) (h : 0 < bs) :
    (spongePad T bs suffix).length = bs - T % bs := by
  have := Nat.mod_lt T h
  have heq : spongePad T bs suffix = if bs - T % bs = 1 then [suffix ||| 0x80#8]
      else suffix :: List.replicate (bs - T % bs - 2) 0#8 ++ [0x80#8] := rfl
  rw [heq]
  split
  · next h1 => simp [h1]
  · next h1 => simp; omega

/-- The sponge pad reaches the next block boundary (42_sponge.md R114). -/
theorem spongePad_aligns (T bs : Nat) (suffix : Byte) (h : 0 < bs) :
    (T + (spongePad T bs suffix).length) % bs = 0 := by
  rw [length_spongePad T bs suffix h]
  have h1 := Nat.mod_lt T h
  have h2 := Nat.div_add_mod T bs
  have : T + (bs - T % bs) = bs * (T / bs + 1) := by rw [Nat.mul_add]; omega
  rw [this]; simp

theorem length_squeezeBlocks (cb : Backend) (bs k n : Nat) (s : Vector Byte 200) (hbs : bs ≤ 200)
    (hlo : k * bs ≤ n) (hhi : n ≤ (k + 1) * bs) : (squeezeBlocks cb bs k s n).length = n := by
  induction k generalizing s n with
  | zero => simp [squeezeBlocks]; omega
  | succ k ih =>
    rw [Nat.succ_mul] at hlo hhi
    rw [squeezeBlocks, List.length_append, ih]
    · simp; omega
    · omega
    · rw [Nat.succ_mul] at hhi ⊢; omega

/-- SqueezeOnce delivers exactly the bytes asked for (42_sponge.md R116). -/
theorem length_squeezeOnce (cb : Backend) (bs n : Nat) (s : Vector Byte 200) (hpos : 0 < bs) (hbs : bs ≤ 200)
    (hn : 1 ≤ n) : (squeezeOnce cb bs s n).length = n := by
  have h1 := Nat.div_add_mod (n - 1) bs
  have h2 := Nat.mod_lt (n - 1) hpos
  have h3 : (n - 1) / bs * bs = bs * ((n - 1) / bs) := Nat.mul_comm _ _
  apply length_squeezeBlocks _ _ _ _ _ hbs
  · omega
  · rw [Nat.succ_mul]; omega

@[simp] theorem length_squeezeBytes (cb : Backend) (n : Nat) (e : Engine) : (squeezeBytes cb n e).1.length = n := by
  induction n generalizing e with
  | zero => rfl
  | succ n ih => simp [squeezeBytes, ih]

/-- Delivering a byte changes the running state and the cursor only. -/
theorem squeezeByte_frame (cb : Backend) (e : Engine) :
    (squeezeByte cb e).2.valid = e.valid ∧ (squeezeByte cb e).2.kind = e.kind ∧
    (squeezeByte cb e).2.buffer = e.buffer ∧ (squeezeByte cb e).2.bytesInBuffer = e.bytesInBuffer ∧
    (squeezeByte cb e).2.total = e.total ∧ (squeezeByte cb e).2.phase = e.phase := by
  by_cases h : e.cursor.toNat = blockSize e.kind <;> simp [squeezeByte, h]

theorem squeezeBytes_frame (cb : Backend) (n : Nat) (e : Engine) :
    (squeezeBytes cb n e).2.valid = e.valid ∧ (squeezeBytes cb n e).2.kind = e.kind ∧
    (squeezeBytes cb n e).2.buffer = e.buffer ∧ (squeezeBytes cb n e).2.bytesInBuffer = e.bytesInBuffer ∧
    (squeezeBytes cb n e).2.total = e.total ∧ (squeezeBytes cb n e).2.phase = e.phase := by
  induction n generalizing e with
  | zero => simp [squeezeBytes]
  | succ n ih =>
    obtain ⟨h1, h2, h3, h4, h5, h6⟩ := ih (squeezeByte cb e).2
    obtain ⟨g1, g2, g3, g4, g5, g6⟩ := squeezeByte_frame cb e
    exact ⟨h1.trans g1, h2.trans g2, h3.trans g3, h4.trans g4, h5.trans g5, h6.trans g6⟩

/-- A block read splits: `a + b` bytes are `a` bytes and then `b` bytes (42_sponge.md R123(d)). -/
theorem squeezeBytes_add (cb : Backend) (a b : Nat) (e : Engine) :
    squeezeBytes cb (a + b) e =
      ((squeezeBytes cb a e).1 ++ (squeezeBytes cb b (squeezeBytes cb a e).2).1,
       (squeezeBytes cb b (squeezeBytes cb a e).2).2) := by
  induction a generalizing e with
  | zero => simp [squeezeBytes]
  | succ a ih => rw [Nat.succ_add]; simp [squeezeBytes, ih]

/-! What the statements spell out cell by cell and byte by byte, against the procedures. -/

theorem getD_xorFront (block s : List Byte) (i : Nat) (h : block.length ≤ s.length) :
    (xorFront block s).getD i 0#8 = if i < block.length then s.getD i 0#8 ^^^ block.getD i 0#8 else s.getD i 0#8 := by
  induction block generalizing s i with
  | nil => cases s <;> simp [xorFront]
  | cons b block ih =>
    cases s with
    | nil => simp at h
    | cons a s =>
      cases i with
      | zero => simp [xorFront]
      | succ i => simpa [xorFront] using ih s i (by simpa using h)

/-- The block operation on a full block is the commit spelled out cell by cell (40_digest_engine.md R83). -/
theorem commitBlock_eq_blockOp (cb : Backend) (k : Kind) (block : List Byte) (st : DState)
    (h : block.length = blockSize k) : commitBlock cb k block st = blockOp cb k block st := by
  cases st with
  | bytes s =>
    have hle : block.length ≤ s.toList.length := by have := blockSize_le k; simp; omega
    simp only [commitBlock, blockOp, DState.bytes.injEq]
    refine congrArg cb.keccakF (ext_cell _ _ fun i hi => ?_)
    have hd : (default : Byte) = 0#8 := rfl
    rw [cell_cells, if_pos hi, hd, getD_xorFront _ _ _ hle, cell_eq_getElem _ _ hi]
    simp [h, cell, hd, hi]
  | _ => rfl

theorem hasShape_commitBlock (cb : Backend) (k k' : Kind) (block : List Byte) (st : DState) :
    hasShape k (commitBlock cb k' block st) = hasShape k st := by
  cases k <;> cases st <;> rfl

/-- The state of a message has the shape of its kind. -/
theorem hasShape_blocksState (cb : Backend) (k : Kind) (m : List Byte) : hasShape k (blocksState cb k m) = true := by
  unfold blocksState
  generalize List.range _ = l
  have : ∀ st, hasShape k st = true → hasShape k
      (l.foldl (fun st i => commitBlock cb k ((m.drop (i * blockSize k)).take (blockSize k)) st) st) = true := by
    induction l with
    | nil => exact fun _ h => h
    | cons i l ih => exact fun st h => ih _ (by rwa [hasShape_commitBlock])
  exact this _ (hasShape_resetState cb k)

/-- `blocksState` by the block operation: one more block of a message, behind the full ones. -/
theorem blocksState_append_block (cb : Backend) (k : Kind) (m block rest : List Byte)
    (hm : m.length % blockSize k = 0) (hb : block.length = blockSize k) (hr : rest.length < blockSize k) :
    blocksState cb k (m ++ block ++ rest) = blockOp cb k block (blocksState cb k m) := by
  have hpos := blockSize_pos k
  have hdiv : m.length = m.length / blockSize k * blockSize k := by
    have := Nat.div_add_mod m.length (blockSize k); rw [Nat.mul_comm]; omega
  have hn : (m ++ block ++ rest).length / blockSize k = m.length / blockSize k + 1 := by
    have : (m ++ block ++ rest).length = rest.length + blockSize k * (m.length / blockSize k + 1) := by
      rw [Nat.mul_add, Nat.mul_comm]; simp; omega
    rw [this, Nat.add_mul_div_left _ _ hpos, Nat.div_eq_of_lt hr, Nat.zero_add]
  unfold blocksState
  rw [hn, List.range_succ, List.foldl_append]
  generalize m.length / blockSize k = q at hdiv ⊢
  have hfold : ∀ st, (List.range q).foldl
      (fun st i => commitBlock cb k (((m ++ block ++ rest).drop (i * blockSize k)).take (blockSize k)) st) st =
      (List.range q).foldl (fun st i => commitBlock cb k ((m.drop (i * blockSize k)).take (blockSize k)) st) st := by
    intro st
    apply List.foldl_ext
    intro st i hi
    have hi' : (i + 1) * blockSize k ≤ q * blockSize k := Nat.mul_le_mul_right _ (List.mem_range.mp hi)
    rw [Nat.succ_mul] at hi'
    rw [List.append_assoc, List.drop_append_of_le_length (by omega),
      List.take_append_of_le_length (by rw [List.length_drop]; omega)]
  have hlast : ((m ++ block ++ rest).drop (q * blockSize k)).take (blockSize k) = block := by
    rw [← hdiv, List.append_assoc, List.drop_left, ← hb, List.take_left]
  simp only [List.foldl_cons, List.foldl_nil, hfold, hlast]
  exact commitBlock_eq_blockOp cb k block _ hb

/-- Byte `i` of a big-endian value. -/
theorem getD_beBytes (n x i : Nat) (h : i < n) : (beBytes n x).getD i 0#8 = BitVec.ofNat 8 (x / 256 ^ (n - 1 - i)) := by
  have hle : ∀ (n x i : Nat), i < n → (leBytes n x).getD i 0#8 = BitVec.ofNat 8 (x / 256 ^ i) := by
    intro n
    induction n with
    | zero => intro _ _ h; omega
    | succ n ih =>
      intro x i h
      cases i with
      | zero => simp [leBytes]
      | succ i =>
        simp only [leBytes, List.getD_cons_succ]
        rw [ih _ _ (by omega), Nat.div_div_eq_div_mul, Nat.pow_succ']
  rw [← hle n x (n - 1 - i) (by omega)]
  simp only [beBytes, List.getD_eq_getElem?_getD]
  rw [List.getElem?_reverse (by simpa using h), length_leBytes]

/-- Byte `i` of the words of an array, each serialized big-endian (41_merkle_damgard.md R103). -/
theorem getD_flatMap_beBytes {W : Nat} (wb : Nat) (l : List (BitVec W)) (i : Nat) (h : i < wb * l.length) :
    (l.flatMap fun x => beBytes wb x.toNat).getD i 0#8 = (l.getD (i / wb) 0#W).extractLsb' (8 * (wb - 1 - i % wb)) 8 := by
  induction l generalizing i with
  | nil => simp at h
  | cons x l ih =>
    have hpos : 0 < wb := by rcases Nat.eq_zero_or_pos wb with h0 | h0 <;> simp_all
    rw [List.flatMap_cons]
    by_cases hi : i < wb
    · have hb : (beBytes wb x.toNat).getD i 0#8 = BitVec.ofNat 8 (x.toNat / 256 ^ (wb - 1 - i)) := getD_beBytes _ _ _ hi
      rw [List.getD_append _ _ _ _ (by simpa using hi), hb, Nat.mod_eq_of_lt hi, Nat.div_eq_of_lt hi, List.getD_cons_zero]
      apply BitVec.eq_of_toNat_eq
      rw [BitVec.extractLsb'_toNat, BitVec.toNat_ofNat, Nat.shiftRight_eq_div_pow, Nat.pow_mul]
    · rw [List.getD_append_right _ _ _ _ (by simpa using hi), length_beBytes,
        ih _ (by rw [List.length_cons, Nat.mul_succ] at h; omega)]
      obtain ⟨j, rfl⟩ : ∃ j, i = wb + j := ⟨i - wb, by omega⟩
      rw [Nat.add_sub_cancel_left, Nat.add_mod_left, Nat.add_div_left _ hpos, List.getD_cons_succ]

theorem map_range_eq_take (f : Nat → Byte) (l : List Byte) (n : Nat) (hn : n ≤ l.length)
    (h : ∀ i, i < n → l.getD i 0#8 = f i) : (List.range n).map f = l.take n := by
  apply List.ext_getElem (by simpa using hn)
  intro i h1 h2
  have hi : i < n := by simpa using h1
  have := h i hi
  rw [List.getD_eq_getElem _ _ (by omega)] at this
  simp [this]

/-- The digest is what the extraction of either construction reads (41_merkle_damgard.md R103, 42_sponge.md R116). -/
theorem digestOf_eq (cb : Backend) (k : Kind) (m : List Byte) (dl : Nat) (h : digestLength k = some dl) :
    let st := blocksState cb k (m ++ padBytes k m.length)
    digestOf cb k m = if isSponge k then (spongeState st).toList.take dl else mdExtract st dl := by
  intro st
  have hs : hasShape k st = true := hasShape_blocksState _ _ _
  have hd : digestOf cb k m = (List.range dl).map (digestByte st) := by simp [digestOf, h, st]
  rw [hd]
  clear_value st
  have hw : ∀ {n : Nat} (v : Vector Word32 n), n = 5 ∨ n = 8 → dl ≤ 4 * n → ∀ i, i < dl →
      (v.toList.flatMap fun x => beBytes 4 x.toNat).getD i 0#8 = (cell v (i / 4)).extractLsb' (8 * (3 - i % 4)) 8 :=
    fun v _ hl i hi => getD_flatMap_beBytes 4 _ _ (by simp; omega)
  have hl : ∀ {n : Nat} (v : Vector Word64 n), dl ≤ 8 * n → ∀ i, i < dl →
      (v.toList.flatMap fun x => beBytes 8 x.toNat).getD i 0#8 = (cell v (i / 8)).extractLsb' (8 * (7 - i % 8)) 8 :=
    fun v hl i hi => getD_flatMap_beBytes 8 _ _ (by simp; omega)
  cases k <;> cases st <;> simp only [hasShape, Bool.false_eq_true] at hs <;>
    simp only [digestLength, Option.some.injEq, reduceCtorEq] at h <;> subst h <;>
    simp only [isSponge, if_true, Bool.false_eq_true, if_false, mdExtract, serialize, spongeState] <;>
    apply map_range_eq_take <;>
    first
    | exact hw _ (.inl rfl) (by decide)
    | exact hw _ (.inr rfl) (by decide)
    | exact hl _ (by decide)
    | exact fun _ _ => rfl
    | simp [List.length_flatMap]

end Sys2Proof.Machine
end

