-- ==== Sys2Proof/Laws/PerInstr.lean ====
section
/-! SUPPORT. Statements made per command: the family HeaderLegal. -/

namespace Sys2Proof.Laws.HeaderLegal

open Sys2Proof.Machine

/-- The header the encoder writes for a well-formed command lies in a row of the opcode table, so the
unit takes it as legal up to the range of `sel` (30_encoding.md R68). -/
def Statement (i : Instr) : Prop := i.wf = true → ∃ op, rowOf (encode i).hdr = .ok op

theorem rowOf_deNew (kind : Kind) : rowOf (header 0x10 kind.code 0) = .ok .deNew := by cases kind <;> decide
theorem rowOf_deUpdate : rowOf (header 0x11 0 0) = .ok .deUpdate := by decide
theorem rowOf_deDigest : rowOf (header 0x12 0 0) = .ok .deDigest := by decide
theorem rowOf_deReset : rowOf (header 0x13 0 0) = .ok .deReset := by decide
theorem rowOf_xofNew (level : Level) : rowOf (header 0x20 level.sel 0) = .ok .xofNew := by cases level <;> decide
theorem rowOf_xofDigest : rowOf (header 0x21 0 0) = .ok .xofDigest := by decide
theorem rowOf_xofRead : rowOf (header 0x22 0 0) = .ok .xofRead := by decide
theorem rowOf_mtSeedR (v : Variant) : rowOf (header 0x30 v.sel 0) = .ok .mtSeedR := by cases v <;> decide
theorem rowOf_mtSeed (v : Variant) : rowOf (header 0x31 v.sel 0) = .ok .mtSeed := by cases v <;> decide
theorem rowOf_mtSeedA (v : Variant) : rowOf (header 0x32 v.sel 0) = .ok .mtSeedA := by cases v <;> decide
theorem rowOf_mtNext (v : Variant) : rowOf (header 0x33 v.sel 0) = .ok .mtNext := by cases v <;> decide
theorem rowOf_mtNextW (v : Variant) : rowOf (header 0x34 v.sel 0) = .ok .mtNextW := by cases v <;> decide
theorem rowOf_mtBit (v : Variant) : rowOf (header 0x35 v.sel 0) = .ok .mtBit := by cases v <;> decide
theorem rowOf_mtDouble (v : Variant) (closed : Bool) : rowOf (header 0x36 v.sel closed.toNat) = .ok .mtDouble := by
  cases v <;> cases closed <;> decide
theorem rowOf_mtGetState (v : Variant) : rowOf (header 0x37 v.sel 0) = .ok .mtGetState := by cases v <;> decide
theorem rowOf_mtSetState (v : Variant) : rowOf (header 0x38 v.sel 0) = .ok .mtSetState := by cases v <;> decide
theorem rowOf_rsInt (v : Variant) (closed signed : Bool) (wc : WidthCode) :
    rowOf (header 0x40 v.sel (closed.toNat + 2 * signed.toNat + 4 * wc.code)) = .ok .rsInt := by
  cases v <;> cases closed <;> cases signed <;> cases wc <;> decide
theorem rowOf_rsFloat (v : Variant) (closed : Bool) : rowOf (header 0x41 v.sel closed.toNat) = .ok .rsFloat := by
  cases v <;> cases closed <;> decide

theorem deNew (kind : Kind) : Statement (.deNew kind) := fun _ => ⟨_, rowOf_deNew kind⟩
theorem deUpdate (data : List Byte) : Statement (.deUpdate data) := fun _ => ⟨_, rowOf_deUpdate⟩
theorem deDigest (data : List Byte) : Statement (.deDigest data) := fun _ => ⟨_, rowOf_deDigest⟩
theorem deReset : Statement .deReset := fun _ => ⟨_, rowOf_deReset⟩
theorem xofNew (level : Level) : Statement (.xofNew level) := fun _ => ⟨_, rowOf_xofNew level⟩
theorem xofDigest (n : Word64) : Statement (.xofDigest n) := fun _ => ⟨_, rowOf_xofDigest⟩
theorem xofRead (n : Word64) : Statement (.xofRead n) := fun _ => ⟨_, rowOf_xofRead⟩
theorem mtSeedR (v : Variant) : Statement (.mtSeedR v) := fun _ => ⟨_, rowOf_mtSeedR v⟩
theorem mtSeed (v : Variant) (arg0 : Word64) : Statement (.mtSeed v arg0) := fun _ => ⟨_, rowOf_mtSeed v⟩
theorem mtSeedA (v : Variant) (key : List Word64) : Statement (.mtSeedA v key) := fun _ => ⟨_, rowOf_mtSeedA v⟩
theorem mtNext (v : Variant) : Statement (.mtNext v) := fun _ => ⟨_, rowOf_mtNext v⟩
theorem mtNextW (v : Variant) : Statement (.mtNextW v) := fun _ => ⟨_, rowOf_mtNextW v⟩
theorem mtBit (v : Variant) : Statement (.mtBit v) := fun _ => ⟨_, rowOf_mtBit v⟩
theorem mtDouble (v : Variant) (closed : Bool) : Statement (.mtDouble v closed) := fun _ => ⟨_, rowOf_mtDouble v closed⟩
theorem mtGetState (v : Variant) : Statement (.mtGetState v) := fun _ => ⟨_, rowOf_mtGetState v⟩
theorem mtSetState (v : Variant) (img : List Byte) : Statement (.mtSetState v img) := fun _ => ⟨_, rowOf_mtSetState v⟩
theorem rsInt (v : Variant) (closed signed : Bool) (wc : WidthCode) (arg0 arg1 : Word64) :
    Statement (.rsInt v closed signed wc arg0 arg1) := fun _ => ⟨_, rowOf_rsInt v closed signed wc⟩
theorem rsFloat (v : Variant) (closed : Bool) (arg0 arg1 : Word64) : Statement (.rsFloat v closed arg0 arg1) :=
  fun _ => ⟨_, rowOf_rsFloat v closed⟩

end Sys2Proof.Laws.HeaderLegal
end

