-- ==== Sys2Proof/Laws/Twister.lean ====
section
/-! SUPPORT. The Mersenne Twister cores: what seeding, twist, extraction and import write, and which core
a draw touches. -/

namespace Sys2Proof.Machine

section
variable {W N : Nat} (p : MtParams W N)

@[simp] theorem seedScalar_seeded (s : BitVec W) : (seedScalar p s).seeded = true := rfl
@[simp] theorem seedScalar_w (s : BitVec W) : (seedScalar p s).w = BitVec.ofNat 10 N := rfl
@[simp] theorem seedArray_seeded (key : List (BitVec W)) : (seedArray p key).seeded = true := rfl
@[simp] theorem seedArray_w (key : List (BitVec W)) : (seedArray p key).w = BitVec.ofNat 10 N := rfl
@[simp] theorem twist_seeded (c : MtCore W N) : (twist p c).seeded = c.seeded := rfl
@[simp] theorem twist_w (c : MtCore W N) : (twist p c).w = 0#10 := rfl

@[simp] theorem length_seedTail (n i : Nat) (x : BitVec W) : (seedTail p n i x).length = n := by
  induction n generalizing i x with
  | zero => rfl
  | succ n ih => simp [seedTail, ih]

@[simp] theorem readied_seeded (c : MtCore W N) : (readied p c).seeded = c.seeded := by
  unfold readied; split <;> rfl

@[simp] theorem nextWord_seeded (c : MtCore W N) : (nextWord p c).2.seeded = c.seeded := by simp [nextWord]

/-- The index after an extraction from a core whose index is in range (43_mersenne_twister.md R138). -/
theorem nextWord_w (c : MtCore W N) (hN : N < 1023) (hw : c.w.toNat ≤ N) :
    (nextWord p c).2.w.toNat = if c.w.toNat = N then 1 else c.w.toNat + 1 := by
  have h1 : (1 : BitVec 10).toNat = 1 := rfl
  by_cases h : c.w.toNat = N
  · simp [nextWord, readied, h]
  · simp only [nextWord, readied, h, if_false, BitVec.toNat_add, h1]
    omega

end

/-- A core that an import answers is seeded, and its index is in range (43_mersenne_twister.md R149). -/
theorem importImage_some {W N : Nat} {img : List Byte} {c : MtCore W N} (h : importImage W N img = some c) :
    img.length = imageBytes ∧ fromLE (img.take 2) ≤ N ∧ c.seeded = true ∧ c.w = BitVec.ofNat 10 (fromLE (img.take 2)) := by
  simp only [importImage] at h
  split at h
  · cases h
  · next h1 =>
    split at h
    · cases h
    · next h2 => cases h; exact ⟨by simpa using h1, by omega, rfl, rfl⟩

/-- An extraction of one core leaves the engine and the other core alone (10_state.md R29). -/
theorem drawWord_mt32 (r : Regs) : (drawWord .mt32 r).2 = { r with mt32 := (nextWord mt32Params r.mt32).2 } := rfl
theorem drawWord_mt64 (r : Regs) : (drawWord .mt64 r).2 = { r with mt64 := (nextWord mt64Params r.mt64).2 } := rfl

@[simp] theorem drawWord_de (v : Variant) (r : Regs) : (drawWord v r).2.de = r.de := by cases v <;> rfl
@[simp] theorem draw53_de (v : Variant) (r : Regs) : (draw53 v r).2.de = r.de := by cases v <;> rfl
@[simp] theorem nextDouble_regs (v : Variant) (closed : Bool) (r : Regs) : (nextDouble v closed r).2 = (draw53 v r).2 := rfl
@[simp] theorem nextDouble_value (v : Variant) (closed : Bool) (r : Regs) :
    (nextDouble v closed r).1 = unitDouble closed (draw53 v r).1 := rfl

/-- A draw keeps the invariants of the cores (10_state.md R24, 43_mersenne_twister.md R151(c)). -/
theorem nextWord_inv {W N : Nat} (p : MtParams W N) {c : MtCore W N} (hN : N < 1023) (hpos : 0 < N) (h : c.Inv) :
    (nextWord p c).2.Inv := by
  intro hs
  rw [nextWord_seeded] at hs
  have hw := h hs
  rw [nextWord_w p c hN hw]
  split <;> omega

theorem drawWord_inv (v : Variant) {r : Regs} (h : r.Inv) : (drawWord v r).2.Inv := by
  cases v with
  | mt32 => exact ⟨h.engine, nextWord_inv mt32Params (by decide) (by decide) h.mt32, h.mt64⟩
  | mt64 => exact ⟨h.engine, h.mt32, nextWord_inv mt64Params (by decide) (by decide) h.mt64⟩

theorem draw53_inv (v : Variant) {r : Regs} (h : r.Inv) : (draw53 v r).2.Inv := by
  cases v with
  | mt32 => exact drawWord_inv .mt32 (drawWord_inv .mt32 h)
  | mt64 => exact drawWord_inv .mt64 h

/-- A core right after seeding meets its invariant. -/
theorem seedScalar_inv {W N : Nat} (p : MtParams W N) (s : BitVec W) (hN : N < 1024) : (seedScalar p s).Inv := by
  intro _
  simp only [seedScalar_w, BitVec.toNat_ofNat]
  omega

theorem seedArray_inv {W N : Nat} (p : MtParams W N) (key : List (BitVec W)) (hN : N < 1024) : (seedArray p key).Inv := by
  intro _
  simp only [seedArray_w, BitVec.toNat_ofNat]
  omega

theorem importImage_inv {W N : Nat} {img : List Byte} {c : MtCore W N} (hN : N < 1024) (h : importImage W N img = some c) :
    c.Inv := by
  obtain ⟨_, hw, _, hc⟩ := importImage_some h
  intro _
  rw [hc, BitVec.toNat_ofNat]
  omega

theorem length_flatMap_leBytes {W : Nat} (n : Nat) (l : List (BitVec W)) :
    (l.flatMap fun x => leBytes n x.toNat).length = n * l.length := by
  induction l with
  | nil => simp
  | cons a l ih => simp [ih, Nat.mul_succ]; omega

/-- The image of either core has 2498 bytes (43_mersenne_twister.md R148). -/
theorem length_imageOf (v : Variant) (r : Regs) : (imageOf v r).length = imageBytes := by
  cases v <;> simp only [imageOf, stateImage, List.length_append, length_leBytes, length_flatMap_leBytes, Vector.length_toList] <;> rfl

end Sys2Proof.Machine
end

