-- ==== Sys2Proof/Tests/Slice0.lean ====
section
/-! SUPPORT. The model's own tests: ill-formed commands, words written out from 30_encoding.md, effects
whose results are the vectors of 95_test_vectors.md, and a witness for the hypotheses of every statement. -/

namespace Sys2Proof.Tests

open Sys2Proof.Machine Sys2Proof.Config

set_option Elab.async false

/-! Ill-formed commands, one for each check of WellFormed. -/

theorem smoke_private_kind : Instr.wf (.deNew .k128) = false := by decide
theorem smoke_update_length (n : Nat) (h : 2 ^ 64 ≤ n) : Instr.wf (.deUpdate (List.replicate n 0)) = false := by
  simpa [Instr.wf] using h
theorem smoke_digest_length (n : Nat) (h : 2 ^ 64 ≤ n) : Instr.wf (.deDigest (List.replicate n 0)) = false := by
  simpa [Instr.wf] using h
theorem smoke_image_length (n : Nat) (h : 2 ^ 64 ≤ n) : Instr.wf (.mtSetState .mt64 (List.replicate n 0)) = false := by
  simpa [Instr.wf] using h
theorem smoke_key_length (n : Nat) (h : 2 ^ 64 ≤ n) : Instr.wf (.mtSeedA .mt64 (List.replicate n 0)) = false := by
  simp [Instr.wf]; omega
theorem smoke_key_element : Instr.wf (.mtSeedA .mt32 [0x100000000]) = false := by decide

/-! Decoding: headers written field by field, `op ++ sel ++ flags ++ zero` (30_encoding.md R60, R62 to R64). -/

/-- A header from its four fields. -/
def fields (op sel flags zero : Byte) : Word32 := op ++ sel ++ flags ++ zero

theorem decode_deNew : decode ⟨fields 0x10 0x02 0x00 0x00, 0, 0, []⟩ = .ok (.deNew .sha256) := by decide
theorem decode_deUpdate : decode ⟨fields 0x11 0x00 0x00 0x00, 3, 0, [0x61, 0x62, 0x63]⟩ =
    .ok (.deUpdate [0x61, 0x62, 0x63]) := by decide
theorem decode_deDigest : decode ⟨fields 0x12 0x00 0x00 0x00, 1, 0, [0x61]⟩ = .ok (.deDigest [0x61]) := by decide
theorem decode_deReset : decode ⟨fields 0x13 0x00 0x00 0x00, 5, 6, []⟩ = .ok .deReset := by decide
theorem decode_xofNew : decode ⟨fields 0x20 0x01 0x00 0x00, 0, 0, []⟩ = .ok (.xofNew .l256) := by decide
theorem decode_xofDigest : decode ⟨fields 0x21 0x00 0x00 0x00, 32, 0, []⟩ = .ok (.xofDigest 32) := by decide
theorem decode_xofRead : decode ⟨fields 0x22 0x00 0x00 0x00, 10, 0, []⟩ = .ok (.xofRead 10) := by decide
theorem decode_mtSeedR : decode ⟨fields 0x30 0x01 0x00 0x00, 0, 0, []⟩ = .ok (.mtSeedR .mt64) := by decide
theorem decode_mtSeed : decode ⟨fields 0x31 0x00 0x00 0x00, 0x1571, 0, []⟩ = .ok (.mtSeed .mt32 0x1571) := by decide
theorem decode_mtSeedA : decode ⟨fields 0x32 0x01 0x00 0x00, 1, 0, [0x45, 0x23, 0x01, 0, 0, 0, 0, 0x80]⟩ =
    .ok (.mtSeedA .mt64 [0x8000000000012345]) := by decide
theorem decode_mtNext : decode ⟨fields 0x33 0x00 0x00 0x00, 0, 0, []⟩ = .ok (.mtNext .mt32) := by decide
theorem decode_mtNextW : decode ⟨fields 0x34 0x01 0x00 0x00, 0, 0, []⟩ = .ok (.mtNextW .mt64) := by decide
theorem decode_mtBit : decode ⟨fields 0x35 0x00 0x00 0x00, 0, 0, []⟩ = .ok (.mtBit .mt32) := by decide
theorem decode_mtDouble : decode ⟨fields 0x36 0x01 0x01 0x00, 0, 0, []⟩ = .ok (.mtDouble .mt64 true) := by decide
theorem decode_mtGetState : decode ⟨fields 0x37 0x00 0x00 0x00, 0, 0, []⟩ = .ok (.mtGetState .mt32) := by decide
theorem decode_mtSetState : decode ⟨fields 0x38 0x01 0x00 0x00, 2, 0, [7, 8]⟩ = .ok (.mtSetState .mt64 [7, 8]) := by decide
/-- flags 0x0D: closed, unsigned, wc = 3. -/
theorem decode_rsInt : decode ⟨fields 0x40 0x01 0x0D 0x00, 1, 6, []⟩ = .ok (.rsInt .mt64 true false .w64 1 6) := by decide
/-- flags 0x06: open, signed, wc = 1. -/
theorem decode_rsInt_signed : decode ⟨fields 0x40 0x00 0x06 0x00, 1, 6, []⟩ =
    .ok (.rsInt .mt32 false true .w16 1 6) := by decide
theorem decode_rsFloat : decode ⟨fields 0x41 0x00 0x01 0x00, 1, 2, []⟩ = .ok (.rsFloat .mt32 true 1 2) := by decide
/-- V76: MT.DOUBLE with flag bit 9. -/
theorem decode_reserved_flag : decode ⟨fields 0x36 0x00 0x02 0x00, 0, 0, []⟩ = .error .reservedBits := by decide
/-- V77: XOF.NEW with sel = 2. -/
theorem decode_reserved_level : decode ⟨fields 0x20 0x02 0x00 0x00, 0, 0, []⟩ = .error .selOutOfRange := by decide
theorem decode_short_payload : decode ⟨fields 0x11 0x00 0x00 0x00, 3, 0, [0x61]⟩ = .error .payloadLength := by decide
theorem encode_rsInt : (encode (.rsInt .mt64 true true .w16 1 6)).hdr = fields 0x40 0x01 0x07 0x00 := by decide

/-! Effects. -/

/-- The state after a list of commands, each completing or faulting. -/
def after (s : State) : List Instr → State
  | [] => s
  | i :: is => after (Client.issue s i) is

/-- What stands on RES after a list of commands. -/
def res (s : State) (is : List Instr) : Option Word64 :=
  match (after s is).reply with
  | some (.ok _ r) => r
  | some (.fault _) => none
  | some (.refused _) => none
  | none => none

/-- What stands on DOUT after a list of commands. -/
def out (s : State) (is : List Instr) : List Byte := Client.dout (after s is)

/-- STATUS after a list of commands from reset. -/
def status (is : List Instr) : BitVec 9 := (after State.reset is).status

/-- STATUS after one raw command from reset. -/
def rawStatus (hdr : Word32) : Option (BitVec 9) :=
  match step (State.reset.enqueue ⟨hdr, 0, 0, []⟩) with
  | .next t => some t.status
  | .fault _ => none
  | .refused _ => none

/-- V73 to V75: illegal headers. -/
theorem test_illegal_headers : rawStatus 0x14000000#32 = some 0x003#9 ∧ rawStatus 0x10090000#32 = some 0x003#9 ∧
    rawStatus 0x13000001#32 = some 0x003#9 := by decide +kernel
/-- V60. -/
theorem test_update_without_engine : status [.deUpdate [0x61]] = 0x005#9 := by decide +kernel
/-- V63: the kind guard precedes the zero-length short-circuit. -/
theorem test_read_on_sha256 : status [.deNew .sha256, .xofRead 0] = 0x027#9 := by decide +kernel
/-- V65, V67: phase guard, and kind before phase. -/
theorem test_digest_after_read : status [.xofNew .l256, .xofRead 1, .deDigest []] = 0x069#9 ∧
    status [.xofNew .l128, .xofRead 1, .deDigest []] = 0x067#9 := by decide +kernel
/-- V68: reset leaves SQUEEZE. -/
theorem test_reset_after_read : out State.reset [.xofNew .l256, .xofRead 1, .deReset, .xofDigest 4] =
    [0x46, 0xb9, 0xdd, 0x2b] := by decide +kernel
/-- V69. -/
theorem test_empty_key : status [.mtSeedA .mt32 []] = 0x00f#9 := by decide +kernel
/-- V70. -/
theorem test_getState_unseeded : status [.mtGetState .mt64] = 0x00d#9 := by decide +kernel
/-- V72: a NaN bound, an infinite span, an empty range. -/
theorem test_float_bad_range :
    status [.mtSeed .mt64 1, .rsFloat .mt64 true 0x7ff8000000000000 0x3ff0000000000000] = 0x111#9 ∧
    status [.mtSeed .mt64 1, .rsFloat .mt64 true 0xffe0000000000000 0x7fe0000000000000] = 0x111#9 := by decide +kernel
/-- V33: equal ranges on an unseeded core; the bits of `lo` for signed zeros. -/
theorem test_equal_ranges : res State.reset [.rsInt .mt32 true false .w64 9 9] = some 9 ∧
    res State.reset [.rsFloat .mt32 true 0x8000000000000000 0] = some 0x8000000000000000 := by decide +kernel
/-- V38: the signed reading of narrow operands. -/
theorem test_narrow_signed_range : status [.rsInt .mt64 true true .w8 0x0A 0xF6] = 0x011#9 := by decide +kernel
/-- V78, V79: an engine whose counter is nearly full. -/
theorem test_length_overflow :
    (after { State.reset with regs := { State.reset.regs with
      de := { initEngine referenceBackend .sha256 with total := 0xfffffffffffffffe } } } [.deUpdate [0x61, 0x62]]).status = 0x02b#9 ∧
    (after { State.reset with regs := { State.reset.regs with
      de := { initEngine referenceBackend .sha256 with total := 0xfffffffffffffffe } } } [.deUpdate [0x61]]).status = 0x020#9 := by
  decide +kernel

/-- V7, V8: the length pad at the cutoffs. -/
theorem test_length_pad :
    mdPad 55 64 = .ok [0x80, 0, 0, 0, 0, 0, 0, 0x01, 0xb8] ∧
    mdPad 56 64 = .ok (0x80 :: List.replicate 63 0 ++ [0, 0, 0, 0, 0, 0, 0x01, 0xc0]) ∧
    mdPad 111 128 = .ok ([0x80, 0, 0, 0, 0, 0, 0, 0, 0] ++ [0, 0, 0, 0, 0, 0, 0x03, 0x78]) := by decide +kernel
/-- V9: the sponge pad next to a block boundary. -/
theorem test_sponge_pad : spongePad 135 136 0x06 = [0x86] ∧ spongePad 166 168 0x1f = [0x1f, 0x80] ∧
    spongePad 72 72 0x06 = 0x06 :: List.replicate 70 0 ++ [0x80] := by decide +kernel

/-- V2: SHA1 of "abc", first and last words. -/
theorem test_sha1 : (fun d => (d.take 4, d.drop 16)) (out State.reset [.deNew .sha1, .deDigest [0x61, 0x62, 0x63]]) =
    ([0xa9, 0x99, 0x3e, 0x36], [0x9c, 0xd0, 0xd8, 0x9d]) := by decide +kernel
/-- V1: SHA224 of the empty message, 28 bytes. -/
theorem test_sha224 : (fun d => (d.take 4, d.drop 24)) (out State.reset [.deNew .sha224, .deDigest []]) =
    ([0xd1, 0x4a, 0x02, 0x8c], [0xc5, 0xb3, 0xe4, 0x2f]) := by decide +kernel
/-- V2: SHA384 of "abc", 48 bytes. -/
theorem test_sha384 : (fun d => (d.take 4, d.drop 44)) (out State.reset [.deNew .sha384, .deDigest [0x61, 0x62, 0x63]]) =
    ([0xcb, 0x00, 0x75, 0x3f], [0x34, 0xc8, 0x25, 0xa7]) := by decide +kernel
/-- V6: SHA3-256 of the empty message; no permutation before the first read. -/
theorem test_sha3 : (out State.reset [.deNew .sha3x256, .deDigest []]).take 6 = [0xa7, 0xff, 0xc6, 0xf8, 0xbf, 0x1e] := by
  decide +kernel
/-- V14: incremental reads of the 128-bit XOF. -/
theorem test_xof_reads : out State.reset [.xofNew .l128, .deUpdate [0x61, 0x62, 0x63], .xofRead 10] =
    [0x58, 0x81, 0x09, 0x2d, 0xd8, 0x18, 0xbf, 0x5c, 0xf8, 0xa3] := by decide +kernel

/-- V25: tempering. -/
theorem test_temper : temper mt32Params 0x12345678 = 0x2b7e4a2d ∧
    temper mt64Params 0x123456789abcdef0 = 0xe175a7810680e100 := by decide +kernel
/-- V20, V24: words of the scalar-seeded arrays. -/
theorem test_scalar_seed :
    cell (seedScalar mt32Params 5489#32 : MtCore 32 624).X 623 = 0x04c46d8c ∧
    cell (seedScalar mt64Params 5489#64 : MtCore 64 312).X 311 = 0xc65ae95c45a5d796 := by decide +kernel
/-- An MT32 core after seed 5489, its first two words twisted, at `w = 0`; the first words of a stream need
no further one (R139). -/
def twisted32 : State :=
  { State.reset with regs := { State.reset.regs with
      mt32 := { X := twistAt mt32Params (twistAt mt32Params (seedScalar mt32Params 5489#32 : MtCore 32 624).X 0) 1,
                w := 0#10, seeded := true } } }

/-- V20, V24: the first native word after seed 5489; on MT64 with the whole twist. -/
theorem test_nextW : res twisted32 [.mtNextW .mt32] = some 3499211612 ∧
    res State.reset [.mtSeed .mt64 5489, .mtNextW .mt64] = some 14514284786278117030 := by decide +kernel
/-- V23: composition on MT32, first word high. -/
theorem test_next : res twisted32 [.mtNext .mt32] = some 0xd091bb5c22ae9ef6 := by decide +kernel
/-- V23: the first two bits of MT32 are 1, 0. -/
theorem test_bit : res twisted32 [.mtBit .mt32] = some 1 ∧ res twisted32 [.mtBit .mt32, .mtBit .mt32] = some 0 := by
  decide +kernel
/-- V23: a half-open double of MT32. -/
theorem test_double : res twisted32 [.mtDouble .mt32 false] = some 0x3fea1237688aba7b := by decide +kernel
/-- R137: with the draw 0x1571, MT.SEEDR leaves the state of MT.SEED with 5489. -/
theorem test_seedR : cell (after { State.reset with ent := 0x1571 } [.mtSeedR .mt32]).regs.mt32.X 1 = 0x4d98ee96 := by
  decide +kernel
/-- V28: the first bytes of the MT32 image. -/
theorem test_getState : (out State.reset [.mtSeed .mt32 5489, .mtGetState .mt32]).take 10 =
    [0x70, 0x02, 0x71, 0x15, 0, 0, 0x96, 0xee, 0x98, 0x4d] := by decide +kernel
/-- The first step of each pass of array seeding, calculated by hand from R135. -/
theorem test_seedA :
    cell (mixFirst mt32Params [0x123#32, 0x234#32]
      ⟨(seedScalar mt32Params mt32Params.S0 : MtCore 32 624).X, 1, 0⟩).X 1 = 0xff890ad4 ∧
    cell (mixSecond mt64Params ⟨(seedScalar mt64Params mt64Params.S0 : MtCore 64 312).X, 1, 0⟩).X 1 = 0xfbb02357dbed17e0 := by
  decide +kernel

/-- An MT64 core at `w = 5` with a chosen word there, as V35 and V36 build it. -/
def poised (x : Word64) : State :=
  { State.reset with regs := { State.reset.regs with
      mt64 := { X := (Vector.replicate 312 0#64).set 5 x, w := 5#10, seeded := true } } }

/-- V35: the clamp, and the open draw. -/
theorem test_int_clamp :
    res (poised 0x03a9803feaa40155) [.rsInt .mt64 true false .w64 0 0xffffffffffffffff] = some 0xffffffffffffffff ∧
    res (poised 0x03a9803feaa40155) [.rsInt .mt64 false false .w64 0 0xffffffffffffffff] = some 0xfffffffffffff800 := by
  decide +kernel
/-- V36: ties to even, and a float of the half draw. -/
theorem test_ties : res (poised 0x8240002410100100) [.rsInt .mt64 false false .w64 0 3] = some 2 ∧
    res (poised 0x8240002410100100) [.rsInt .mt64 false false .w64 0 5] = some 2 := by decide +kernel
theorem test_float : res (poised 0x8240002410100100) [.rsFloat .mt64 false 0x3ff0000000000000 0x4008000000000000] =
    some 0x4000000000000000 := by decide +kernel

/-- V84 and V85: an image of 2498 zero bytes is accepted, one with index 313 is ignored by MT64. -/
theorem test_setState :
    (after State.reset [.mtSetState .mt32 (List.replicate 2498 0)]).status = 0x080#9 ∧
    (after State.reset [.mtSetState .mt64 (0x39 :: 0x01 :: List.replicate 2496 0)]).status = 0x000#9 := by decide +kernel

/-! Witnesses: for each statement with hypotheses, concrete states and operands that meet all of them, at
the boundaries of its clauses. -/

/-- The reset state with this engine. -/
def engineAt (e : Engine) : State := { State.reset with regs := { State.reset.regs with de := e } }

/-- An engine of a kind with this counter and phase. -/
def counted (k : Kind) (total : Word64) (phase : Phase) : Engine :=
  { initEngine referenceBackend k with total := total, phase := phase }

/-- The reset state with both cores seeded. -/
def seededState : State :=
  { State.reset with regs := { State.reset.regs with
      mt32 := { X := Vector.replicate 624 1#32, w := 623#10, seeded := true },
      mt64 := { X := Vector.replicate 312 1#64, w := 312#10, seeded := true } } }

/-- A faulted unit. -/
def faulted : State := State.reset.raiseFault .badKind

/-- The reset state with these inputs. -/
def sent (inputs : List Input) : State := { State.reset with inputs := inputs }

theorem witness_DecodeInvertsEncode :
    Instr.wf (.mtSeedA .mt32 [0xffffffff]) = true ∧ Instr.wf (.deNew .sha3x512) = true := by decide
theorem witness_DecodedCommandsReencode :
    decode ⟨0x32000000#32, 1, 9, [0xff, 0xff, 0xff, 0xff]⟩ = .ok (.mtSeedA .mt32 [0xffffffff]) := by decide
theorem witness_UnusedArgumentWordsAreIgnored : decode ⟨0x13000000#32, 5, 6, []⟩ = .ok .deReset ∧
    decode ⟨0x31000000#32, 5, 6, []⟩ = .ok (.mtSeed .mt32 5) ∧
    decode ⟨0x41000000#32, 5, 6, []⟩ = .ok (.rsFloat .mt32 false 5 6) := by decide
theorem witness_HeaderFitsOneRowOrIsIllegal :
    (opcodeTable.filter fun r => r.fits 0x10080000#32).map (fun r => r.op) = [.deNew] := by decide
/-- A header for each reason to be illegal, and beside it a legal one. -/
theorem witness_IllegalHeadersFault :
    ([0x14000000#32, 0x13000001#32, 0x10090000#32, 0x20020000#32, 0x11010000#32, 0x30020000#32, 0x40001000#32,
      0x36000200#32, 0x41000200#32, 0x13000100#32].all fun h =>
        match decode ⟨h, 0, 0, []⟩ with
        | .ok _ => false
        | .error e => e.isIllegalHeader) = true ∧
    ([0x13000000#32, 0x10080000#32, 0x20010000#32, 0x11000000#32, 0x30010000#32, 0x40010F00#32, 0x36000100#32,
      0x41000100#32].all fun h => (decode ⟨h, 0, 0, []⟩).toOption.isSome) = true ∧
    (sent [.command ⟨0x14000000#32, 0, 0, []⟩ 7]).inputs = [.command ⟨0x14000000#32, 0, 0, []⟩ 7] ∧
    (sent [.command ⟨0x14000000#32, 0, 0, []⟩ 7]).fault = false := by decide
theorem witness_StepRunsTheDecodedCommand :
    (sent [.command ⟨0x13000000#32, 0, 0, []⟩ 7, .rst]).inputs = .command ⟨0x13000000#32, 0, 0, []⟩ 7 :: [.rst] ∧
    State.reset.fault = false ∧ decode ⟨0x13000000#32, 0, 0, []⟩ = .ok .deReset ∧
    decodeTableWord 32 0x13000000 = some .deReset ∧ State.reset.inputs = [] := by decide
theorem witness_PayloadLengthIsAnnounced : decode ⟨0x12000000#32, 1, 0, [7]⟩ = .ok (.deDigest [7]) := by decide
/-- Announced lengths at the edges: one byte short and one too many, of MT.SEEDA on either core, and one that fits. -/
theorem witness_OnlyAMismatchedPayloadStops :
    (sent [.command ⟨0x11000000#32, 1, 0, []⟩ 0]).fault = false ∧
    (sent [.command ⟨0x11000000#32, 1, 0, []⟩ 0]).inputs = .command ⟨0x11000000#32, 1, 0, []⟩ 0 :: [] ∧
    decode ⟨0x11000000#32, 1, 0, []⟩ = .error .payloadLength ∧ DecodeError.payloadLength.isIllegalHeader = false ∧
    ([] : List Byte).length ≠ announcedLength ⟨0x11000000#32, 1, 0, []⟩ ∧
    [0#8].length ≠ announcedLength ⟨0x13000000#32, 1, 0, [0]⟩ ∧
    announcedLength ⟨0x32000000#32, 3, 0, []⟩ = 12 ∧ announcedLength ⟨0x32010000#32, 3, 0, []⟩ = 24 ∧
    (match step (sent [.command ⟨0x11000000#32, 1, 0, []⟩ 0]) with
      | .next _ => false
      | .fault .portsOutOfStep => true
      | .refused _ => false) = true := by decide +kernel
theorem witness_CommandsCompleteOrFault : State.reset.fault = false ∧ seededState.fault = false ∧
    (sent [.command ⟨0x14000000#32, 0, 0, []⟩ 0]).inputs = .command ⟨0x14000000#32, 0, 0, []⟩ 0 :: [] ∧
    decode ⟨0x14000000#32, 0, 0, []⟩ ≠ .error .payloadLength ∧
    decode ⟨0x13000000#32, 0, 0, []⟩ ≠ .error .payloadLength := ⟨rfl, rfl, rfl, by decide, by decide⟩
theorem witness_CausesRaisedByEachCommand :
    Instr.wf .deReset = true ∧ State.reset.fault = false ∧ ∃ t, exec .deReset State.reset = .next t ∧ t.fault = true :=
  ⟨rfl, rfl, _, rfl, rfl⟩
theorem witness_FaultedUnitRefusesEverything : faulted.fault = true ∧
    ({ faulted with inputs := [.command ⟨0x10000000#32, 0, 0, []⟩ 0] } : State).fault = true ∧
    ∃ t, step { faulted with inputs := [.rst] } = .next t ∧ t.fault = false := ⟨rfl, rfl, _, rfl, rfl⟩
theorem witness_FaultEndsOnlyByReset : faulted.fault = true ∧ (∃ t, step faulted = .next t) ∧
    ∃ t, step { faulted with inputs := [.rst] } = .next t := ⟨rfl, ⟨_, rfl⟩, _, rfl⟩
theorem witness_FaultingCommandsKeepRegisters : State.reset.params.residue = .named ∧
    ∃ t, exec .deReset State.reset = .next t ∧ t.fault = true := ⟨rfl, _, rfl, rfl⟩
theorem witness_HardwareResetFromAnyState : ({ faulted with inputs := [.rst] } : State).inputs = .rst :: [] := rfl
/-- The clauses of the engine's checks, at the edges of the length tests. -/
theorem witness_EngineChecksComeInOrder :
    State.reset.regs.de.valid = false ∧ State.reset.fault = false ∧
    (counted .k128 0 .absorb).valid = true ∧ (counted .k128 0 .absorb).kind = .k128 ∧
    ¬ ((counted .sha3x512 0 .absorb).kind = .sha3x256 ∨ (counted .sha3x512 0 .absorb).kind = .k128) ∧
    (counted .sha3x256 0 .squeeze).phase = .squeeze ∧ (counted .sha3x256 0 .squeeze).kind ≠ .k128 ∧
    (1 : Word64) ≠ 0 ∧
    2 ^ 64 - 1 < (counted .sha256 0xffffffffffffffff .absorb).total.toNat + [0#8].length ∧
    2 ^ 61 ≤ (counted .sha256 0x2000000000000000 .absorb).total.toNat + ([] : List Byte).length ∧
    isSponge .sha256 = false ∧ isSponge .sha3x256 = true ∧
    2 ^ 64 - 1 < 0xffffffffffffffff + (blockSize .sha3x256 - 0xffffffffffffffff % blockSize .sha3x256) ∧
    2 ^ 64 - 1 < 0xffffffffffffffff + (blockSize .k128 - 0xffffffffffffffff % blockSize .k128) := by decide
/-- The clauses of the generator's and the sampler's checks. -/
theorem witness_GeneratorChecksComeInOrder :
    State.reset.fault = false ∧ isSeeded .mt32 State.reset.regs = false ∧
    boundOperand true .w8 0xF6 < boundOperand true .w8 0x0A ∧ boundOperand false .w8 0x0A < boundOperand false .w8 0xF6 ∧
    fpIsNaN 0x7ff8000000000000 = true ∧ fpIsInf 0xfff0000000000000 = true ∧
    fpValue 0x3ff0000000000000 < fpValue 0x4000000000000000 ∧
    fpIsInf (fpSub 0x7fe0000000000000 0xffe0000000000000) = true ∧
    fpIsNaN 0x3ff0000000000000 = false ∧ fpIsNaN 0x4000000000000000 = false ∧ fpIsInf 0x3ff0000000000000 = false ∧
    fpIsInf 0x4000000000000000 = false ∧ fpIsInf (fpSub 0x4000000000000000 0x3ff0000000000000) = false := by
  decide +kernel
theorem witness_EveryStepKeepsTheInvariant : State.reset.Inv ∧ step State.reset = .next State.reset :=
  ⟨⟨fun _ => ⟨nofun, nofun, nofun⟩, by decide⟩, rfl⟩
theorem witness_NewAndResetInitialiseTheEngine : (engineAt (initEngine referenceBackend .sha1)).fault = false ∧
    Kind.sha1 ≠ .k128 ∧ (engineAt (initEngine referenceBackend .sha1)).regs.de.valid = true := ⟨rfl, nofun, rfl⟩
/-- The largest payload the counter takes, and an engine that meets the invariant. -/
theorem witness_UpdateCompletes : (engineAt (counted .sha256 0xfffffffffffffffe .absorb)).fault = false ∧
    (counted .sha256 0xfffffffffffffffe .absorb).valid = true ∧ (counted .sha256 0xfffffffffffffffe .absorb).phase = .absorb ∧
    (counted .sha256 0xfffffffffffffffe .absorb).total.toNat + [0x61#8].length ≤ 2 ^ 64 - 1 ∧
    (initEngine referenceBackend .sha256).Inv := ⟨rfl, rfl, rfl, by decide, initEngine_inv _ _⟩
theorem witness_UpdateExtendsTheMessage :
    (engineAt (messageEngine referenceBackend .sha1 [0x61])).fault = false ∧
    (engineAt (messageEngine referenceBackend .sha1 [0x61])).regs.de = messageEngine referenceBackend .sha1 [0x61] ∧
    [0x61#8].length + [0x62#8].length ≤ 2 ^ 64 - 1 := ⟨rfl, rfl, by decide⟩
theorem witness_UpdateChunkingDoesNotMatter : (counted .k128 0xfffffffffffffffd .absorb).valid = true ∧
    (counted .k128 0xfffffffffffffffd .absorb).phase = .absorb ∧
    (counted .k128 0xfffffffffffffffd .absorb).total.toNat + [1#8].length + [2#8].length ≤ 2 ^ 64 - 1 :=
  ⟨rfl, rfl, by decide⟩
/-- The largest lengths of either construction. -/
theorem witness_DigestCompletes :
    (counted .sha256 0x1fffffffffffffff .absorb).valid = true ∧ (counted .sha256 0x1fffffffffffffff .absorb).phase = .absorb ∧
    digestLength .sha256 = some 32 ∧ (counted .sha256 0x1fffffffffffffff .absorb).total.toNat + ([] : List Byte).length < 2 ^ 61 ∧
    digestLength .sha3x512 = some 64 ∧
    0xffffffffffffffe7 + (blockSize .sha3x512 - 0xffffffffffffffe7 % blockSize .sha3x512) ≤ 2 ^ 64 - 1 ∧
    (initEngine referenceBackend .sha3x512).Inv := ⟨rfl, rfl, rfl, by decide, rfl, by decide, initEngine_inv _ _⟩
theorem witness_DigestIsTheFoldOverThePaddedMessage :
    (engineAt (messageEngine referenceBackend .sha512 [0x61])).regs.de = messageEngine referenceBackend .sha512 [0x61] ∧
    digestLength .sha512 = some 64 ∧ isSponge .sha512 = false ∧ [0x61#8].length + ([] : List Byte).length < 2 ^ 61 ∧
    isSponge .sha3x384 = true ∧ 1 + (blockSize .sha3x384 - 1 % blockSize .sha3x384) ≤ 2 ^ 64 - 1 :=
  ⟨rfl, rfl, rfl, by decide, rfl, by decide⟩
theorem witness_DigestTwiceGivesTheSameOutput :
    (after State.reset [.deNew .sha1]).fault = false ∧
    ∃ t, exec (.deDigest []) (after State.reset [.deNew .sha1]) = .next t ∧ t.fault = false := ⟨rfl, _, rfl, by decide +kernel⟩
theorem witness_LengthPadEndsOnABlock :
    ((64 : Nat) = 64 ∨ (64 : Nat) = 128) ∧ ((128 : Nat) = 64 ∨ (128 : Nat) = 128) ∧ 2 ^ 61 ≤ 2 ^ 61 ∧ 2 ^ 61 - 1 < 2 ^ 61 := by
  decide
theorem witness_SpongePadEndsOnTheNextBlock : 0 < blockSize .sha3x512 ∧ 72 - 71 % 72 = 1 ∧ 2 ≤ 72 - 70 % 72 := by decide
theorem witness_XofCommandsComplete :
    (counted .k128 0xffffffffffffff57 .absorb).valid = true ∧ (1 : Word64) ≠ 0 ∧
    ((counted .k128 0xffffffffffffff57 .absorb).kind = .sha3x256 ∨ (counted .k128 0xffffffffffffff57 .absorb).kind = .k128) ∧
    (counted .k128 0xffffffffffffff57 .absorb).phase = .absorb ∧
    0xffffffffffffff57 + (blockSize .k128 - 0xffffffffffffff57 % blockSize .k128) ≤ 2 ^ 64 - 1 ∧
    (counted .sha3x256 136 .squeeze).phase = .squeeze := by decide +kernel
theorem witness_ZeroLengthRequestsChangeNothing :
    (engineAt (counted .sha3x256 136 .squeeze)).fault = false ∧ (counted .sha3x256 136 .squeeze).valid = true ∧
    ((counted .sha3x256 136 .squeeze).kind = .sha3x256 ∨ (counted .sha3x256 136 .squeeze).kind = .k128) ∧
    ¬ ((counted .sha3x512 0 .absorb).kind = .sha3x256 ∨ (counted .sha3x512 0 .absorb).kind = .k128) := by decide +kernel
theorem witness_XofDigestDeliversTheSequence :
    (Kind.k128 = .sha3x256 ∨ Kind.k128 = .k128) ∧ (32 : Word64) ≠ 0 ∧
    (engineAt (messageEngine referenceBackend .k128 [0x61])).regs.de = messageEngine referenceBackend .k128 [0x61] ∧
    [0x61#8].length + (blockSize .k128 - [0x61#8].length % blockSize .k128) ≤ 2 ^ 64 - 1 :=
  ⟨.inr rfl, by decide, rfl, by decide⟩
/-- A cursor at the end of its block, and one after the first byte. -/
theorem witness_XofReadsWalkTheSequence :
    (Kind.sha3x256 = .sha3x256 ∨ Kind.sha3x256 = .k128) ∧ (1 : Word64) ≠ 0 ∧ 1 ≤ 1 ∧ 1 ≤ 136 ∧
    (engineAt (squeezedEngine referenceBackend .sha3x256 [] 136)).regs.de = squeezedEngine referenceBackend .sha3x256 [] 136 ∧
    (engineAt (messageEngine referenceBackend .sha3x256 [])).regs.de = messageEngine referenceBackend .sha3x256 [] ∧
    ([] : List Byte).length + (blockSize .sha3x256 - ([] : List Byte).length % blockSize .sha3x256) ≤ 2 ^ 64 - 1 :=
  ⟨.inl rfl, by decide, by decide, by decide, rfl, rfl, by decide⟩
theorem witness_SplittingAReadChangesNothing : (1 : Word64).toNat + (0xfffffffffffffffe : Word64).toNat < 2 ^ 64 ∧
    ∃ t u, exec (.xofRead 1) (after State.reset [.xofNew .l256]) = .next t ∧ t.fault = false ∧
      exec (.xofRead 1) t = .next u ∧ u.fault = false := ⟨by decide, _, _, rfl, by decide +kernel, rfl, by decide +kernel⟩
theorem witness_PhaseChangesOnlyAsTheTableShows :
    (∃ t, exec (.xofRead 1) (after State.reset [.xofNew .l256]) = .next t ∧ t.fault = false ∧ t.regs.de.phase = .squeeze) ∧
    ∃ t, exec .deReset (engineAt (counted .k128 168 .squeeze)) = .next t ∧ t.fault = false ∧ t.regs.de.phase = .absorb :=
  ⟨⟨_, rfl, by decide +kernel, by decide +kernel⟩, _, rfl, rfl, rfl⟩
theorem witness_ScalarSeedFollowsTheRecurrence : State.reset.fault = false ∧ 1 ≤ 623 ∧ 1 ≤ 311 := ⟨rfl, by decide, by decide⟩
theorem witness_EntropySeedIsAScalarSeedOfTheDraw : State.reset.fault = false := rfl
theorem witness_ArraySeedFollowsTheTwoPasses : State.reset.fault = false ∧ ([0] : List Word64) ≠ [] := ⟨rfl, nofun⟩
/-- Indices at the edges of the three parts of a twist. -/
theorem witness_TwistFollowsTheRecurrence : 0 < mt32Params.M ∧ mt32Params.M < 624 ∧ 0 < mt64Params.M ∧ mt64Params.M < 312 ∧
    312 - mt64Params.M ≤ 156 ∧ 310 < 312 - 1 ∧ 155 < 312 - mt64Params.M ∧ 226 < 624 - mt32Params.M ∧ 624 - mt32Params.M ≤ 227 ∧ 622 < 624 - 1 := by decide
theorem witness_seeded_cores : seededState.fault = false ∧ seededState.regs.mt32.seeded = true ∧
    seededState.regs.mt64.seeded = true ∧ isSeeded .mt32 seededState.regs = true ∧ isSeeded .mt64 seededState.regs = true ∧
    seededState.regs.mt32.w ≠ 624#10 ∧ seededState.regs.mt64.w = 312#10 := by decide +kernel
theorem witness_NativeExtractionTwistsWhenExhausted : seededState.fault = false ∧ seededState.regs.mt32.seeded = true ∧
    seededState.regs.mt64.seeded = true := ⟨rfl, rfl, rfl⟩
theorem witness_NextComposesNativeWords : seededState.fault = false ∧ seededState.regs.mt32.seeded = true ∧
    seededState.regs.mt64.seeded = true := ⟨rfl, rfl, rfl⟩
theorem witness_BitIsOneBitOfANativeWord : seededState.fault = false ∧ isSeeded .mt32 seededState.regs = true ∧
    isSeeded .mt64 seededState.regs = true := ⟨rfl, rfl, rfl⟩
theorem witness_DoubleTakesFiftyThreeBits : seededState.fault = false ∧ seededState.regs.mt32.seeded = true ∧
    seededState.regs.mt64.seeded = true := ⟨rfl, rfl, rfl⟩
theorem witness_UnitDrawsStayInTheUnitInterval : 0 < 2 ^ 53 ∧ 2 ^ 53 - 1 < 2 ^ 53 ∧ 0 ≤ 2 ^ 53 - 1 := by decide
theorem witness_StateImageIsLittleEndian : seededState.fault = false ∧ seededState.regs.mt32.seeded = true ∧
    seededState.regs.mt64.seeded = true ∧ 623 < 624 ∧ 3 < 4 ∧ 311 < 312 ∧ 7 < 8 := ⟨rfl, rfl, rfl, by decide⟩
/-- Images at both edges of the index test of either core, and one of the wrong length. -/
theorem witness_ImportAcceptsOrIgnores :
    State.reset.fault = false ∧ (List.replicate 2497 0#8).length ≠ 2498 ∧ (0x70#8 :: 0x02#8 :: List.replicate 2496 0#8).length = 2498 ∧
    (0x70#8).toNat + 256 * (0x02#8).toNat ≤ 624 ∧ 624 < (0x71#8).toNat + 256 * (0x02#8).toNat ∧
    (0x38#8).toNat + 256 * (0x01#8).toNat ≤ 312 ∧ 312 < (0x39#8).toNat + 256 * (0x01#8).toNat :=
  ⟨rfl, by decide +kernel, by decide +kernel, by decide, by decide, by decide, by decide⟩
theorem witness_ExportThenImportRestoresTheCore : seededState.Inv ∧ seededState.fault = false ∧
    isSeeded .mt32 seededState.regs = true ∧ isSeeded .mt64 seededState.regs = true := by
  refine ⟨⟨fun _ => ⟨nofun, fun _ => ?_, fun _ => ?_⟩, by decide⟩, rfl, rfl, rfl⟩
  · exact (by decide : (623#10).toNat ≤ 624)
  · exact (by decide : (312#10).toNat ≤ 312)
theorem witness_IntegerSampleLiesInTheRange : seededState.fault = false ∧ isSeeded .mt64 seededState.regs = true ∧
    boundOperand false .w64 0 < boundOperand false .w64 0xffffffffffffffff ∧
    boundOperand true .w8 0x80 < boundOperand true .w8 0x7f := ⟨rfl, rfl, by decide, by decide⟩
theorem witness_EqualRangesConsumeNoDraw : State.reset.fault = false ∧
    boundOperand true .w8 0x180 = boundOperand true .w8 0x80 ∧ fpIsNaN 0x8000000000000000 = false ∧
    fpIsInf 0x8000000000000000 = false ∧ fpIsNaN 0 = false ∧ fpIsInf 0 = false ∧ fpValue 0x8000000000000000 = fpValue 0 := by
  decide +kernel
theorem witness_FloatSampleLiesInTheRange : seededState.fault = false ∧ isSeeded .mt32 seededState.regs = true ∧
    fpIsNaN 0xffdfffffffffffff = false ∧ fpIsInf 0xffdfffffffffffff = false ∧ fpIsNaN 0x7fdfffffffffffff = false ∧
    fpIsInf 0x7fdfffffffffffff = false ∧ fpValue 0xffdfffffffffffff < fpValue 0x7fdfffffffffffff ∧
    fpIsInf (fpSub 0x7fdfffffffffffff 0xffdfffffffffffff) = false := by decide +kernel
theorem witness_RoundingIsToNearestEven : 0 < 1 ∧ 1 * 2 ≤ 3 * 1 ∧ 0x7FF * 2 ^ 52 - 1 < 0x7FF * 2 ^ 52 ∧
    flUnits (fpUnits 0x7fefffffffffffff) 1 < 0x7FF * 2 ^ 52 := by decide +kernel
theorem witness_CompletedCommandsKeepTheirFrame :
    ∃ t, exec (.mtBit .mt32) seededState = .next t ∧ t.fault = false := ⟨_, rfl, rfl⟩
theorem witness_OutputsGoToTheirPorts : ∃ t dout res, exec (.mtSeed .mt32 1) State.reset = .next t ∧
    t.reply = some (.ok dout res) := ⟨_, _, _, rfl, rfl⟩
theorem witness_CommandsDependOnRegistersOnly : ∀ v, Instr.deReset ≠ .mtSeedR v := nofun
theorem witness_RepeatedCommandsAreIdempotent :
    (∃ t, exec (.deNew .sha1) State.reset = .next t ∧ t.fault = false) ∧
    (∃ t, exec (.rsInt .mt32 true true .w8 0x180 0x80) State.reset = .next t ∧ t.fault = false) ∧
    boundOperand true .w8 0x180 = boundOperand true .w8 0x80 :=
  ⟨⟨_, rfl, rfl⟩, ⟨_, rfl, by decide +kernel⟩, by decide⟩
theorem witness_HmacIsTheNestedDigest : State.reset.fault = false ∧ Kind.sha256 ≠ .k128 ∧
    (List.replicate 65 0#8).length < 2 ^ 60 ∧ blockSize .sha256 < (List.replicate 65 0#8).length ∧
    (List.replicate 64 0#8).length < 2 ^ 60 := ⟨rfl, nofun, by decide, by decide, by decide⟩
/-- Finite operands of each clause: sums and differences that are zero, negative and not zero, and a quotient
at either side of the overflow. -/
theorem witness_FpOperationsRoundTheExactResult :
    fpIsNaN 0x8000000000000000 = false ∧ fpIsInf 0x8000000000000000 = false ∧ fpIsNaN 0xffefffffffffffff = false ∧
    fpIsInf 0xffefffffffffffff = false ∧ fpValue 0x8000000000000000 + fpValue 0x8000000000000000 = 0 ∧
    fpValue 0x8000000000000000 + fpValue 0xffefffffffffffff < 0 ∧
    fpValue 0xffefffffffffffff - fpValue 0xffefffffffffffff = 0 ∧ fpValue 0 - fpValue 0xffefffffffffffff ≠ 0 ∧
    0 < 1 ∧ (2 ^ 54 - 1) * 2 ^ 2044 * 1 - 1 < (2 ^ 54 - 1) * 2 ^ 2044 * 1 := by decide +kernel

end Sys2Proof.Tests
end

/-! PROOFS. What a command does once its guards are passed: its effect, when the effect completes and with
what, and which causes it can raise. Every statement about `exec` goes through `exec_eq_perform`. -/

namespace Sys2Proof.Machine

open Sys2Proof.Config

/-- The effect of a command in a state, before guard 0 of 60_exceptions.md R199 is applied. -/
def effectOf (s : State) : Instr → Effect
  | .deNew kind => onEngine s.regs (newEngine (backendOf s.params.backend) kind)
  | .deUpdate data => onEngine s.regs (updateEngine (backendOf s.params.backend) s.regs.de data)
  | .deDigest data => onEngine s.regs (digestEngine (backendOf s.params.backend) s.regs.de data)
  | .deReset => onEngine s.regs (resetEngine (backendOf s.params.backend) s.regs.de)
  | .xofNew level => onEngine s.regs (.ok (initEngine (backendOf s.params.backend) (kindOfLevel level), []))
  | .xofDigest n => onEngine s.regs (digestXof (backendOf s.params.backend) s.regs.de n.toNat)
  | .xofRead n => onEngine s.regs (readXof (backendOf s.params.backend) s.regs.de n.toNat)
  | .mtSeedR v => .ok (silent (seededWith v s.ent s.regs))
  | .mtSeed v arg0 => .ok (silent (seededWith v arg0 s.regs))
  | .mtSeedA v key => seedAEffect v key s.regs
  | .mtNext v => extraction v (drawNext s.params.mt32Compose v) s.regs
  | .mtNextW v => extraction v (drawWord v) s.regs
  | .mtBit v => extraction v (drawBit s.params.mtBit v) s.regs
  | .mtDouble v closed => extraction v (nextDouble v closed) s.regs
  | .mtGetState v => getStateEffect v s.regs
  | .mtSetState v img => setStateEffect s.params.setStateReport v img s.regs
  | .rsInt v closed signed wc arg0 arg1 =>
    rsIntEffect v closed signed wc (boundOperand signed wc arg0) (boundOperand signed wc arg1) s.regs
  | .rsFloat v closed arg0 arg1 => rsFloatEffect v closed arg0 arg1 s.regs

/-- Every command is `perform` of its effect. -/
theorem exec_eq_perform (i : Instr) (s : State) : exec i s = perform s (effectOf s i) := by cases i <;> rfl

theorem exec_of_effect_ok {i : Instr} {s : State} {d : Done} (hf : s.fault = false) (h : effectOf s i = .ok d) :
    exec i s = .next (s.complete d) := by
  rw [exec_eq_perform, h, perform_ok hf]

theorem exec_of_effect_error {i : Instr} {s : State} {c : Cause} (hf : s.fault = false) (h : effectOf s i = .error c) :
    exec i s = .next (s.raiseFault c) := by
  rw [exec_eq_perform, h, perform_error hf]

/-- Everything a command can do: be refused, complete, or raise the fault of its effect. -/
theorem exec_cases {i : Instr} {s t : State} (h : exec i s = .next t) :
    (s.fault = true ∧ t = s.refuse) ∨
    (s.fault = false ∧ ∃ d, effectOf s i = .ok d ∧ t = s.complete d) ∨
    (s.fault = false ∧ ∃ c, effectOf s i = .error c ∧ t = s.raiseFault c) :=
  perform_cases (exec_eq_perform i s ▸ h)

/-- A command that leaves the unit unfaulted has completed. -/
theorem exec_completed {i : Instr} {s t : State} (h : exec i s = .next t) (ht : t.fault = false) :
    ∃ d, effectOf s i = .ok d ∧ t = s.complete d := by
  rcases exec_cases h with ⟨hf, rfl⟩ | ⟨_, hd⟩ | ⟨_, c, _, rfl⟩
  · simp [hf] at ht
  · exact hd
  · simp at ht

theorem requireSome_eq_ok {α : Type} {o : Option α} {c : Cause} {a : α} : requireSome o c = .ok a ↔ o = some a := by
  cases o <;> simp

/-! When an engine command completes, and with what. -/

section
variable {cb : Backend} {e e' : Engine} {data out : List Byte} {n : Nat} {k : Kind}

theorem newEngine_eq (cb : Backend) (k : Kind) :
    newEngine cb k = if k = .k128 then .error .illegalCommand else .ok (initEngine cb k, []) := by
  cases k <;> rfl

theorem newEngine_ok (h : newEngine cb k = .ok (e', out)) : k ≠ .k128 ∧ e' = initEngine cb k ∧ out = [] := by
  rw [newEngine_eq] at h
  split at h
  · cases h
  · next hk => cases h; exact ⟨hk, rfl, rfl⟩

theorem updateEngine_ok (h : updateEngine cb e data = .ok (e', out)) :
    e.valid = true ∧ e.phase = .absorb ∧ absorb cb e data = .ok e' ∧ out = [] := by
  simp only [updateEngine, bind_eq_ok, require_eq_ok] at h
  obtain ⟨_, hv, _, hp, e1, ha, h⟩ := h
  cases h
  exact ⟨hv, by simpa using hp, ha, rfl⟩

theorem digestEngine_ok (h : digestEngine cb e data = .ok (e', out)) :
    e.valid = true ∧ e.phase = .absorb ∧ ∃ dl e1 pad e2, digestLength e.kind = some dl ∧ absorb cb e data = .ok e1 ∧
      digestPad e1.kind e1.total.toNat = .ok pad ∧ absorb cb e1 pad = .ok e2 ∧ e' = initEngine cb e.kind ∧
      out = digestOutput cb e2 dl := by
  simp only [digestEngine, bind_eq_ok, require_eq_ok, requireSome_eq_ok] at h
  obtain ⟨_, hv, dl, hdl, _, hp, e1, h1, pad, hpad, e2, h2, h⟩ := h
  cases h
  have hk : e2.kind = e.kind := by
    obtain ⟨_, _, _, _, k1, _⟩ := absorb_ok h1
    obtain ⟨_, _, _, _, k2, _⟩ := absorb_ok h2
    exact k2.trans k1
  exact ⟨hv, by simpa using hp, dl, e1, pad, e2, hdl, h1, hpad, h2, by rw [hk], rfl⟩

theorem resetEngine_eq (cb : Backend) (e : Engine) :
    resetEngine cb e = if e.valid then .ok (initEngine cb e.kind, []) else .error .noEngine := by
  unfold resetEngine
  cases e.valid <;> rfl

theorem resetEngine_ok (h : resetEngine cb e = .ok (e', out)) :
    e.valid = true ∧ e' = initEngine cb e.kind ∧ out = [] := by
  rw [resetEngine_eq] at h
  split at h
  · next hv => cases h; exact ⟨hv, rfl, rfl⟩
  · cases h

theorem digestXof_ok (h : digestXof cb e n = .ok (e', out)) :
    e.valid = true ∧ servesXof e.kind = true ∧
    ((n = 0 ∧ e' = e ∧ out = []) ∨
     (n ≠ 0 ∧ e.phase = .absorb ∧ ∃ e1, absorbXofPad cb e = .ok e1 ∧ e' = initEngine cb e.kind ∧
       out = squeezeOnce cb (blockSize e.kind) (spongeState e1.state) n)) := by
  simp only [digestXof, bind_eq_ok, require_eq_ok] at h
  obtain ⟨_, hv, _, hk, h⟩ := h
  refine ⟨hv, hk, ?_⟩
  split at h
  · next hn => cases h; exact .inl ⟨hn, rfl, rfl⟩
  · next hn =>
    simp only [bind_eq_ok, require_eq_ok] at h
    obtain ⟨_, hp, e1, h1, h⟩ := h
    cases h
    exact .inr ⟨hn, by simpa using hp, e1, h1, rfl, rfl⟩

theorem readXof_ok (h : readXof cb e n = .ok (e', out)) :
    e.valid = true ∧ servesXof e.kind = true ∧
    ((n = 0 ∧ e' = e ∧ out = []) ∨
     (n ≠ 0 ∧ ∃ e1, enterSqueeze cb e = .ok e1 ∧ e' = (squeezeBytes cb n e1).2 ∧ out = (squeezeBytes cb n e1).1)) := by
  simp only [readXof, bind_eq_ok, require_eq_ok] at h
  obtain ⟨_, hv, _, hk, h⟩ := h
  refine ⟨hv, hk, ?_⟩
  split at h
  · next hn => cases h; exact .inl ⟨hn, rfl, rfl⟩
  · next hn =>
    simp only [bind_eq_ok] at h
    obtain ⟨e1, h1, h⟩ := h
    cases h
    exact .inr ⟨hn, e1, h1, rfl, rfl⟩

theorem enterSqueeze_ok (h : enterSqueeze cb e = .ok e') :
    (e.phase = .absorb ∧ ∃ e1, absorbXofPad cb e = .ok e1 ∧ e' = { e1 with phase := .squeeze, cursor := 0#8 }) ∨
    (e.phase = .squeeze ∧ e' = e) := by
  unfold enterSqueeze at h
  split at h
  · next hp =>
    simp only [bind_eq_ok] at h
    obtain ⟨e1, h1, h⟩ := h
    cases h
    exact .inl ⟨hp, e1, h1, rfl⟩
  · next hp => cases h; exact .inr ⟨hp, rfl⟩

end

/-! When a command on a core completes, and with what. -/

section
variable {v : Variant} {r : Regs} {d : Done}

theorem seedAEffect_ok {key : List Word64} (h : seedAEffect v key r = .ok d) :
    key.isEmpty = false ∧ d = silent (seededWithKey v key r) := by
  simp only [seedAEffect, bind_eq_ok, require_eq_ok] at h
  obtain ⟨_, hk, h⟩ := h
  cases h
  exact ⟨by simpa using hk, rfl⟩

theorem extraction_ok {draw : Regs → Word64 × Regs} (h : extraction v draw r = .ok d) :
    isSeeded v r = true ∧ d = scalar (draw r).2 (draw r).1 := by
  simp only [extraction, bind_eq_ok, require_eq_ok] at h
  obtain ⟨_, hs, h⟩ := h
  cases h
  exact ⟨hs, rfl⟩

theorem getStateEffect_ok (h : getStateEffect v r = .ok d) :
    isSeeded v r = true ∧ d = { regs := r, dout := imageOf v r, res := none } := by
  simp only [getStateEffect, bind_eq_ok, require_eq_ok] at h
  obtain ⟨_, hs, h⟩ := h
  cases h
  exact ⟨hs, rfl⟩

theorem setStateEffect_eq (setting : SetStateReport) (v : Variant) (img : List Byte) (r : Regs) :
    setStateEffect setting v img r = .ok
      { regs := (imported v img r).getD r, dout := [], res := reportResult setting (imported v img r).isSome } := by
  unfold setStateEffect
  cases imported v img r <;> rfl

theorem rsIntEffect_ok {closed signed : Bool} {wc : WidthCode} {lo hi : Int}
    (h : rsIntEffect v closed signed wc lo hi r = .ok d) :
    lo ≤ hi ∧ ((lo = hi ∧ d = scalar r (narrow signed wc lo)) ∨
      (lo ≠ hi ∧ isSeeded v r = true ∧
        d = scalar (nextDouble v closed r).2 (narrow signed wc (sampleInt lo hi (nextDouble v closed r).1)))) := by
  simp only [rsIntEffect, bind_eq_ok, require_eq_ok] at h
  obtain ⟨_, hle, h⟩ := h
  refine ⟨by simpa using hle, ?_⟩
  split at h
  · next heq => cases h; exact .inl ⟨heq, rfl⟩
  · next hne =>
    simp only [bind_eq_ok, require_eq_ok] at h
    obtain ⟨_, hs, h⟩ := h
    cases h
    exact .inr ⟨hne, hs, rfl⟩

theorem rsFloatEffect_ok {closed : Bool} {lo hi : Word64} (h : rsFloatEffect v closed lo hi r = .ok d) :
    floatRangeOk lo hi = true ∧ ((fpValue lo = fpValue hi ∧ d = scalar r lo) ∨
      (fpValue lo ≠ fpValue hi ∧ isSeeded v r = true ∧
        d = scalar (nextDouble v closed r).2 (sampleFloat lo hi (nextDouble v closed r).1))) := by
  simp only [rsFloatEffect, bind_eq_ok, require_eq_ok] at h
  obtain ⟨_, hok, h⟩ := h
  refine ⟨hok, ?_⟩
  split at h
  · next heq => cases h; exact .inl ⟨heq, rfl⟩
  · next hne =>
    simp only [bind_eq_ok, require_eq_ok] at h
    obtain ⟨_, hs, h⟩ := h
    cases h
    exact .inr ⟨hne, hs, rfl⟩

end

/-! No effect raises the cause NONE: each guard and each overflow test names another cause. -/

section
variable {cb : Backend} {e : Engine}

theorem bind_ne_error {α β : Type} {x : Except Cause α} {f : α → Except Cause β} {c : Cause} (hx : x ≠ .error c)
    (hf : ∀ a, f a ≠ .error c) : (x >>= f) ≠ .error c := by
  rw [ne_eq, bind_eq_error]
  rintro (h | ⟨a, _, h⟩)
  · exact hx h
  · exact hf a h

theorem require_ne_error {b : Bool} {c c' : Cause} (h : c ≠ c') : require b c ≠ .error c' :=
  fun he => h (require_eq_error.mp he).2

theorem requireSome_ne_error {α : Type} {o : Option α} {c c' : Cause} (h : c ≠ c') : requireSome o c ≠ .error c' := by
  cases o <;> simp [h]

theorem absorb_ne_error_none (d : List Byte) : absorb cb e d ≠ .error .none := by
  rcases absorb_cases cb e d with ⟨_, h⟩ | ⟨_, h⟩ <;> simp [h]

theorem digestPad_ne_error_none (k : Kind) (T : Nat) : digestPad k T ≠ .error .none := by
  unfold digestPad mdPad
  split
  · nofun
  · split <;> nofun

theorem enterSqueeze_ne_error_none : enterSqueeze cb e ≠ .error .none := by
  unfold enterSqueeze
  split
  · exact bind_ne_error (absorb_ne_error_none _) nofun
  · nofun

theorem updateEngine_ne_error_none (data : List Byte) : updateEngine cb e data ≠ .error .none :=
  bind_ne_error (require_ne_error nofun) fun _ => bind_ne_error (require_ne_error nofun) fun _ =>
    bind_ne_error (absorb_ne_error_none _) nofun

theorem digestEngine_ne_error_none (data : List Byte) : digestEngine cb e data ≠ .error .none :=
  bind_ne_error (require_ne_error nofun) fun _ => bind_ne_error (requireSome_ne_error nofun) fun _ =>
    bind_ne_error (require_ne_error nofun) fun _ => bind_ne_error (absorb_ne_error_none _) fun _ =>
      bind_ne_error (digestPad_ne_error_none _ _) fun _ => bind_ne_error (absorb_ne_error_none _) nofun

theorem digestXof_ne_error_none (n : Nat) : digestXof cb e n ≠ .error .none := by
  refine bind_ne_error (require_ne_error nofun) fun _ => bind_ne_error (require_ne_error nofun) fun _ => ?_
  split
  · nofun
  · exact bind_ne_error (require_ne_error nofun) fun _ => bind_ne_error (absorb_ne_error_none _) nofun

theorem readXof_ne_error_none (n : Nat) : readXof cb e n ≠ .error .none := by
  refine bind_ne_error (require_ne_error nofun) fun _ => bind_ne_error (require_ne_error nofun) fun _ => ?_
  split
  · nofun
  · exact bind_ne_error enterSqueeze_ne_error_none nofun

theorem rsIntEffect_ne_error_none (v : Variant) (closed signed : Bool) (wc : WidthCode) (lo hi : Int) (r : Regs) :
    rsIntEffect v closed signed wc lo hi r ≠ .error .none := by
  refine bind_ne_error (require_ne_error nofun) fun _ => ?_
  split
  · nofun
  · exact bind_ne_error (require_ne_error nofun) nofun

theorem rsFloatEffect_ne_error_none (v : Variant) (closed : Bool) (lo hi : Word64) (r : Regs) :
    rsFloatEffect v closed lo hi r ≠ .error .none := by
  refine bind_ne_error (require_ne_error nofun) fun _ => ?_
  split
  · nofun
  · exact bind_ne_error (require_ne_error nofun) nofun

theorem onEngine_ne_error {r : Regs} {f : Except Cause (Engine × List Byte)} {c : Cause} (h : f ≠ .error c) :
    onEngine r f ≠ .error c := mt onEngine_eq_error.mp h

/-- A command that faults names its cause (10_state.md R26). -/
theorem effectOf_ne_error_none (s : State) (i : Instr) : effectOf s i ≠ .error .none := by
  cases i with
  | deNew => exact onEngine_ne_error (bind_ne_error (require_ne_error nofun) nofun)
  | deUpdate data => exact onEngine_ne_error (updateEngine_ne_error_none data)
  | deDigest data => exact onEngine_ne_error (digestEngine_ne_error_none data)
  | deReset => exact onEngine_ne_error (bind_ne_error (require_ne_error nofun) nofun)
  | xofDigest n => exact onEngine_ne_error (digestXof_ne_error_none n.toNat)
  | xofRead n => exact onEngine_ne_error (readXof_ne_error_none n.toNat)
  | mtSeedA | mtNext | mtNextW | mtBit | mtDouble | mtGetState => exact bind_ne_error (require_ne_error nofun) nofun
  | mtSetState => simp [effectOf, setStateEffect_eq]
  | rsInt => exact rsIntEffect_ne_error_none _ _ _ _ _ _ _
  | rsFloat => exact rsFloatEffect_ne_error_none _ _ _ _ _
  | xofNew | mtSeedR | mtSeed => nofun

end
end Sys2Proof.Machine

/-! PROOFS. The register invariants (10_state.md R19, R24): a squeeze keeps the engine's, and every command
that completes keeps the unit's. -/

namespace Sys2Proof.Machine

open Sys2Proof.Config

/-- An engine in SQUEEZE, right after finalisation or later: item 4 of 10_state.md R19, with the cursor still
allowed to be 0. -/
structure Engine.Squeezing (e : Engine) : Prop where
  phase : e.phase = .squeeze
  buffer : BufferInv e
  empty : e.bytesInBuffer = 0#8
  aligned : e.total.toNat % blockSize e.kind = 0
  cursorLe : e.cursor.toNat ≤ blockSize e.kind
  serves : servesXof e.kind = true

section
variable {cb : Backend} {e e' : Engine} {data out : List Byte} {n : Nat}

theorem Engine.Squeezing.inv (h : e.Squeezing) (hc : 0 < e.cursor.toNat) : e.Inv where
  notFull := h.buffer.notFull
  clearAbove := h.buffer.clearAbove
  shape := h.buffer.shape
  phase := by simpa [Engine.phaseInv, h.phase] using ⟨h.empty, h.aligned, hc, h.cursorLe, h.serves⟩

theorem Engine.Inv.squeezing (h : e.Inv) (hp : e.phase = .squeeze) : e.Squeezing := by
  have hph := h.phase
  simp only [Engine.phaseInv, hp] at hph
  obtain ⟨hempty, haligned, _, hle, hserves⟩ := hph
  exact ⟨hp, h.buffer, hempty, haligned, hle, hserves⟩

theorem servesXof_iff {k : Kind} : servesXof k = true ↔ k = .sha3x256 ∨ k = .k128 := by simp [servesXof]

theorem hasShape_bytes_of_servesXof {k : Kind} (h : servesXof k = true) (s : Vector Byte 200) :
    hasShape k (.bytes s) = true := by
  obtain rfl | rfl := servesXof_iff.mp h <;> rfl

/-- Delivering a byte: the cursor moves on by one, from 0 again where a block is used up (42_sponge.md R117). -/
theorem squeezeByte_cursor (cb : Backend) (e : Engine) : (squeezeByte cb e).2.cursor =
    if e.cursor.toNat = blockSize e.kind then 1#8 else e.cursor + 1 := by
  by_cases h : e.cursor.toNat = blockSize e.kind <;> simp [squeezeByte, h]

theorem squeezeByte_shape (cb : Backend) (hs : servesXof e.kind = true) (h : hasShape e.kind e.state = true) :
    hasShape e.kind (squeezeByte cb e).2.state = true := by
  by_cases hc : e.cursor.toNat = blockSize e.kind <;> simp [squeezeByte, hc, h, hasShape_bytes_of_servesXof hs]

theorem squeezeByte_inv (cb : Backend) (h : e.Squeezing) : (squeezeByte cb e).2.Inv := by
  obtain ⟨_, hk, hb, hn, ht, hp⟩ := squeezeByte_frame cb e
  have hle := h.cursorLe
  have hbs := blockSize_le e.kind
  have hpos := blockSize_pos e.kind
  have hcursor : 0 < (squeezeByte cb e).2.cursor.toNat ∧ (squeezeByte cb e).2.cursor.toNat ≤ blockSize e.kind := by
    rw [squeezeByte_cursor]
    split
    · exact ⟨by decide, hpos⟩
    · have h1 : (1 : BitVec 8).toNat = 1 := rfl
      rw [BitVec.toNat_add, h1]
      omega
  refine Engine.Squeezing.inv ⟨hp.trans h.phase, ⟨?_, ?_, ?_⟩, hn.trans h.empty, ?_, ?_, ?_⟩ hcursor.1
  · rw [hn, hk]; exact h.buffer.notFull
  · rw [hn, hb]; exact h.buffer.clearAbove
  · rw [hk]; exact squeezeByte_shape cb h.serves h.buffer.shape
  · rw [ht, hk]; exact h.aligned
  · rw [hk]; exact hcursor.2
  · rw [hk]; exact h.serves

theorem squeezeBytes_keeps_inv (cb : Backend) (n : Nat) (h : e.Inv) (hp : e.phase = .squeeze) :
    (squeezeBytes cb n e).2.Inv := by
  induction n generalizing e with
  | zero => exact h
  | succ n ih =>
    obtain ⟨_, _, _, _, _, hp'⟩ := squeezeByte_frame cb e
    exact ih (squeezeByte_inv cb (h.squeezing hp)) (hp'.trans hp)

/-- From finalisation on, at least one byte read makes the invariant hold again. -/
theorem squeezeBytes_inv (cb : Backend) (hn : n ≠ 0) (h : e.Squeezing) : (squeezeBytes cb n e).2.Inv := by
  obtain ⟨m, rfl⟩ := Nat.exists_eq_succ_of_ne_zero hn
  obtain ⟨_, _, _, _, _, hp⟩ := squeezeByte_frame cb e
  exact squeezeBytes_keeps_inv cb m (squeezeByte_inv cb h) (hp.trans h.phase)

/-- Absorbing the XOF pad empties the buffer on a block boundary (42_sponge.md R114). -/
theorem absorbXofPad_aligned (hi : e.Inv) (hp : e.phase = .absorb) (h : absorbXofPad cb e = .ok e') :
    e'.Inv ∧ e'.kind = e.kind ∧ e'.bytesInBuffer = 0#8 ∧ e'.total.toNat % blockSize e'.kind = 0 := by
  obtain ⟨hinv, hp'⟩ := absorb_inv hi hp h
  obtain ⟨_, _, ht, _, hk, _⟩ := absorb_ok h
  have haligned : e'.total.toNat % blockSize e'.kind = 0 := by
    rw [ht, hk]; exact spongePad_aligns _ _ _ (blockSize_pos _)
  have hph := hinv.phase
  simp only [Engine.phaseInv, hp'] at hph
  exact ⟨hinv, hk, BitVec.eq_of_toNat_eq (hph.1.trans haligned), haligned⟩

theorem enterSqueeze_squeezing (hi : e.Inv) (hs : servesXof e.kind = true) (h : enterSqueeze cb e = .ok e') :
    e'.Squeezing := by
  rcases enterSqueeze_ok h with ⟨hp, e1, h1, rfl⟩ | ⟨hp, rfl⟩
  · obtain ⟨hinv, hk, hempty, haligned⟩ := absorbXofPad_aligned hi hp h1
    exact ⟨rfl, ⟨hinv.notFull, hinv.clearAbove, hinv.shape⟩, hempty, haligned, Nat.zero_le _, by simpa [hk] using hs⟩
  · exact hi.squeezing hp

/-! Every engine command leaves an engine that meets its invariant. -/

theorem updateEngine_inv (hi : e.valid = true → e.Inv) (h : updateEngine cb e data = .ok (e', out)) : e'.Inv := by
  obtain ⟨hv, hp, ha, _⟩ := updateEngine_ok h
  exact (absorb_inv (hi hv) hp ha).1

theorem digestXof_inv (hi : e.valid = true → e.Inv) (h : digestXof cb e n = .ok (e', out)) : e'.Inv := by
  obtain ⟨hv, _, ⟨_, rfl, _⟩ | ⟨_, _, _, _, rfl, _⟩⟩ := digestXof_ok h
  · exact hi hv
  · exact initEngine_inv cb _

theorem readXof_inv (hi : e.valid = true → e.Inv) (h : readXof cb e n = .ok (e', out)) : e'.Inv := by
  obtain ⟨hv, hs, ⟨_, rfl, _⟩ | ⟨hn, _, h1, rfl, _⟩⟩ := readXof_ok h
  · exact hi hv
  · exact squeezeBytes_inv cb hn (enterSqueeze_squeezing (hi hv) hs h1)

end

/-! The registers a draw leaves, by the words it draws. -/

theorem drawNext_mt32_regs (order : Mt32Compose) (r : Regs) :
    (drawNext order .mt32 r).2 = (drawWord .mt32 (drawWord .mt32 r).2).2 := rfl
theorem drawNext_mt64_regs (order : Mt32Compose) (r : Regs) : (drawNext order .mt64 r).2 = (drawWord .mt64 r).2 := rfl
theorem drawBit_regs (which : MtBit) (v : Variant) (r : Regs) : (drawBit which v r).2 = (drawWord v r).2 := rfl

/-! The registers as a whole. -/

/-- Where no engine exists and no core is seeded, nothing is claimed of the registers (10_state.md R19, R24). -/
theorem Regs.inv_of_unset {r : Regs} (hde : r.de.valid = false) (h32 : r.mt32.seeded = false)
    (h64 : r.mt64.seeded = false) : r.Inv where
  engine h := by simp [hde] at h
  mt32 h := by simp [h32] at h
  mt64 h := by simp [h64] at h

/-- A command on the engine keeps the register invariants when the engine it leaves meets its own. -/
theorem onEngine_inv {r : Regs} {f : Except Cause (Engine × List Byte)} {d : Done} (hr : r.Inv)
    (hf : ∀ e out, f = .ok (e, out) → e.Inv) (h : onEngine r f = .ok d) : d.regs.Inv := by
  obtain ⟨e, out, he, rfl⟩ := onEngine_eq_ok.mp h
  exact ⟨fun _ => hf e out he, hr.mt32, hr.mt64⟩

section
variable {r : Regs} (v : Variant)

theorem seededWith_inv (x : Word64) (h : r.Inv) : (seededWith v x r).Inv := by
  cases v with
  | mt32 => exact ⟨h.engine, seedScalar_inv _ _ (by decide), h.mt64⟩
  | mt64 => exact ⟨h.engine, h.mt32, seedScalar_inv _ _ (by decide)⟩

theorem seededWithKey_inv (key : List Word64) (h : r.Inv) : (seededWithKey v key r).Inv := by
  cases v with
  | mt32 => rw [seededWithKey]; exact ⟨h.engine, seedArray_inv mt32Params _ (by decide), h.mt64⟩
  | mt64 => rw [seededWithKey]; exact ⟨h.engine, h.mt32, seedArray_inv mt64Params _ (by decide)⟩

theorem imported_inv {img : List Byte} {r' : Regs} (h : r.Inv) (hi : imported v img r = some r') : r'.Inv := by
  cases v with
  | mt32 =>
    obtain ⟨c, hc, rfl⟩ := Option.map_eq_some_iff.mp hi
    exact ⟨h.engine, importImage_inv (by decide) hc, h.mt64⟩
  | mt64 =>
    obtain ⟨c, hc, rfl⟩ := Option.map_eq_some_iff.mp hi
    exact ⟨h.engine, h.mt32, importImage_inv (by decide) hc⟩

theorem imported_getD_inv (img : List Byte) (h : r.Inv) : ((imported v img r).getD r).Inv := by
  cases hi : imported v img r with
  | none => exact h
  | some r' => exact imported_inv v h hi

theorem drawNext_inv (order : Mt32Compose) (h : r.Inv) : (drawNext order v r).2.Inv := by
  cases v with
  | mt32 => rw [drawNext_mt32_regs]; exact drawWord_inv .mt32 (drawWord_inv .mt32 h)
  | mt64 => rw [drawNext_mt64_regs]; exact drawWord_inv .mt64 h

theorem drawBit_inv (which : MtBit) (h : r.Inv) : (drawBit which v r).2.Inv := by
  rw [drawBit_regs]; exact drawWord_inv v h

theorem extraction_inv {v : Variant} {draw : Regs → Word64 × Regs} {d : Done} (hdraw : (draw r).2.Inv)
    (h : extraction v draw r = .ok d) : d.regs.Inv := by
  obtain ⟨_, rfl⟩ := extraction_ok h
  exact hdraw

end

/-- A command that completes keeps the register invariants. -/
theorem effectOf_keeps_inv {s : State} {i : Instr} {d : Done} (hr : s.regs.Inv) (h : effectOf s i = .ok d) :
    d.regs.Inv := by
  cases i with
  | deNew k =>
    refine onEngine_inv hr (fun e out he => ?_) h
    obtain ⟨_, rfl, _⟩ := newEngine_ok he
    exact initEngine_inv _ _
  | deUpdate data => exact onEngine_inv hr (fun _ _ => updateEngine_inv hr.engine) h
  | deDigest data =>
    refine onEngine_inv hr (fun e out he => ?_) h
    obtain ⟨_, _, _, _, _, _, _, _, _, _, rfl, _⟩ := digestEngine_ok he
    exact initEngine_inv _ _
  | deReset =>
    refine onEngine_inv hr (fun e out he => ?_) h
    obtain ⟨_, rfl, _⟩ := resetEngine_ok he
    exact initEngine_inv _ _
  | xofNew level =>
    refine onEngine_inv hr (fun e out he => ?_) h
    cases he
    exact initEngine_inv _ _
  | xofDigest n => exact onEngine_inv hr (fun _ _ => digestXof_inv hr.engine) h
  | xofRead n => exact onEngine_inv hr (fun _ _ => readXof_inv hr.engine) h
  | mtSeedR v => cases h; exact seededWith_inv v _ hr
  | mtSeed v arg0 => cases h; exact seededWith_inv v _ hr
  | mtSeedA v key =>
    obtain ⟨_, rfl⟩ := seedAEffect_ok h
    exact seededWithKey_inv v key hr
  | mtNext v => exact extraction_inv (drawNext_inv v _ hr) h
  | mtNextW v => exact extraction_inv (drawWord_inv v hr) h
  | mtBit v => exact extraction_inv (drawBit_inv v _ hr) h
  | mtDouble v closed => exact extraction_inv (draw53_inv v hr) h
  | mtGetState v =>
    obtain ⟨_, rfl⟩ := getStateEffect_ok h
    exact hr
  | mtSetState v img =>
    rw [effectOf, setStateEffect_eq] at h
    cases h
    exact imported_getD_inv v img hr
  | rsInt v =>
    obtain ⟨_, ⟨_, rfl⟩ | ⟨_, _, rfl⟩⟩ := rsIntEffect_ok h
    · exact hr
    · exact draw53_inv v hr
  | rsFloat v =>
    obtain ⟨_, ⟨_, rfl⟩ | ⟨_, _, rfl⟩⟩ := rsFloatEffect_ok h
    · exact hr
    · exact draw53_inv v hr

/-! The state. -/

theorem raiseFault_inv (s : State) {c : Cause} (hc : c ≠ .none) : (s.raiseFault c).Inv where
  regs h := by simp at h
  cause := by simp [hc]

theorem refuse_inv {s : State} (h : s.Inv) : s.refuse.Inv := ⟨h.regs, h.cause⟩

theorem latch_inv {s : State} (h : s.Inv) (rest : List Input) (ent : Word64) (n : Nat) : (s.latch rest ent n).Inv :=
  ⟨h.regs, h.cause⟩

theorem complete_inv {s : State} {d : Done} (h : s.Inv) (hd : d.regs.Inv) : (s.complete d).Inv := ⟨fun _ => hd, h.cause⟩

theorem hardReset_inv (s : State) : s.hardReset.Inv where
  regs _ := Regs.inv_of_unset (regsAfterRst_valid s) (regsAfterRst_mt32 s) (regsAfterRst_mt64 s)
  cause := by simp

/-- Every command keeps the invariant of the machine. -/
theorem exec_keeps_inv {i : Instr} {s t : State} (hs : s.Inv) (h : exec i s = .next t) : t.Inv := by
  rcases exec_cases h with ⟨_, rfl⟩ | ⟨hf, d, hd, rfl⟩ | ⟨_, c, hc, rfl⟩
  · exact refuse_inv hs
  · exact complete_inv hs (effectOf_keeps_inv (hs.regs hf) hd)
  · refine raiseFault_inv s ?_
    rintro rfl
    exact effectOf_ne_error_none s i hc

/-- Settles O21: RST and a fault leave states of which nothing more is claimed, a refusal changes no register,
and a command that completes keeps the register invariants. -/
theorem everyStepKeepsTheInvariant : Obligations.EveryStepKeepsTheInvariant := by
  intro s t hs h
  rcases step_cases h with ⟨_, rfl⟩ | ⟨_, _, rfl⟩ | ⟨_, _, _, _, _, rfl⟩ | ⟨_, _, _, _, _, _, _, _, rfl⟩ |
    ⟨_, _, _, _, _, _, _, hx⟩
  · exact hs
  · exact hardReset_inv _
  · exact refuse_inv (latch_inv hs _ _ _)
  · exact raiseFault_inv _ nofun
  · exact exec_keeps_inv (latch_inv hs _ _ _) hx

/-- Settles O20: no engine exists and no core is seeded after reset. -/
theorem invariantHoldsAtReset : Obligations.InvariantHoldsAtReset where
  regs _ := Regs.inv_of_unset rfl rfl rfl
  cause := Iff.intro (fun _ => rfl) fun _ => rfl

end Sys2Proof.Machine

/-! PROOFS. What a fault and a completed command leave unchanged (10_state.md R26, R29). -/

namespace Sys2Proof.Machine

open Sys2Proof.Config

/-- Settles O13: a faulted unit idles, is reset, or refuses the next command. -/
theorem faultEndsOnlyByReset : Obligations.FaultEndsOnlyByReset := by
  intro s t hf h
  rcases step_cases h with ⟨_, rfl⟩ | ⟨rest, hrst, rfl⟩ | ⟨_, _, _, _, _, rfl⟩ | ⟨_, _, _, _, _, hn, _⟩ |
    ⟨_, _, _, _, _, hn, _⟩
  · exact .inl ⟨hf, rfl, rfl⟩
  · exact .inr ⟨rfl, rfl, rest, hrst⟩
  · exact .inl ⟨hf, rfl, rfl⟩
  · simp [hf] at hn
  · simp [hf] at hn

/-- Settles O14: a command that ends faulted was refused, or raised a fault, which keeps every register under
the named residue. -/
theorem faultingCommandsKeepRegisters : Obligations.FaultingCommandsKeepRegisters := by
  intro i s t hnamed h ht
  rcases exec_cases h with ⟨_, rfl⟩ | ⟨hf, _, _, rfl⟩ | ⟨_, _, _, rfl⟩
  · rfl
  · simp [hf] at ht
  · exact regsAfterFault_named hnamed

/-- From `r` to `r'` nothing changed but the core of variant `v` (10_state.md R29). -/
structure OnlyCore (v : Variant) (r r' : Regs) : Prop where
  engine : r'.de = r.de
  mt64 : v = .mt32 → r'.mt64 = r.mt64
  mt32 : v = .mt64 → r'.mt32 = r.mt32

/-- From `r` to `r'` nothing changed but the array and the index of the core of variant `v`. -/
structure OnlyDrawn (v : Variant) (r r' : Regs) : Prop extends OnlyCore v r r' where
  seeded32 : r'.mt32.seeded = r.mt32.seeded
  seeded64 : r'.mt64.seeded = r.mt64.seeded

section
variable (v : Variant) (r : Regs)

theorem OnlyCore.refl : OnlyCore v r r := ⟨rfl, fun _ => rfl, fun _ => rfl⟩

theorem OnlyDrawn.refl : OnlyDrawn v r r := ⟨OnlyCore.refl v r, rfl, rfl⟩

theorem OnlyDrawn.trans {v : Variant} {r r' r'' : Regs} (h : OnlyDrawn v r r') (h' : OnlyDrawn v r' r'') :
    OnlyDrawn v r r'' where
  engine := h'.engine.trans h.engine
  mt64 hv := (h'.mt64 hv).trans (h.mt64 hv)
  mt32 hv := (h'.mt32 hv).trans (h.mt32 hv)
  seeded32 := h'.seeded32.trans h.seeded32
  seeded64 := h'.seeded64.trans h.seeded64

theorem seededWith_onlyCore (x : Word64) : OnlyCore v r (seededWith v x r) := by
  cases v with
  | mt32 => rw [seededWith]; exact ⟨rfl, fun _ => rfl, nofun⟩
  | mt64 => rw [seededWith]; exact ⟨rfl, nofun, fun _ => rfl⟩

theorem seededWithKey_onlyCore (key : List Word64) : OnlyCore v r (seededWithKey v key r) := by
  cases v with
  | mt32 => rw [seededWithKey]; exact ⟨rfl, fun _ => rfl, nofun⟩
  | mt64 => rw [seededWithKey]; exact ⟨rfl, nofun, fun _ => rfl⟩

theorem imported_onlyCore {img : List Byte} {v : Variant} {r r' : Regs} (h : imported v img r = some r') :
    OnlyCore v r r' := by
  cases v with
  | mt32 =>
    obtain ⟨c, _, rfl⟩ := Option.map_eq_some_iff.mp h
    exact ⟨rfl, fun _ => rfl, nofun⟩
  | mt64 =>
    obtain ⟨c, _, rfl⟩ := Option.map_eq_some_iff.mp h
    exact ⟨rfl, nofun, fun _ => rfl⟩

theorem imported_getD_onlyCore (img : List Byte) : OnlyCore v r ((imported v img r).getD r) := by
  cases h : imported v img r with
  | none => exact OnlyCore.refl v r
  | some r' => exact imported_onlyCore h

theorem drawWord_onlyDrawn : OnlyDrawn v r (drawWord v r).2 := by
  cases v with
  | mt32 => exact ⟨⟨rfl, fun _ => rfl, nofun⟩, nextWord_seeded mt32Params r.mt32, rfl⟩
  | mt64 => exact ⟨⟨rfl, nofun, fun _ => rfl⟩, rfl, nextWord_seeded mt64Params r.mt64⟩

theorem draw53_onlyDrawn : OnlyDrawn v r (draw53 v r).2 := by
  cases v with
  | mt32 => exact (drawWord_onlyDrawn .mt32 r).trans (drawWord_onlyDrawn .mt32 _)
  | mt64 => exact drawWord_onlyDrawn .mt64 r

theorem nextDouble_onlyDrawn (closed : Bool) : OnlyDrawn v r (nextDouble v closed r).2 := draw53_onlyDrawn v r

theorem drawNext_onlyDrawn (order : Mt32Compose) : OnlyDrawn v r (drawNext order v r).2 := by
  cases v with
  | mt32 => rw [drawNext_mt32_regs]; exact (drawWord_onlyDrawn .mt32 r).trans (drawWord_onlyDrawn .mt32 _)
  | mt64 => rw [drawNext_mt64_regs]; exact drawWord_onlyDrawn .mt64 r

theorem drawBit_onlyDrawn (which : MtBit) : OnlyDrawn v r (drawBit which v r).2 := drawWord_onlyDrawn v r

end

section
variable {v : Variant} {r : Regs} {d : Done}

theorem extraction_onlyDrawn {draw : Regs → Word64 × Regs} (hdraw : OnlyDrawn v r (draw r).2)
    (h : extraction v draw r = .ok d) : OnlyDrawn v r d.regs := by
  obtain ⟨_, rfl⟩ := extraction_ok h
  exact hdraw

theorem rsIntEffect_onlyDrawn {closed signed : Bool} {wc : WidthCode} {lo hi : Int}
    (h : rsIntEffect v closed signed wc lo hi r = .ok d) : OnlyDrawn v r d.regs := by
  obtain ⟨_, ⟨_, rfl⟩ | ⟨_, _, rfl⟩⟩ := rsIntEffect_ok h
  · exact OnlyDrawn.refl v r
  · exact nextDouble_onlyDrawn v r closed

theorem rsFloatEffect_onlyDrawn {closed : Bool} {lo hi : Word64} (h : rsFloatEffect v closed lo hi r = .ok d) :
    OnlyDrawn v r d.regs := by
  obtain ⟨_, ⟨_, rfl⟩ | ⟨_, _, rfl⟩⟩ := rsFloatEffect_ok h
  · exact OnlyDrawn.refl v r
  · exact nextDouble_onlyDrawn v r closed

/-- A command on the engine leaves both cores alone; its engine is the one the procedure answers. -/
theorem onEngine_frame {f : Except Cause (Engine × List Byte)} (h : onEngine r f = .ok d) :
    (d.regs.mt32 = r.mt32 ∧ d.regs.mt64 = r.mt64) ∧ f = .ok (d.regs.de, d.dout) := by
  obtain ⟨e, out, he, rfl⟩ := onEngine_eq_ok.mp h
  exact ⟨⟨rfl, rfl⟩, he⟩

end

section
variable {cb : Backend} {e e' : Engine} {data out : List Byte} {n : Nat}

theorem updateEngine_frame (h : updateEngine cb e data = .ok (e', out)) :
    e'.valid = e.valid ∧ e'.kind = e.kind ∧ e'.phase = e.phase ∧ e'.cursor = e.cursor := by
  obtain ⟨_, _, ha, _⟩ := updateEngine_ok h
  obtain ⟨_, _, _, hframe⟩ := absorb_ok ha
  exact hframe

theorem digestEngine_frame (h : digestEngine cb e data = .ok (e', out)) :
    e'.valid = e.valid ∧ e'.kind = e.kind ∧ e'.phase = e.phase := by
  obtain ⟨hv, hp, _, _, _, _, _, _, _, _, rfl, _⟩ := digestEngine_ok h
  exact ⟨hv.symm, rfl, hp.symm⟩

theorem resetEngine_frame (h : resetEngine cb e = .ok (e', out)) : e'.valid = e.valid ∧ e'.kind = e.kind := by
  obtain ⟨hv, rfl, _⟩ := resetEngine_ok h
  exact ⟨hv.symm, rfl⟩

theorem digestXof_frame (h : digestXof cb e n = .ok (e', out)) :
    e'.valid = e.valid ∧ e'.kind = e.kind ∧ e'.phase = e.phase := by
  obtain ⟨hv, _, ⟨_, rfl, _⟩ | ⟨_, hp, _, _, rfl, _⟩⟩ := digestXof_ok h
  · exact ⟨rfl, rfl, rfl⟩
  · exact ⟨hv.symm, rfl, hp.symm⟩

theorem enterSqueeze_frame (h : enterSqueeze cb e = .ok e') : e'.valid = e.valid ∧ e'.kind = e.kind := by
  rcases enterSqueeze_ok h with ⟨_, e1, h1, rfl⟩ | ⟨_, rfl⟩
  · obtain ⟨_, _, _, hv, hk, _⟩ := absorb_ok h1
    exact ⟨hv, hk⟩
  · exact ⟨rfl, rfl⟩

theorem readXof_frame (h : readXof cb e n = .ok (e', out)) : e'.valid = e.valid ∧ e'.kind = e.kind := by
  obtain ⟨_, _, ⟨_, rfl, _⟩ | ⟨_, e1, h1, rfl, _⟩⟩ := readXof_ok h
  · exact ⟨rfl, rfl⟩
  · obtain ⟨hv, hk, _⟩ := squeezeBytes_frame cb n e1
    obtain ⟨hv1, hk1⟩ := enterSqueeze_frame h1
    exact ⟨hv.trans hv1, hk.trans hk1⟩

end

/-- What the statement of O54 spells out of the cores. -/
theorem OnlyCore.spelled {v : Variant} {r r' : Regs} (h : OnlyCore v r r') :
    r'.de = r.de ∧ (v = .mt32 → r'.mt64 = r.mt64) ∧ (v = .mt64 → r'.mt32 = r.mt32) := ⟨h.engine, h.mt64, h.mt32⟩

theorem OnlyDrawn.spelled {v : Variant} {r r' : Regs} (h : OnlyDrawn v r r') :
    (r'.de = r.de ∧ (v = .mt32 → r'.mt64 = r.mt64) ∧ (v = .mt64 → r'.mt32 = r.mt32)) ∧
    r'.mt32.seeded = r.mt32.seeded ∧ r'.mt64.seeded = r.mt64.seeded :=
  ⟨h.toOnlyCore.spelled, h.seeded32, h.seeded64⟩

/-- Settles O54: completing writes the registers and the response alone, and each effect writes only what the
access table of 10_state.md R29 gives it. -/
theorem completedCommandsKeepTheirFrame : Obligations.CompletedCommandsKeepTheirFrame := by
  intro i s t _ h ht
  obtain ⟨d, hd, rfl⟩ := exec_completed h ht
  refine ⟨rfl, rfl, rfl, rfl, rfl, rfl, ?_⟩
  simp only [complete_regs]
  cases i with
  | deNew k =>
    obtain ⟨hcores, he⟩ := onEngine_frame hd
    exact ⟨hcores, by rw [(newEngine_ok he).2.1, initEngine_kind]⟩
  | deUpdate data =>
    obtain ⟨hcores, he⟩ := onEngine_frame hd
    exact ⟨hcores, updateEngine_frame he⟩
  | deDigest data =>
    obtain ⟨hcores, he⟩ := onEngine_frame hd
    exact ⟨hcores, digestEngine_frame he⟩
  | deReset =>
    obtain ⟨hcores, he⟩ := onEngine_frame hd
    exact ⟨hcores, resetEngine_frame he⟩
  | xofNew level => exact (onEngine_frame hd).1
  | xofDigest n =>
    obtain ⟨hcores, he⟩ := onEngine_frame hd
    exact ⟨hcores, digestXof_frame he⟩
  | xofRead n =>
    obtain ⟨hcores, he⟩ := onEngine_frame hd
    exact ⟨hcores, readXof_frame he⟩
  | mtSeedR v => cases hd; exact (seededWith_onlyCore v s.regs s.ent).spelled
  | mtSeed v arg0 => cases hd; exact (seededWith_onlyCore v s.regs arg0).spelled
  | mtSeedA v key =>
    obtain ⟨_, rfl⟩ := seedAEffect_ok hd
    exact (seededWithKey_onlyCore v s.regs key).spelled
  | mtNext v => exact (extraction_onlyDrawn (drawNext_onlyDrawn v _ _) hd).spelled
  | mtNextW v => exact (extraction_onlyDrawn (drawWord_onlyDrawn v _) hd).spelled
  | mtBit v => exact (extraction_onlyDrawn (drawBit_onlyDrawn v _ _) hd).spelled
  | mtDouble v closed => exact (extraction_onlyDrawn (nextDouble_onlyDrawn v _ _) hd).spelled
  | mtGetState v =>
    obtain ⟨_, rfl⟩ := getStateEffect_ok hd
    rfl
  | mtSetState v img =>
    rw [effectOf, setStateEffect_eq] at hd
    cases hd
    exact (imported_getD_onlyCore v s.regs img).spelled
  | rsInt v => exact (rsIntEffect_onlyDrawn hd).spelled
  | rsFloat v => exact (rsFloatEffect_onlyDrawn hd).spelled

end Sys2Proof.Machine

/-! PROOFS. The STATUS view (10_state.md R27), and the commands that put the engine in its initial state
(40_digest_engine.md R85, R86, R89, 42_sponge.md R118). -/

namespace Sys2Proof.Machine

open Sys2Proof.Config

/-- Bit `i` of STATUS, by the field it lies in. -/
theorem status_getLsbD (s : State) (i : Nat) : s.status.getLsbD i =
    if i < 1 then (BitVec.ofBool s.fault).getLsbD i
    else if i - 1 < 4 then s.cause.code.getLsbD (i - 1)
    else if i - 5 < 1 then (BitVec.ofBool s.regs.de.valid).getLsbD (i - 5)
    else if i - 6 < 1 then (BitVec.ofBool s.regs.de.phase.bit).getLsbD (i - 6)
    else if i - 7 < 1 then (BitVec.ofBool s.regs.mt32.seeded).getLsbD (i - 7)
    else (BitVec.ofBool s.regs.mt64.seeded).getLsbD (i - 8) := by
  simp only [State.status, BitVec.getLsbD_append, Nat.sub_sub]

/-- Bits 4:1 of STATUS are the code of CAUSE (10_state.md R27). -/
theorem status_cause (s : State) : s.status.extractLsb' 1 4 = s.cause.code := by
  ext i hi
  have h0 : ¬1 + i < 1 := by omega
  rw [BitVec.getElem_extractLsb', status_getLsbD, if_neg h0, Nat.add_sub_cancel_left, if_pos hi,
    BitVec.getLsbD_eq_getElem hi]

theorem phase_bit_eq (p : Phase) : p.bit = (p == .squeeze) := by cases p <;> rfl

/-- Settles O17: each field of STATUS is read back at its place. -/
theorem statusShowsFaultCauseAndGuards : Obligations.StatusShowsFaultCauseAndGuards := by
  intro s
  rw [status_cause, ← phase_bit_eq]
  simp only [status_getLsbD]
  refine ⟨by simp, ?_, by simp, by simp, by simp, by simp⟩
  cases s.cause <;> rfl

section
variable {s : State}

theorem exec_deNew {k : Kind} (hf : s.fault = false) (hk : k ≠ .k128) : exec (.deNew k) s = .next (s.complete
    { regs := { s.regs with de := initEngine (backendOf s.params.backend) k }, dout := [], res := none }) :=
  exec_of_effect_ok hf (by rw [effectOf, newEngine_eq, if_neg hk, onEngine_ok])

theorem exec_xofNew (level : Level) (hf : s.fault = false) : exec (.xofNew level) s = .next (s.complete
    { regs := { s.regs with de := initEngine (backendOf s.params.backend) (kindOfLevel level) }, dout := [], res := none }) :=
  exec_of_effect_ok hf (by rw [effectOf, onEngine_ok])

theorem exec_deReset (hf : s.fault = false) (hv : s.regs.de.valid = true) : exec .deReset s = .next (s.complete
    { regs := { s.regs with de := initEngine (backendOf s.params.backend) s.regs.de.kind }, dout := [], res := none }) :=
  exec_of_effect_ok hf (by rw [effectOf, resetEngine_eq, if_pos hv, onEngine_ok])

end

/-- Settles O22: the three commands write `initEngine` of their kind, which is the initial engine spelled out. -/
theorem newAndResetInitialiseTheEngine : Obligations.NewAndResetInitialiseTheEngine := by
  refine ⟨fun k => by cases k <;> rfl, fun s hf => ?_⟩
  intro cb start initial
  have hstart : ∀ k, resetState cb k = start k := fun k => by cases k <;> rfl
  have hinit : ∀ k, initEngine cb k = initial k := fun k => by simp only [initial, ← hstart]; rfl
  simp only [← hinit]
  exact ⟨fun k => ⟨hstart k, trivial⟩, fun _ hk => exec_deNew hf hk, exec_xofNew .l128 hf, exec_xofNew .l256 hf,
    exec_deReset hf⟩

end Sys2Proof.Machine

/-! PROOFS. What decodes and what a step makes of it (20_memory.md R42, 30_encoding.md R61). -/

namespace Sys2Proof

open Sys2Proof.Machine

/-- The opcode of a command (30_encoding.md R62). -/
def Instr.op : Instr → Op
  | .deNew _ => .deNew
  | .deUpdate _ => .deUpdate
  | .deDigest _ => .deDigest
  | .deReset => .deReset
  | .xofNew _ => .xofNew
  | .xofDigest _ => .xofDigest
  | .xofRead _ => .xofRead
  | .mtSeedR _ => .mtSeedR
  | .mtSeed _ _ => .mtSeed
  | .mtSeedA _ _ => .mtSeedA
  | .mtNext _ => .mtNext
  | .mtNextW _ => .mtNextW
  | .mtBit _ => .mtBit
  | .mtDouble _ _ => .mtDouble
  | .mtGetState _ => .mtGetState
  | .mtSetState _ _ => .mtSetState
  | .rsInt _ _ _ _ _ _ => .rsInt
  | .rsFloat _ _ _ _ => .rsFloat

section
variable {c : Command} {i : Instr} {op : Op}

/-- Operands of a row make a command of that row. -/
theorem op_of_operands (h : operands op c = .ok i) : i.op = op := by
  cases op with
  | deNew =>
    cases hk : kindOfSel (selField c.hdr) <;> simp only [operands, hk, Except.map] at h <;> cases h
    rfl
  | xofNew =>
    cases hl : levelOfSel (selField c.hdr) <;> simp only [operands, hl, Except.map] at h <;> cases h
    rfl
  | _ => cases h; rfl

/-- What decodes: the header lies in the row of the command, the operands are the command's, and the payload
has the announced length. -/
theorem decode_eq_ok : decode c = .ok i ↔
    rowOf c.hdr = .ok i.op ∧ operands i.op c = .ok i ∧ c.payload.length = payloadLen i.op c.hdr c.arg0 := by
  constructor
  · intro h
    unfold decode at h
    split at h
    · cases h
    · next op hrow =>
      split at h
      · cases h
      · next j hops =>
        split at h
        · next hlen => cases h; rw [op_of_operands hops]; exact ⟨hrow, hops, hlen⟩
        · cases h
  · rintro ⟨hrow, hops, hlen⟩
    simp [decode, hrow, hops, hlen]

/-- The variant of a decoded MT.SEEDA is the header's. -/
theorem variantOf_of_operands_mtSeedA {v : Variant} {key : List Word64} (h : operands .mtSeedA c = .ok (.mtSeedA v key)) :
    variantOf c.hdr = v := by cases h; rfl

end

end Sys2Proof

namespace Sys2Proof.Machine

/-- Settles O3: the row, the operands and the payload length of a command do not read the argument words its
format leaves unused. -/
theorem unusedArgumentWordsAreIgnored : Obligations.UnusedArgumentWordsAreIgnored := by
  intro c i a0 a1 h
  have hdec := decode_eq_ok.mp h
  cases i with
  | rsInt | rsFloat =>
    obtain ⟨_, hops, _⟩ := hdec
    cases hops
    exact ⟨rfl, rfl⟩
  | _ => exact decode_eq_ok.mpr hdec

/-- Settles O8: the decoder accepts a payload of the announced length only, and that length depends on the row,
`arg0` and, for MT.SEEDA, the variant. -/
theorem payloadLengthIsAnnounced : Obligations.PayloadLengthIsAnnounced := by
  intro c i h
  obtain ⟨_, hops, hlen⟩ := decode_eq_ok.mp h
  cases i with
  | mtSeedA v key =>
    rw [hlen, Instr.op, payloadLen, variantOf_of_operands_mtSeedA hops]
    cases v <;> rfl
  | _ => exact hlen

theorem decodeTableWord_eq_some {nbits w : Nat} {i : Instr} :
    decodeTableWord nbits w = some i ↔ decode (commandOfBits nbits w) = .ok i := by
  unfold decodeTableWord
  cases decode (commandOfBits nbits w) <;> simp [Except.toOption]

/-- An unfaulted unit runs the oldest command in the latched state (20_memory.md R42). -/
theorem step_command {s : State} {c : Command} {ent : Word64} {rest : List Input} {i : Instr}
    (hin : s.inputs = .command c ent :: rest) (hf : s.fault = false) (hd : decode c = .ok i) :
    step s = exec i (s.latch rest ent c.payload.length) := by
  simp [step, transact, hin, runCommand, hf, hd]

theorem step_idle {s : State} (h : s.inputs = []) : step s = .next s := by simp [step, transact, h]

/-- Settles O7: a word placed by withFetchWord is the oldest command, so the first clause gives the second. -/
theorem stepRunsTheDecodedCommand : Obligations.StepRunsTheDecodedCommand := by
  intro s
  refine ⟨fun c ent rest i hin hf hd => step_command hin hf hd, fun nbits w i hf hd => ?_, step_idle⟩
  exact step_command (s := s.withFetchWord nbits w) rfl hf (decodeTableWord_eq_some.mp hd)

end Sys2Proof.Machine

/-! PROOFS. Which changes of the state, and which repetitions and divisions of commands, make no difference
(20_memory.md R44 to R46). -/

namespace Sys2Proof.Machine

open Sys2Proof.Config

/-- Absorbing two strings one after the other is absorbing them joined, overflow included (40_digest_engine.md
R84(a)). -/
theorem absorb_append (cb : Backend) (e : Engine) (a b : List Byte) :
    absorb cb e (a ++ b) = absorb cb e a >>= fun e' => absorb cb e' b := by
  rcases absorb_cases cb e a with ⟨hgt, ha⟩ | ⟨hle, ha⟩
  · rw [ha, error_bind, absorb, if_pos (by rw [List.length_append]; omega)]
  · obtain ⟨_, _, htotal, _⟩ := absorb_ok ha
    rw [ha, ok_bind, absorb, absorb, htotal, List.length_append, Nat.add_assoc, absorbBytes_append,
      absorbBytes_total cb (absorbBytes cb e a) b (e.total + _), BitVec.ofNat_add, BitVec.add_assoc]

theorem absorb_of_le (cb : Backend) {e : Engine} {d : List Byte} (h : e.total.toNat + d.length ≤ 2 ^ 64 - 1) :
    ∃ e', absorb cb e d = .ok e' := by
  rcases absorb_cases cb e d with ⟨hgt, _⟩ | ⟨_, hd⟩
  · omega
  · exact ⟨_, hd⟩

theorem absorb_nil (cb : Backend) (e : Engine) : absorb cb e [] = .ok e := by
  have hlt := e.total.isLt
  rw [absorb, if_neg (by simp only [List.length_nil]; omega)]
  simp [absorbBytes]

/-- DE.UPDATE writes the engine that Absorb answers (40_digest_engine.md R87). -/
theorem exec_deUpdate {s : State} {data : List Byte} {e : Engine} (hf : s.fault = false) (hv : s.regs.de.valid = true)
    (hp : s.regs.de.phase = .absorb) (ha : absorb (backendOf s.params.backend) s.regs.de data = .ok e) :
    exec (.deUpdate data) s =
      .next (s.complete { regs := { s.regs with de := e }, dout := [], res := none }) :=
  exec_of_effect_ok hf (by simp [effectOf, updateEngine, hv, hp, ha, pure, Except.pure])

/-- Settles O25: both ways the engine ends as the one that absorbed `a` and then `b`. -/
theorem updateChunkingDoesNotMatter : Obligations.UpdateChunkingDoesNotMatter := by
  intro s a b hf hv hp hle
  obtain ⟨e1, h1⟩ := absorb_of_le (backendOf s.params.backend) (e := s.regs.de) (d := a) (by omega)
  obtain ⟨_, _, htotal, hv1, _, hp1, _⟩ := absorb_ok h1
  obtain ⟨e2, h2⟩ := absorb_of_le (backendOf s.params.backend) (e := e1) (d := b) (by omega)
  have h12 : absorb (backendOf s.params.backend) s.regs.de (a ++ b) = .ok e2 := by rw [absorb_append, h1, ok_bind, h2]
  exact ⟨_, _, exec_deUpdate hf hv hp h1, exec_deUpdate hf (hv1.trans hv) (hp1.trans hp) h2, hf,
    exec_deUpdate hf hv hp h12⟩

/-- The effect of a command depends on the registers and the parameters, and on the entropy word if it is
MT.SEEDR (20_memory.md R46(c)). -/
theorem effectOf_congr {s t : State} {i : Instr} (hr : t.regs = s.regs) (hp : t.params = s.params)
    (he : (∃ v, i = .mtSeedR v) → t.ent = s.ent) : effectOf t i = effectOf s i := by
  cases i with
  | mtSeedR v => simp only [effectOf, hr, he ⟨v, rfl⟩]
  | _ => simp only [effectOf, hr, hp]

/-- `s` with other things on its ports: the host's list, the entropy word, the earlier response and the count of
bytes taken. -/
def State.withPorts (s : State) (inputs : List Input) (ent : Word64) (reply : Option Reply) (taken : Nat) : State :=
  { s with inputs := inputs, ent := ent, reply := reply, dinTaken := taken }

section
variable (s : State) (inputs : List Input) (ent : Word64) (reply : Option Reply) (taken : Nat)

/-- No command but MT.SEEDR reads the ports. -/
theorem effectOf_withPorts {i : Instr} (hi : ∀ v, i ≠ .mtSeedR v) :
    effectOf (s.withPorts inputs ent reply taken) i = effectOf s i :=
  effectOf_congr rfl rfl fun ⟨v, hv⟩ => absurd hv (hi v)

/-- However an effect ends, the host's list, ENT and the count pass through, and the response is a new one. -/
theorem perform_withPorts (e : Effect) : ∃ t, perform s e = .next t ∧
    perform (s.withPorts inputs ent reply taken) e = .next { t with inputs := inputs, ent := ent, dinTaken := taken } := by
  have hkeep : (s.withPorts inputs ent reply taken).fault = s.fault := rfl
  rcases Bool.eq_false_or_eq_true s.fault with hf | hf
  · exact ⟨_, perform_faulted hf e, perform_faulted (hkeep.trans hf) e⟩
  · cases e with
    | ok d => exact ⟨_, perform_ok hf d, perform_ok (hkeep.trans hf) d⟩
    | error c => exact ⟨_, perform_error hf c, perform_error (hkeep.trans hf) c⟩

end

/-- Settles O56: the two states give the command the same effect, and performing it passes the ports through. -/
theorem commandsDependOnRegistersOnly : Obligations.CommandsDependOnRegistersOnly := by
  intro i s inputs ent reply taken hi
  obtain ⟨t, hs, hports⟩ := perform_withPorts s inputs ent reply taken (effectOf s i)
  rw [← effectOf_withPorts s inputs ent reply taken hi, ← exec_eq_perform] at hports
  exact ⟨t, (exec_eq_perform i s).trans hs, hports⟩

/-- A command whose effect in the state it leaves is the effect it had changes nothing when repeated. -/
theorem exec_again {i : Instr} {s : State} {d : Done} (hf : s.fault = false)
    (h : effectOf (s.complete d) i = .ok d) : exec i (s.complete d) = .next (s.complete d) :=
  exec_of_effect_ok (s := s.complete d) hf h

/-- A command that left the registers as they were has the same effect again. -/
theorem effectOf_complete_of_regs_eq {i : Instr} {s : State} {d : Done} (h : effectOf s i = .ok d) (hr : d.regs = s.regs) :
    effectOf (s.complete d) i = .ok d :=
  (effectOf_congr (t := s.complete d) hr rfl fun _ => rfl).trans h

/-! The writes that a second time write what stands there. -/

theorem seededWith_idem (v : Variant) (x : Word64) (r : Regs) : seededWith v x (seededWith v x r) = seededWith v x r := by
  cases v <;> rfl

theorem seededWithKey_idem (v : Variant) (key : List Word64) (r : Regs) :
    seededWithKey v key (seededWithKey v key r) = seededWithKey v key r := by
  cases v <;> simp only [seededWithKey]

theorem imported_idem (v : Variant) (img : List Byte) (r : Regs) :
    imported v img ((imported v img r).getD r) = imported v img r := by
  cases v with
  | mt32 => cases h : importImage 32 624 img <;> simp [imported, h]
  | mt64 => cases h : importImage 64 312 img <;> simp [imported, h]

theorem setStateEffect_again {setting : SetStateReport} {v : Variant} {img : List Byte} {r : Regs} {d : Done}
    (h : setStateEffect setting v img r = .ok d) : setStateEffect setting v img d.regs = .ok d := by
  rw [setStateEffect_eq] at h
  cases h
  rw [setStateEffect_eq, imported_idem]
  cases imported v img r <;> rfl

/-- A command on the engine that answers the same on the engine it leaves has the same effect again. -/
theorem onEngine_again {r : Regs} {f f' : Except Cause (Engine × List Byte)} {d : Done} (h : onEngine r f = .ok d)
    (hf : f = .ok (d.regs.de, d.dout) → f' = f) : onEngine d.regs f' = .ok d := by
  obtain ⟨e, out, rfl, rfl⟩ := onEngine_eq_ok.mp h
  rw [hf rfl]
  rfl

theorem resetEngine_again {cb : Backend} {e e' : Engine} {out : List Byte} (h : resetEngine cb e = .ok (e', out)) :
    resetEngine cb e' = resetEngine cb e := by
  obtain ⟨hv, rfl, _⟩ := resetEngine_ok h
  rw [resetEngine_eq, resetEngine_eq, initEngine_valid, initEngine_kind, hv]

/-- An engine command that answers the engine it was given leaves the registers as they were. -/
theorem onEngine_regs_eq {r : Regs} {f : Except Cause (Engine × List Byte)} {d : Done} (h : onEngine r f = .ok d)
    (hf : ∀ e out, f = .ok (e, out) → e = r.de) : d.regs = r := by
  obtain ⟨e, out, he, rfl⟩ := onEngine_eq_ok.mp h
  rw [hf e out he]

theorem updateEngine_nil {cb : Backend} {e e' : Engine} {out : List Byte} (h : updateEngine cb e [] = .ok (e', out)) :
    e' = e := by
  obtain ⟨_, _, ha, _⟩ := updateEngine_ok h
  rw [absorb_nil] at ha
  cases ha
  rfl

theorem digestXof_zero {cb : Backend} {e e' : Engine} {out : List Byte} (h : digestXof cb e 0 = .ok (e', out)) :
    e' = e := by
  obtain ⟨_, _, ⟨_, he, _⟩ | ⟨hn, _⟩⟩ := digestXof_ok h
  · exact he
  · exact absurd rfl hn

theorem readXof_zero {cb : Backend} {e e' : Engine} {out : List Byte} (h : readXof cb e 0 = .ok (e', out)) : e' = e := by
  obtain ⟨_, _, ⟨_, he, _⟩ | ⟨hn, _⟩⟩ := readXof_ok h
  · exact he
  · exact absurd rfl hn

theorem rsIntEffect_equal_bounds {v : Variant} {closed signed : Bool} {wc : WidthCode} {lo : Int} {r : Regs} {d : Done}
    (h : rsIntEffect v closed signed wc lo lo r = .ok d) : d.regs = r := by
  obtain ⟨_, ⟨_, rfl⟩ | ⟨hne, _⟩⟩ := rsIntEffect_ok h
  · rfl
  · exact absurd rfl hne

theorem rsFloatEffect_equal_bounds {v : Variant} {closed : Bool} {lo hi : Word64} {r : Regs} {d : Done}
    (heq : fpValue lo = fpValue hi) (h : rsFloatEffect v closed lo hi r = .ok d) : d.regs = r := by
  obtain ⟨_, ⟨_, rfl⟩ | ⟨hne, _⟩⟩ := rsFloatEffect_ok h
  · rfl
  · exact absurd heq hne

/-- Settles O57: the command has the same effect in the state it leaves, because it leaves every register as it
was, or because it writes what already stands there. -/
theorem repeatedCommandsAreIdempotent : Obligations.RepeatedCommandsAreIdempotent := by
  intro i s t hf h ht hi
  obtain ⟨d, hd, rfl⟩ := exec_completed h ht
  refine exec_again hf ?_
  cases i with
  | deNew | xofNew => exact onEngine_again hd fun _ => rfl
  | deReset => exact onEngine_again hd resetEngine_again
  | deUpdate data =>
    obtain rfl : data = [] := hi
    exact effectOf_complete_of_regs_eq hd (onEngine_regs_eq hd fun _ _ => updateEngine_nil)
  | xofDigest n =>
    obtain rfl : n = 0 := hi
    exact effectOf_complete_of_regs_eq hd (onEngine_regs_eq hd fun _ _ => digestXof_zero)
  | xofRead n =>
    obtain rfl : n = 0 := hi
    exact effectOf_complete_of_regs_eq hd (onEngine_regs_eq hd fun _ _ => readXof_zero)
  | mtSeed v x =>
    cases hd
    exact congrArg (fun r => Except.ok (silent r)) (seededWith_idem v x s.regs)
  | mtSeedA v key =>
    obtain ⟨hkey, rfl⟩ := seedAEffect_ok hd
    simp [effectOf, seedAEffect, hkey, silent, seededWithKey_idem, pure, Except.pure]
  | mtGetState v =>
    obtain ⟨_, hregs⟩ := getStateEffect_ok hd
    exact effectOf_complete_of_regs_eq hd (by rw [hregs])
  | mtSetState v img => exact setStateEffect_again hd
  | rsInt v closed signed wc x y =>
    have heq : boundOperand signed wc x = boundOperand signed wc y := hi
    refine effectOf_complete_of_regs_eq hd ?_
    rw [effectOf, ← heq] at hd
    exact rsIntEffect_equal_bounds hd
  | rsFloat v closed x y => exact effectOf_complete_of_regs_eq hd (rsFloatEffect_equal_bounds hi hd)
  | deDigest | mtSeedR | mtNext | mtNextW | mtBit | mtDouble => exact hi.elim

end Sys2Proof.Machine

/-! PROOFS. The fields of a header and the rows of the opcode table (30_encoding.md R60, R62, R66, R68): a header
fits the row of an opcode exactly when its `op` field is the code and every reserved bit is 0. -/

namespace Sys2Proof

open Sys2Proof.Machine

/-- The `flags` field, hdr[15:8] (30_encoding.md R60). -/
def flagsField (hdr : Word32) : Byte := hdr.extractLsb' 8 8

/-- The `zero` field, hdr[7:0] (30_encoding.md R60). -/
def zeroField (hdr : Word32) : Byte := hdr.extractLsb' 0 8

/-- Two headers are equal when their four fields are. -/
theorem header_ext {x y : Word32} (hop : opField x = opField y) (hsel : selField x = selField y)
    (hflags : flagsField x = flagsField y) (hzero : zeroField x = zeroField y) : x = y := by
  simp only [opField, selField, flagsField, zeroField, ← BitVec.toNat_inj, BitVec.extractLsb'_toNat,
    Nat.shiftRight_eq_div_pow] at *
  omega

section
variable (x y : Word32)

theorem opField_and : opField (x &&& y) = opField x &&& opField y := BitVec.extractLsb'_and
theorem selField_and : selField (x &&& y) = selField x &&& selField y := BitVec.extractLsb'_and
theorem flagsField_and : flagsField (x &&& y) = flagsField x &&& flagsField y := BitVec.extractLsb'_and
theorem zeroField_and : zeroField (x &&& y) = zeroField x &&& zeroField y := BitVec.extractLsb'_and

end

theorem toNat_header {op sel flags : Nat} (hop : op < 256) (hsel : sel < 256) (hflags : flags < 256) :
    (header op sel flags).toNat = op * 2 ^ 24 + sel * 2 ^ 16 + flags * 2 ^ 8 := by
  rw [header, BitVec.toNat_ofNat]
  omega

/-- The fields of a header, from the sum it is. -/
theorem fields_of_toNat {hdr : Word32} {op sel flags : Nat} (hsel : sel < 256) (hflags : flags < 256)
    (h : hdr.toNat = op * 2 ^ 24 + sel * 2 ^ 16 + flags * 2 ^ 8) :
    opField hdr = BitVec.ofNat 8 op ∧ selField hdr = BitVec.ofNat 8 sel ∧ flagsField hdr = BitVec.ofNat 8 flags ∧
      zeroField hdr = 0#8 := by
  simp only [opField, selField, flagsField, zeroField, ← BitVec.toNat_inj, BitVec.extractLsb'_toNat,
    Nat.shiftRight_eq_div_pow, BitVec.toNat_ofNat]
  omega

/-- The value of the `op` field (30_encoding.md R62). -/
def Op.code : Op → Byte
  | .deNew => 0x10
  | .deUpdate => 0x11
  | .deDigest => 0x12
  | .deReset => 0x13
  | .xofNew => 0x20
  | .xofDigest => 0x21
  | .xofRead => 0x22
  | .mtSeedR => 0x30
  | .mtSeed => 0x31
  | .mtSeedA => 0x32
  | .mtNext => 0x33
  | .mtNextW => 0x34
  | .mtBit => 0x35
  | .mtDouble => 0x36
  | .mtGetState => 0x37
  | .mtSetState => 0x38
  | .rsInt => 0x40
  | .rsFloat => 0x41

/-- The bits of `sel` that must be zero (30_encoding.md R63, R66). -/
def Op.selReserved : Op → Byte
  | .deNew | .xofNew => 0x00
  | .deUpdate | .deDigest | .deReset | .xofDigest | .xofRead => 0xff
  | .mtSeedR | .mtSeed | .mtSeedA | .mtNext | .mtNextW | .mtBit | .mtDouble | .mtGetState | .mtSetState | .rsInt
  | .rsFloat => 0xfe

/-- The bits of `flags` that must be zero (30_encoding.md R64, R66). -/
def Op.flagsReserved : Op → Byte
  | .mtDouble | .rsFloat => 0xfe
  | .rsInt => 0xf0
  | .deNew | .deUpdate | .deDigest | .deReset | .xofNew | .xofDigest | .xofRead | .mtSeedR | .mtSeed | .mtSeedA
  | .mtNext | .mtNextW | .mtBit | .mtGetState | .mtSetState => 0xff

/-- The row of an opcode: every bit of `op` and `zero` is fixed, of `sel` and `flags` the reserved ones. -/
def Op.row (op : Op) : OpRow :=
  ⟨op, op.code ++ 0#24, 0xff#8 ++ op.selReserved ++ op.flagsReserved ++ 0xff#8⟩

theorem row_mem_opcodeTable (op : Op) : op.row ∈ opcodeTable := by cases op <;> decide

theorem eq_row_of_mem {r : OpRow} (h : r ∈ opcodeTable) : r = r.op.row :=
  (by decide : ∀ r ∈ opcodeTable, r = r.op.row) r h

/-- A header lies in the row of an opcode: its code stands in `op` and every bit that must be zero is 0. -/
structure Op.Fits (op : Op) (hdr : Word32) : Prop where
  code : opField hdr = op.code
  sel : selField hdr &&& op.selReserved = 0#8
  flags : flagsField hdr &&& op.flagsReserved = 0#8
  zero : zeroField hdr = 0#8

theorem row_fields (op : Op) :
    (opField op.row.pattern = op.code ∧ selField op.row.pattern = 0#8 ∧ flagsField op.row.pattern = 0#8 ∧
      zeroField op.row.pattern = 0#8) ∧
    opField op.row.mask = BitVec.allOnes 8 ∧ selField op.row.mask = op.selReserved ∧
      flagsField op.row.mask = op.flagsReserved ∧ zeroField op.row.mask = BitVec.allOnes 8 := by
  cases op <;> decide

/-- The test of the opcode table, field by field. -/
theorem row_fits_iff {op : Op} {hdr : Word32} : op.row.fits hdr = true ↔ op.Fits hdr := by
  obtain ⟨⟨hop, hsel, hflags, hzero⟩, mop, msel, mflags, mzero⟩ := row_fields op
  have fop := opField_and hdr op.row.mask
  have fsel := selField_and hdr op.row.mask
  have fflags := flagsField_and hdr op.row.mask
  have fzero := zeroField_and hdr op.row.mask
  rw [mop, BitVec.and_allOnes] at fop
  rw [msel] at fsel
  rw [mflags] at fflags
  rw [mzero, BitVec.and_allOnes] at fzero
  rw [OpRow.fits, beq_iff_eq]
  constructor
  · intro h
    rw [h] at fop fsel fflags fzero
    exact ⟨fop.symm.trans hop, fsel.symm.trans hsel, fflags.symm.trans hflags, fzero.symm.trans hzero⟩
  · rintro ⟨h1, h2, h3, h4⟩
    exact header_ext (by rw [fop, h1, hop]) (by rw [fsel, h2, hsel]) (by rw [fflags, h3, hflags])
      (by rw [fzero, h4, hzero])

theorem Op.code_injective {op op' : Op} (h : op.code = op'.code) : op = op' := by
  have hrows : ∀ r ∈ opcodeTable, ∀ r' ∈ opcodeTable, r.op.code = r'.op.code → r.op = r'.op := by decide
  exact hrows op.row (row_mem_opcodeTable op) op'.row (row_mem_opcodeTable op') h

theorem Op.Fits.unique {op op' : Op} {hdr : Word32} (h : op.Fits hdr) (h' : op'.Fits hdr) : op = op' :=
  Op.code_injective (h.code.symm.trans h'.code)

/-- The only row a header can fit is that of its code. -/
theorem exists_fits_iff {op : Op} {hdr : Word32} {p : Op → Prop} (hop : opField hdr = op.code) :
    (∃ op' : Op, op'.Fits hdr ∧ p op') ↔ op.Fits hdr ∧ p op :=
  ⟨fun ⟨_, h⟩ => Op.code_injective (hop.symm.trans h.1.code) ▸ h, fun h => ⟨op, h⟩⟩

theorem exists_row_iff {hdr : Word32} {p : Op → Prop} :
    (∃ r ∈ opcodeTable, r.fits hdr = true ∧ p r.op) ↔ ∃ op : Op, op.Fits hdr ∧ p op := by
  constructor
  · rintro ⟨r, hr, hfits, hp⟩
    exact ⟨r.op, row_fits_iff.mp (eq_row_of_mem hr ▸ hfits), hp⟩
  · rintro ⟨op, hfits, hp⟩
    exact ⟨op.row, row_mem_opcodeTable op, row_fits_iff.mpr hfits, hp⟩

/-- The decoder's search of the table finds the one row a header fits. -/
theorem rowOf_eq_ok {hdr : Word32} {op : Op} : rowOf hdr = .ok op ↔ op.Fits hdr := by
  unfold rowOf
  split
  · next r hr =>
    have hfits : r.op.Fits hdr :=
      row_fits_iff.mp (eq_row_of_mem (List.mem_of_find?_eq_some hr) ▸ List.find?_some (p := fun r : OpRow => r.fits hdr) hr)
    constructor
    · rintro ⟨⟩
      exact hfits
    · intro h
      rw [h.unique hfits]
  · next hnone =>
    constructor
    · intro h
      split at h <;> cases h
    · intro h
      exact absurd (row_fits_iff.mpr h) (List.find?_eq_none.mp hnone _ (row_mem_opcodeTable op))

theorem isIllegalHeader_of_rowOf {hdr : Word32} {e : DecodeError} (h : rowOf hdr = .error e) :
    e.isIllegalHeader = true := by
  unfold rowOf at h
  split at h
  · cases h
  · split at h <;> cases h <;> rfl

/-! The `sel` of DE.NEW and XOF.NEW, and the headers the decoder calls illegal. -/

theorem kindOfSel_eq_ok {sel : Byte} {k : Kind} : kindOfSel sel = .ok k ↔ sel.toNat = k.code ∧ k ≠ .k128 := by
  unfold kindOfSel
  split <;> cases k <;> simp [Kind.code] <;> omega

theorem kindOfSel_cases (sel : Byte) : (sel.toNat ≤ 8 ∧ ∃ k, kindOfSel sel = .ok k) ∨
    (9 ≤ sel.toNat ∧ kindOfSel sel = .error .selOutOfRange) := by
  unfold kindOfSel
  split
  case h_10 => exact .inr ⟨by grind, rfl⟩
  all_goals exact .inl ⟨by omega, _, rfl⟩

theorem levelOfSel_eq_ok {sel : Byte} {l : Level} : levelOfSel sel = .ok l ↔ sel.toNat = l.sel := by
  unfold levelOfSel
  split <;> cases l <;> simp [Level.sel] <;> omega

theorem levelOfSel_cases (sel : Byte) : (sel.toNat ≤ 1 ∧ ∃ l, levelOfSel sel = .ok l) ∨
    (2 ≤ sel.toNat ∧ levelOfSel sel = .error .selOutOfRange) := by
  unfold levelOfSel
  split
  case h_3 => exact .inr ⟨by grind, rfl⟩
  all_goals exact .inl ⟨by omega, _, rfl⟩

/-- `sel` is in the legal range of the opcode, where the reserved bits do not say it (30_encoding.md R63). -/
def Op.SelLegal (op : Op) (sel : Byte) : Prop := (op = .deNew → sel.toNat ≤ 8) ∧ (op = .xofNew → sel.toNat ≤ 1)

theorem operands_cases (op : Op) (c : Command) :
    (op.SelLegal (selField c.hdr) ∧ ∃ i, operands op c = .ok i) ∨
    (¬ op.SelLegal (selField c.hdr) ∧ operands op c = .error .selOutOfRange) := by
  cases op with
  | deNew =>
    rcases kindOfSel_cases (selField c.hdr) with ⟨hle, k, hk⟩ | ⟨hgt, he⟩
    · exact .inl ⟨⟨fun _ => hle, nofun⟩, .deNew k, by simp [operands, hk, Except.map]⟩
    · exact .inr ⟨fun h => absurd (h.1 rfl) (by omega), by simp [operands, he, Except.map]⟩
  | xofNew =>
    rcases levelOfSel_cases (selField c.hdr) with ⟨hle, l, hl⟩ | ⟨hgt, he⟩
    · exact .inl ⟨⟨nofun, fun _ => hle⟩, .xofNew l, by simp [operands, hl, Except.map]⟩
    · exact .inr ⟨fun h => absurd (h.2 rfl) (by omega), by simp [operands, he, Except.map]⟩
  | _ => exact .inl ⟨⟨nofun, nofun⟩, _, rfl⟩

/-- The decoder calls a header illegal exactly when it fits no row with a legal `sel` (30_encoding.md R68). -/
theorem decode_illegal_iff (c : Command) : (∃ e, decode c = .error e ∧ e.isIllegalHeader = true) ↔
    ¬ ∃ op : Op, op.Fits c.hdr ∧ op.SelLegal (selField c.hdr) := by
  cases hrow : rowOf c.hdr with
  | error e =>
    have hnone : ¬ ∃ op : Op, op.Fits c.hdr ∧ op.SelLegal (selField c.hdr) := by
      rintro ⟨op, hfits, -⟩
      cases hrow.symm.trans (rowOf_eq_ok.mpr hfits)
    exact iff_of_true ⟨e, by simp [decode, hrow], isIllegalHeader_of_rowOf hrow⟩ hnone
  | ok op =>
    have hfits := rowOf_eq_ok.mp hrow
    rw [exists_fits_iff hfits.code, and_iff_right hfits]
    rcases operands_cases op c with ⟨hsel, i, hi⟩ | ⟨hsel, hi⟩
    · refine iff_of_false ?_ (not_not.mpr hsel)
      rintro ⟨e, hd, he⟩
      simp only [decode, hrow, hi] at hd
      split at hd <;> cases hd
      cases he
    · exact iff_of_true ⟨.selOutOfRange, by simp [decode, hrow, hi], rfl⟩ hsel

/-! What one opcode's row says of a header, in the words of 30_encoding.md R66. -/

/-- The opcodes R66 lists are those of the table. -/
theorem mem_opcodes_iff {b : Byte} :
    b ∈ [0x10#8, 0x11#8, 0x12#8, 0x13#8, 0x20#8, 0x21#8, 0x22#8, 0x30#8, 0x31#8, 0x32#8, 0x33#8, 0x34#8,
      0x35#8, 0x36#8, 0x37#8, 0x38#8, 0x40#8, 0x41#8] ↔ ∃ op : Op, op.code = b := by
  have hlist : [0x10#8, 0x11#8, 0x12#8, 0x13#8, 0x20#8, 0x21#8, 0x22#8, 0x30#8, 0x31#8, 0x32#8, 0x33#8, 0x34#8,
      0x35#8, 0x36#8, 0x37#8, 0x38#8, 0x40#8, 0x41#8] = opcodeTable.map fun r => r.op.code := by decide
  rw [hlist, List.mem_map]
  exact ⟨fun ⟨r, _, h⟩ => ⟨r.op, h⟩, fun ⟨op, h⟩ => ⟨op.row, row_mem_opcodeTable op, h⟩⟩

/-- For a header with the code of `op`, R66's list of what makes it illegal: in each row the masks are known, and what
is left is the list of its tests negated. -/
theorem not_fits_iff (op : Op) {hdr : Word32} (hop : opField hdr = op.code) :
    ¬ (op.Fits hdr ∧ op.SelLegal (selField hdr)) ↔
      zeroField hdr ≠ 0#8 ∨
      (op.code = 0x10#8 ∧ 9 ≤ (selField hdr).toNat) ∨
      (op.code = 0x20#8 ∧ 2 ≤ (selField hdr).toNat) ∨
      (op.code ∈ [0x11#8, 0x12#8, 0x13#8, 0x21#8, 0x22#8] ∧ selField hdr ≠ 0#8) ∨
      (0x30#8 ≤ op.code ∧ selField hdr &&& 0xFE#8 ≠ 0#8) ∨
      (op.code = 0x40#8 ∧ flagsField hdr &&& 0xF0#8 ≠ 0#8) ∨
      (op.code ∈ [0x36#8, 0x41#8] ∧ flagsField hdr &&& 0xFE#8 ≠ 0#8) ∨
      (op.code ∉ [0x36#8, 0x40#8, 0x41#8] ∧ flagsField hdr ≠ 0#8) := by
  have hfits : op.Fits hdr ↔ selField hdr &&& op.selReserved = 0#8 ∧ flagsField hdr &&& op.flagsReserved = 0#8 ∧
      zeroField hdr = 0#8 := ⟨fun ⟨_, h1, h2, h3⟩ => ⟨h1, h2, h3⟩, fun ⟨h1, h2, h3⟩ => ⟨hop, h1, h2, h3⟩⟩
  have hones (x : Byte) : x &&& 255#8 = x := BitVec.and_allOnes
  rw [hfits]
  cases op <;> simp [Op.code, Op.selReserved, Op.flagsReserved, Op.SelLegal, hones] <;> grind

end Sys2Proof

namespace Sys2Proof.Machine

/-- Settles O4: the code in `op` singles out the row, and the decoder rejects a header for the row or for `sel` only. -/
theorem headerFitsOneRowOrIsIllegal : Obligations.HeaderFitsOneRowOrIsIllegal := by
  intro c
  refine ⟨fun r hr r' hr' h h' => ?_, ?_⟩
  · rw [eq_row_of_mem hr] at h ⊢
    rw [eq_row_of_mem hr'] at h' ⊢
    rw [(row_fits_iff.mp h).unique (row_fits_iff.mp h')]
  · rw [decode_illegal_iff]
    exact not_congr (exists_row_iff (p := fun op => op.SelLegal (selField c.hdr))).symm

/-- A step of an unfaulted unit on an illegal header (60_exceptions.md R194). -/
theorem step_illegal {s : State} {c : Command} {ent : Word64} {rest : List Input} {e : DecodeError}
    (hin : s.inputs = .command c ent :: rest) (hf : s.fault = false) (hd : decode c = .error e)
    (he : e.isIllegalHeader = true) : step s = .next ((s.latch rest ent 0).raiseFault .illegalCommand) := by
  simp [step, transact, hin, runCommand, hf, hd, he]

/-- Settles O5: a header with no opcode of R62 fits no row; with one, `not_fits_iff` says what that row forbids. -/
theorem illegalHeadersFault : Obligations.IllegalHeadersFault := by
  intro c
  refine ⟨?_, fun s ent rest hin hf ⟨e, hd, he⟩ => step_illegal hin hf hd he⟩
  rw [decode_illegal_iff, mem_opcodes_iff]
  by_cases hcode : ∃ op : Op, op.code = opField c.hdr
  · obtain ⟨op, hop⟩ := hcode
    rw [exists_fits_iff hop.symm, not_fits_iff op hop.symm, ← hop]
    exact (or_iff_right (not_not.mpr ⟨op, rfl⟩)).symm
  · exact iff_of_true (fun ⟨op, h, _⟩ => hcode ⟨op, h.code.symm⟩) (.inl hcode)

end Sys2Proof.Machine

/-! PROOFS. The decoder against the encoder (30_encoding.md R60 to R65). `sel` and `flags` of a header determine the
operands it carries and are determined by them; the payload is read back element by element. -/

namespace Sys2Proof

open Sys2Proof.Machine

/-! Reading the operands a header carries. -/

section
variable (hdr : Word32)

theorem variantOf_eq : variantOf hdr = if (selField hdr).getLsbD 0 then .mt64 else .mt32 := by
  simp [variantOf, selField]

theorem closedBit_eq : hdr.getLsbD 8 = (flagsField hdr).getLsbD 0 := by simp [flagsField]

theorem signedBit_eq : hdr.getLsbD 9 = (flagsField hdr).getLsbD 1 := by simp [flagsField]

theorem code_widthOf : (widthOf hdr).code = ((flagsField hdr).extractLsb' 2 2).toNat := by
  have hbits : (hdr.extractLsb' 10 2).toNat = ((flagsField hdr).extractLsb' 2 2).toNat := by
    simp only [flagsField, BitVec.extractLsb'_toNat, Nat.shiftRight_eq_div_pow]
    omega
  have hlt := (hdr.extractLsb' 10 2).isLt
  rw [← hbits, widthOf]
  split <;> simp [WidthCode.code] <;> grind

end

theorem WidthCode.code_injective {a b : WidthCode} (h : a.code = b.code) : a = b := by
  cases a <;> cases b <;> cases h <;> rfl

/-! The fields of the header of a command. -/

/-- The `sel` field of a command (30_encoding.md R63). -/
def Instr.sel : Instr → Nat
  | .deNew kind => kind.code
  | .xofNew level => level.sel
  | .mtSeedR v | .mtSeed v _ | .mtSeedA v _ | .mtNext v | .mtNextW v | .mtBit v | .mtDouble v _ | .mtGetState v
  | .mtSetState v _ | .rsInt v _ _ _ _ _ | .rsFloat v _ _ _ => v.sel
  | .deUpdate _ | .deDigest _ | .deReset | .xofDigest _ | .xofRead _ => 0

/-- The `flags` field of RS.INT (30_encoding.md R64). -/
def intFlags (closed signed : Bool) (wc : WidthCode) : Nat := closed.toNat + 2 * signed.toNat + 4 * wc.code

/-- The `flags` field of a command (30_encoding.md R64). -/
def Instr.flags : Instr → Nat
  | .mtDouble _ closed | .rsFloat _ closed _ _ => closed.toNat
  | .rsInt _ closed signed wc _ _ => intFlags closed signed wc
  | _ => 0

theorem encode_hdr (i : Instr) : (encode i).hdr = header i.op.code.toNat i.sel i.flags := by cases i <;> rfl

theorem Variant.sel_le (v : Variant) : v.sel ≤ 1 := by cases v <;> decide
theorem Level.sel_le (l : Level) : l.sel ≤ 1 := by cases l <;> decide
theorem Kind.code_le (k : Kind) : k.code ≤ 9 := by cases k <;> decide
theorem intFlags_le (closed signed : Bool) (wc : WidthCode) : intFlags closed signed wc ≤ 15 := by
  cases closed <;> cases signed <;> cases wc <;> decide

theorem Instr.sel_lt (i : Instr) : i.sel < 256 := by
  cases i with
  | deNew k => exact Nat.lt_of_le_of_lt k.code_le (by decide)
  | xofNew l => exact Nat.lt_of_le_of_lt l.sel_le (by decide)
  | deUpdate | deDigest | deReset | xofDigest | xofRead => exact Nat.succ_pos 255
  | _ => exact Nat.lt_of_le_of_lt (Variant.sel_le _) (by decide)

theorem Instr.flags_lt (i : Instr) : i.flags < 256 := by
  cases i with
  | mtDouble _ closed | rsFloat _ closed => exact Nat.lt_of_le_of_lt closed.toNat_le (by decide)
  | rsInt _ closed signed wc => exact Nat.lt_of_le_of_lt (intFlags_le closed signed wc) (by decide)
  | _ => exact Nat.succ_pos 255

/-- The header of an encoded command, field by field. -/
theorem fields_encode (i : Instr) : opField (encode i).hdr = i.op.code ∧
    selField (encode i).hdr = BitVec.ofNat 8 i.sel ∧ flagsField (encode i).hdr = BitVec.ofNat 8 i.flags ∧
    zeroField (encode i).hdr = 0#8 := by
  rw [encode_hdr]
  simpa using fields_of_toNat i.sel_lt i.flags_lt (toNat_header i.op.code.isLt i.sel_lt i.flags_lt)

/-! Bits of `sel` and `flags`: what is set, and what is read back. -/

theorem variantSel_reserved (v : Variant) : BitVec.ofNat 8 v.sel &&& 0xfe#8 = 0#8 := by cases v <;> decide
theorem closedFlag_reserved (closed : Bool) : BitVec.ofNat 8 closed.toNat &&& 0xfe#8 = 0#8 := by cases closed <;> decide
theorem intFlags_reserved (closed signed : Bool) (wc : WidthCode) :
    BitVec.ofNat 8 (intFlags closed signed wc) &&& 0xf0#8 = 0#8 := by
  cases closed <;> cases signed <;> cases wc <;> decide

theorem sel_reserved (i : Instr) : BitVec.ofNat 8 i.sel &&& i.op.selReserved = 0#8 := by
  cases i with
  | deNew | xofNew => exact BitVec.and_zero
  | deUpdate | deDigest | deReset | xofDigest | xofRead => exact BitVec.zero_and
  | _ => exact variantSel_reserved _

theorem flags_reserved (i : Instr) : BitVec.ofNat 8 i.flags &&& i.op.flagsReserved = 0#8 := by
  cases i with
  | mtDouble | rsFloat => exact closedFlag_reserved _
  | rsInt => exact intFlags_reserved _ _ _
  | _ => exact BitVec.zero_and

theorem rowOf_encode (i : Instr) : rowOf (encode i).hdr = .ok i.op := by
  obtain ⟨hop, hsel, hflags, hzero⟩ := fields_encode i
  exact rowOf_eq_ok.mpr ⟨hop, by rw [hsel, sel_reserved], by rw [hflags, flags_reserved], hzero⟩

section
variable {hdr : Word32}

theorem variantOf_of_sel {v : Variant} (h : selField hdr = BitVec.ofNat 8 v.sel) : variantOf hdr = v := by
  rw [variantOf_eq, h]
  cases v <;> rfl

theorem closed_of_flags {closed : Bool} (h : flagsField hdr = BitVec.ofNat 8 closed.toNat) : hdr.getLsbD 8 = closed := by
  rw [closedBit_eq, h]
  cases closed <;> rfl

theorem intFlags_read (closed signed : Bool) (wc : WidthCode) :
    let b := BitVec.ofNat 8 (intFlags closed signed wc)
    b.getLsbD 0 = closed ∧ b.getLsbD 1 = signed ∧ (b.extractLsb' 2 2).toNat = wc.code := by
  cases closed <;> cases signed <;> cases wc <;> decide

theorem operands_of_intFlags {closed signed : Bool} {wc : WidthCode}
    (h : flagsField hdr = BitVec.ofNat 8 (intFlags closed signed wc)) :
    hdr.getLsbD 8 = closed ∧ hdr.getLsbD 9 = signed ∧ widthOf hdr = wc := by
  obtain ⟨hc, hs, hw⟩ := intFlags_read closed signed wc
  exact ⟨by rw [closedBit_eq, h, hc], by rw [signedBit_eq, h, hs],
    WidthCode.code_injective (by rw [code_widthOf, h, hw])⟩

theorem sel_of_variantOf (h : selField hdr &&& 0xfe#8 = 0#8) : selField hdr = BitVec.ofNat 8 (variantOf hdr).sel := by
  rw [variantOf_eq]
  exact (by decide : ∀ b : Byte, b &&& 0xfe#8 = 0#8 →
    b = BitVec.ofNat 8 (if b.getLsbD 0 then Variant.mt64 else Variant.mt32).sel) _ h

theorem flags_of_closed (h : flagsField hdr &&& 0xfe#8 = 0#8) : flagsField hdr = BitVec.ofNat 8 (hdr.getLsbD 8).toNat := by
  rw [closedBit_eq]
  exact (by decide : ∀ b : Byte, b &&& 0xfe#8 = 0#8 → b = BitVec.ofNat 8 (b.getLsbD 0).toNat) _ h

theorem flags_of_int (h : flagsField hdr &&& 0xf0#8 = 0#8) :
    flagsField hdr = BitVec.ofNat 8 (intFlags (hdr.getLsbD 8) (hdr.getLsbD 9) (widthOf hdr)) := by
  rw [intFlags, closedBit_eq, signedBit_eq, code_widthOf]
  exact (by decide : ∀ b : Byte, b &&& 0xf0#8 = 0#8 →
    b = BitVec.ofNat 8 ((b.getLsbD 0).toNat + 2 * (b.getLsbD 1).toNat + 4 * (b.extractLsb' 2 2).toNat)) _ h

end

/-! The payload of MT.SEEDA (30_encoding.md R65). -/

theorem pieces_flatMap {α : Type} (wb : Nat) (f : α → List Byte) (l : List α) (h : ∀ x, (f x).length = wb) :
    pieces wb l.length (l.flatMap f) = l.map f := by
  induction l with
  | nil => rfl
  | cons x l ih =>
    rw [List.length_cons, List.flatMap_cons, pieces, List.take_left' (h x), List.drop_left' (h x), ih, List.map_cons]

section
variable {wb n : Nat} {bs : List Byte}

theorem flatten_pieces (h : bs.length = n * wb) : (pieces wb n bs).flatten = bs := by
  induction n generalizing bs with
  | zero => rw [Nat.zero_mul, List.length_eq_zero_iff] at h; rw [h]; rfl
  | succ n ih =>
    rw [pieces, List.flatten_cons, ih (by rw [List.length_drop, h, Nat.succ_mul]; omega), List.take_append_drop]

theorem length_of_mem_pieces (h : bs.length = n * wb) {p : List Byte} (hp : p ∈ pieces wb n bs) : p.length = wb := by
  induction n generalizing bs with
  | zero => cases hp
  | succ n ih =>
    rw [Nat.succ_mul] at h
    rcases List.mem_cons.mp hp with rfl | hp
    · rw [List.length_take, h]
      omega
    · exact ih (by rw [List.length_drop, h]; omega) hp

end

theorem fitsVariant_iff {v : Variant} {x : Word64} : fitsVariant v x = true ↔ x.toNat < 256 ^ v.wordBytes := by
  cases v with
  | mt32 => simp [fitsVariant, Variant.wordBytes]
  | mt64 => exact iff_of_true rfl x.isLt

theorem seedElements_flatMap {v : Variant} {key : List Word64} (h : key.all (fitsVariant v) = true) :
    seedElements v key.length (key.flatMap fun x => leBytes v.wordBytes x.toNat) = key := by
  rw [seedElements, pieces_flatMap _ _ _ fun x => length_leBytes _ _, List.map_map]
  refine (List.map_congr_left fun x hx => ?_).trans (List.map_id key)
  rw [Function.comp_apply, fromLE_leBytes, Nat.mod_eq_of_lt (fitsVariant_iff.mp (List.all_eq_true.mp h x hx)),
    BitVec.ofNat_toNat, BitVec.setWidth_eq, id_eq]

theorem length_seedElements (v : Variant) (n : Nat) (payload : List Byte) : (seedElements v n payload).length = n := by
  rw [seedElements, List.length_map, length_pieces]

section
variable {v : Variant} {n : Nat} {payload : List Byte}

/-- Piece `p` of a payload as an element: the number it spells fits the element and spells `p` again. -/
theorem toNat_seedElement {p : List Byte} (hp : p.length = v.wordBytes) :
    (BitVec.ofNat 64 (fromLE p)).toNat = fromLE p := by
  have hlt := fromLE_lt p
  have hle : 256 ^ p.length ≤ 2 ^ 64 := by rw [hp]; cases v <;> decide
  rw [BitVec.toNat_ofNat, Nat.mod_eq_of_lt (by omega)]

theorem seedElements_fit (h : payload.length = n * v.wordBytes) :
    (seedElements v n payload).all (fitsVariant v) = true := by
  simp only [seedElements, List.all_map, List.all_eq_true, Function.comp_apply]
  intro p hp
  have hlen := length_of_mem_pieces h hp
  rw [fitsVariant_iff, toNat_seedElement hlen, ← hlen]
  exact fromLE_lt p

theorem flatMap_seedElements (h : payload.length = n * v.wordBytes) :
    (seedElements v n payload).flatMap (fun x => leBytes v.wordBytes x.toNat) = payload := by
  have hread : ∀ p ∈ pieces v.wordBytes n payload,
      leBytes v.wordBytes (BitVec.ofNat 64 (fromLE p)).toNat = p := by
    intro p hp
    have hlen := length_of_mem_pieces h hp
    rw [toNat_seedElement hlen, ← hlen, leBytes_fromLE]
  rw [seedElements, List.flatMap_map, List.flatMap_def, List.map_congr_left hread, List.map_id', flatten_pieces h]

end

/-! Decoding and encoding. -/

theorem operands_deNew_eq_ok {c : Command} {k : Kind} :
    operands .deNew c = .ok (.deNew k) ↔ (selField c.hdr).toNat = k.code ∧ k ≠ .k128 := by
  rw [← kindOfSel_eq_ok, operands]
  cases kindOfSel (selField c.hdr) <;> simp [Except.map]

theorem operands_xofNew_eq_ok {c : Command} {l : Level} :
    operands .xofNew c = .ok (.xofNew l) ↔ (selField c.hdr).toNat = l.sel := by
  rw [← levelOfSel_eq_ok, operands]
  cases levelOfSel (selField c.hdr) <;> simp [Except.map]

/-- The operands of an encoded command are read back. -/
theorem operands_encode {i : Instr} (h : i.wf = true) : operands i.op (encode i) = .ok i := by
  obtain ⟨-, hsel, hflags, -⟩ := fields_encode i
  have htoNat : (selField (encode i).hdr).toNat = i.sel := by
    rw [hsel, BitVec.toNat_ofNat, Nat.mod_eq_of_lt i.sel_lt]
  cases i with
  | deNew k => exact operands_deNew_eq_ok.mpr ⟨htoNat, by simpa [Instr.wf] using h⟩
  | xofNew l => exact operands_xofNew_eq_ok.mpr htoNat
  | deUpdate | deDigest | deReset | xofDigest | xofRead => rfl
  | mtSeedA v key =>
    simp only [Instr.wf, Bool.and_eq_true, decide_eq_true_eq] at h
    obtain ⟨hlen, hfit⟩ := h
    have hcount : (encode (.mtSeedA v key)).arg0.toNat = key.length := Nat.mod_eq_of_lt hlen
    simp only [Instr.op, operands, variantOf_of_sel hsel, hcount]
    exact congrArg (fun key => Except.ok (Instr.mtSeedA v key)) (seedElements_flatMap hfit)
  | mtDouble v closed =>
    simp only [Instr.op, operands, variantOf_of_sel hsel, closed_of_flags hflags]
  | rsFloat v closed =>
    simp only [Instr.op, operands, variantOf_of_sel hsel, closed_of_flags hflags]
    rfl
  | rsInt v closed signed wc =>
    obtain ⟨hc, hs, hw⟩ := operands_of_intFlags hflags
    simp only [Instr.op, operands, variantOf_of_sel hsel, hc, hs, hw]
    rfl
  | mtSeedR | mtNext | mtNextW | mtBit | mtGetState => simp only [Instr.op, operands, variantOf_of_sel hsel]
  | mtSeed | mtSetState =>
    simp only [Instr.op, operands, variantOf_of_sel hsel]
    rfl

/-- The payload of an encoded command has the length its header and `arg0` announce (20_memory.md R42). -/
theorem length_payload_encode {i : Instr} (h : i.wf = true) :
    (encode i).payload.length = payloadLen i.op (encode i).hdr (encode i).arg0 := by
  obtain ⟨-, hsel, -, -⟩ := fields_encode i
  cases i with
  | deUpdate data | deDigest data | mtSetState v data => exact (Nat.mod_eq_of_lt (of_decide_eq_true h)).symm
  | mtSeedA v key =>
    simp only [Instr.wf, Bool.and_eq_true, decide_eq_true_eq] at h
    have hcount : (encode (.mtSeedA v key)).arg0.toNat = key.length := Nat.mod_eq_of_lt h.1
    rw [Instr.op, payloadLen, variantOf_of_sel hsel, hcount, Nat.mul_comm]
    exact length_flatMap_leBytes v.wordBytes key
  | _ => rfl

/-- The `sel` and `flags` of a header are those of the command it carries: each of their bits is an operand bit or
reserved. -/
theorem fields_of_operands {c : Command} {i : Instr} (hfits : i.op.Fits c.hdr) (h : operands i.op c = .ok i) :
    selField c.hdr = BitVec.ofNat 8 i.sel ∧ flagsField c.hdr = BitVec.ofNat 8 i.flags := by
  obtain ⟨-, hsel, hflags, -⟩ := hfits
  have hones (x : Byte) (hx : x &&& 0xff#8 = 0#8) : x = 0#8 := BitVec.and_allOnes.symm.trans hx
  have hnat {n : Nat} (hn : (selField c.hdr).toNat = n) : selField c.hdr = BitVec.ofNat 8 n := by
    rw [← hn, BitVec.ofNat_toNat, BitVec.setWidth_eq]
  cases i with
  | deNew k => exact ⟨hnat (operands_deNew_eq_ok.mp h).1, hones _ hflags⟩
  | xofNew l => exact ⟨hnat (operands_xofNew_eq_ok.mp h), hones _ hflags⟩
  | deUpdate | deDigest | deReset | xofDigest | xofRead => exact ⟨hones _ hsel, hones _ hflags⟩
  | mtDouble | rsFloat =>
    cases h
    exact ⟨sel_of_variantOf hsel, flags_of_closed hflags⟩
  | rsInt =>
    cases h
    exact ⟨sel_of_variantOf hsel, flags_of_int hflags⟩
  | _ =>
    cases h
    exact ⟨sel_of_variantOf hsel, hones _ hflags⟩

theorem encode_hdr_of_operands {c : Command} {i : Instr} (hfits : i.op.Fits c.hdr) (h : operands i.op c = .ok i) :
    (encode i).hdr = c.hdr := by
  obtain ⟨hop, hsel, hflags, hzero⟩ := fields_encode i
  obtain ⟨csel, cflags⟩ := fields_of_operands hfits h
  exact header_ext (hop.trans hfits.code.symm) (hsel.trans csel.symm) (hflags.trans cflags.symm)
    (hzero.trans hfits.zero.symm)

/-- A payload of the announced length makes a well-formed command, and is that command's payload. -/
theorem payload_of_operands {c : Command} {i : Instr} (h : operands i.op c = .ok i)
    (hlen : c.payload.length = payloadLen i.op c.hdr c.arg0) : i.wf = true ∧ (encode i).payload = c.payload := by
  have hempty (h0 : c.payload.length = 0) : ([] : List Byte) = c.payload := (List.length_eq_zero_iff.mp h0).symm
  cases i with
  | deNew k => exact ⟨by simpa [Instr.wf] using (operands_deNew_eq_ok.mp h).2, hempty hlen⟩
  | deUpdate | deDigest | mtSetState =>
    cases h
    exact ⟨decide_eq_true (hlen ▸ c.arg0.isLt), rfl⟩
  | mtSeedA v key =>
    cases h
    refine ⟨?_, flatMap_seedElements hlen⟩
    rw [Instr.wf, seedElements_fit hlen, Bool.and_true, decide_eq_true_eq, length_seedElements]
    exact c.arg0.isLt
  | _ => exact ⟨rfl, hempty hlen⟩

end Sys2Proof

namespace Sys2Proof.Machine

/-- Settles O1: the encoder's header lies in the row of the command, and operands and payload length are read back. -/
theorem decodeInvertsEncode : Obligations.DecodeInvertsEncode :=
  fun i h => decode_eq_ok.mpr ⟨rowOf_encode i, operands_encode h, length_payload_encode h⟩

/-- Settles O2: the four fields of the header and the payload are those of the command decoded. -/
theorem decodedCommandsReencode : Obligations.DecodedCommandsReencode := by
  intro c i h
  obtain ⟨hrow, hops, hlen⟩ := decode_eq_ok.mp h
  obtain ⟨hwf, hpayload⟩ := payload_of_operands hops hlen
  exact ⟨hwf, encode_hdr_of_operands (rowOf_eq_ok.mp hrow) hops, hpayload⟩

end Sys2Proof.Machine

/-! PROOFS. Worked encodings, how RS.INT reads its bounds, and on which port each command delivers (30_encoding.md
R61, R65, R71; 20_memory.md R41). -/

namespace Sys2Proof.Machine

open Sys2Proof.Config

/-- Settles O6: each of the sixteen rows evaluates. -/
theorem workedEncodingsDecode : Obligations.WorkedEncodingsDecode := by
  exact ⟨rfl, rfl, rfl, rfl, rfl, rfl, rfl, rfl, rfl, rfl, rfl, rfl, rfl, rfl, rfl, rfl⟩

/-- The value of the low `w` bits of a word, read as two's complement (30_encoding.md R65). -/
theorem toInt_setWidth {w : Nat} (hw : 0 < w) (arg : Word64) : (arg.setWidth w).toInt =
    if 2 ^ (w - 1) ≤ arg.toNat % 2 ^ w then ((arg.toNat % 2 ^ w : Nat) : Int) - (2 : Int) ^ w
    else (arg.toNat % 2 ^ w : Nat) := by
  have htwo : 2 * 2 ^ (w - 1) = 2 ^ w := by rw [← Nat.pow_succ']; congr 1; omega
  rw [BitVec.toInt_eq_toNat_cond, BitVec.toNat_setWidth, ← htwo]
  by_cases hlow : 2 ^ (w - 1) ≤ arg.toNat % (2 * 2 ^ (w - 1))
  · rw [if_neg (by omega), if_pos hlow, htwo]
    norm_cast
  · rw [if_pos (by omega), if_neg hlow]

/-- Settles O60: the bound is the truncated word, read signed or unsigned, at each of the four widths. -/
theorem samplerBoundsAreTheLowBits : Obligations.SamplerBoundsAreTheLowBits := by
  intro signed wc arg
  have hbound (w : Nat) (hw : 0 < w) (hwc : widthBits wc = w) : boundOperand signed wc arg =
      if signed = true ∧ 2 ^ (w - 1) ≤ arg.toNat % 2 ^ w then ((arg.toNat % 2 ^ w : Nat) : Int) - (2 : Int) ^ w
      else (arg.toNat % 2 ^ w : Nat) := by
    rw [boundOperand, hwc, toInt_setWidth hw, BitVec.toNat_setWidth]
    cases signed <;> simp
  cases wc with
  | w8 => exact hbound 8 (by decide) rfl
  | w16 => exact hbound 16 (by decide) rfl
  | w32 => exact hbound 32 (by decide) rfl
  | w64 => exact hbound 64 (by decide) rfl

/-- A response of an unfaulted unit carries what the effect of the command delivers (60_exceptions.md R209). -/
theorem exec_delivers {i : Instr} {s t : State} {dout : List Byte} {res : Option Word64} (hf : s.fault = false)
    (h : exec i s = .next t) (hreply : t.reply = some (.ok dout res)) :
    ∃ d, effectOf s i = .ok d ∧ d.dout = dout ∧ d.res = res := by
  rcases exec_cases h with ⟨hf', _⟩ | ⟨_, d, hd, rfl⟩ | ⟨_, c, _, rfl⟩
  · simp [hf] at hf'
  · cases hreply
    exact ⟨d, hd, rfl, rfl⟩
  · cases hreply

/-- A command on the engine puts the bytes of its procedure on DOUT and no word on RES. -/
theorem onEngine_delivers {r : Regs} {f : Except Cause (Engine × List Byte)} {d : Done} (h : onEngine r f = .ok d) :
    ∃ e, f = .ok (e, d.dout) ∧ d.res = none := by
  obtain ⟨e, out, hf, rfl⟩ := onEngine_eq_ok.mp h
  exact ⟨e, hf, rfl⟩

theorem length_digestXof {cb : Backend} {e e' : Engine} {n : Nat} {out : List Byte}
    (h : digestXof cb e n = .ok (e', out)) : out.length = n := by
  obtain ⟨_, _, ⟨rfl, _, rfl⟩ | ⟨hn, _, e1, _, _, rfl⟩⟩ := digestXof_ok h
  · rfl
  · exact length_squeezeOnce cb _ n _ (blockSize_pos _) (by have := blockSize_le e.kind; omega) (by omega)

theorem length_readXof {cb : Backend} {e e' : Engine} {n : Nat} {out : List Byte}
    (h : readXof cb e n = .ok (e', out)) : out.length = n := by
  obtain ⟨_, _, ⟨rfl, _, rfl⟩ | ⟨_, e1, _, _, rfl⟩⟩ := readXof_ok h
  · rfl
  · exact length_squeezeBytes cb n e1

/-- An extraction answers a word on RES and nothing on DOUT. -/
theorem extraction_delivers {v : Variant} {draw : Regs → Word64 × Regs} {r : Regs} {d : Done}
    (h : extraction v draw r = .ok d) : d.dout = [] ∧ d.res.isSome = true := by
  obtain ⟨_, rfl⟩ := extraction_ok h
  exact ⟨rfl, rfl⟩

/-- Settles O55: what a command delivers is in the shape of its effect, `silent` for the seedings, `scalar` for draws
and samples, and the procedure's bytes for the engine. -/
theorem outputsGoToTheirPorts : Obligations.OutputsGoToTheirPorts := by
  intro i s t dout res hf h hreply
  obtain ⟨d, hd, rfl, rfl⟩ := exec_delivers hf h hreply
  cases i with
  | deNew =>
    obtain ⟨e, he, hres⟩ := onEngine_delivers hd
    obtain ⟨_, _, hout⟩ := newEngine_ok he
    exact ⟨hout, hres⟩
  | deUpdate =>
    obtain ⟨e, he, hres⟩ := onEngine_delivers hd
    obtain ⟨_, _, _, hout⟩ := updateEngine_ok he
    exact ⟨hout, hres⟩
  | deReset =>
    obtain ⟨e, he, hres⟩ := onEngine_delivers hd
    obtain ⟨_, _, hout⟩ := resetEngine_ok he
    exact ⟨hout, hres⟩
  | deDigest =>
    obtain ⟨e, _, hres⟩ := onEngine_delivers hd
    exact hres
  | xofNew => cases hd; exact ⟨rfl, rfl⟩
  | xofDigest =>
    obtain ⟨e, he, hres⟩ := onEngine_delivers hd
    exact ⟨length_digestXof he, hres⟩
  | xofRead =>
    obtain ⟨e, he, hres⟩ := onEngine_delivers hd
    exact ⟨length_readXof he, hres⟩
  | mtSeedR | mtSeed => cases hd; exact ⟨rfl, rfl⟩
  | mtSeedA =>
    obtain ⟨_, rfl⟩ := seedAEffect_ok hd
    exact ⟨rfl, rfl⟩
  | mtNext | mtNextW | mtBit | mtDouble => exact extraction_delivers hd
  | mtGetState =>
    obtain ⟨_, rfl⟩ := getStateEffect_ok hd
    rfl
  | mtSetState =>
    rw [effectOf, setStateEffect_eq] at hd
    cases hd
    exact ⟨rfl, fun hsilent => by rw [hsilent, reportResult]⟩
  | rsInt =>
    obtain ⟨_, ⟨_, rfl⟩ | ⟨_, _, rfl⟩⟩ := rsIntEffect_ok hd <;> exact ⟨rfl, rfl⟩
  | rsFloat =>
    obtain ⟨_, ⟨_, rfl⟩ | ⟨_, _, rfl⟩⟩ := rsFloatEffect_ok hd <;> exact ⟨rfl, rfl⟩

end Sys2Proof.Machine

/-! PROOFS. What DE.UPDATE and DE.DIGEST do in ABSORB (40_digest_engine.md R82 to R84, R87, R88): a message is its
committed blocks and the rest in the buffer, and a digest completes exactly within the limits of its construction. -/

namespace Sys2Proof.Machine

open Sys2Proof.Config

/-- Settles O23: Absorb completes, and what it leaves is read off its laws. -/
theorem updateCompletes : Obligations.UpdateCompletes := by
  intro s data hf hv hp hle
  obtain ⟨e, ha⟩ := absorb_of_le (backendOf s.params.backend) hle
  obtain ⟨_, _, htotal, hvalid, hkind, hphase, hcursor⟩ := absorb_ok ha
  refine ⟨e, exec_deUpdate hf hv hp ha, hvalid.trans hv, hkind, hphase.trans hp, hcursor, htotal, ?_, fun hi => ?_⟩
  · rintro rfl
    rw [absorb_nil] at ha
    cases ha
    rfl
  · obtain ⟨hinv, habsorb⟩ := absorb_inv hi hp ha
    have hcount := hinv.phase
    simp only [Engine.phaseInv, habsorb] at hcount
    exact hcount.1

/-! The buffer that holds the rest of a message. -/

theorem cells_nil : cells 168 ([] : List Byte) = Vector.replicate 168 0#8 := by
  refine ext_cell _ _ fun i hi => ?_
  rw [cell_cells, cell_replicate, if_pos hi, if_pos hi]
  rfl

/-- The buffer after a byte is the buffer of the longer rest. -/
theorem setIfInBounds_cells (r : List Byte) (b : Byte) (h : r.length < 168) :
    (cells 168 r).setIfInBounds r.length b = cells 168 (r ++ [b]) := by
  refine ext_cell _ _ fun i hi => ?_
  rw [cell_setIfInBounds, cell_cells, cell_cells, if_pos hi, if_pos hi]
  rcases Nat.lt_trichotomy i r.length with hlt | rfl | hgt
  · rw [if_neg (by omega), List.getD_append _ _ _ _ hlt]
  · simp [h]
  · rw [if_neg (by omega), List.getD_eq_default _ _ (by omega), List.getD_eq_default _ _ (by simp; omega)]

theorem take_toList_cells (r : List Byte) (h : r.length ≤ 168) : (cells 168 r).toList.take r.length = r := by
  refine List.ext_getElem (by simpa using h) fun i h1 h2 => ?_
  have hc : cell (cells 168 r) i = r[i] := by
    rw [cell_cells, if_pos (by omega), List.getD_eq_getElem _ _ h2]
  rw [cell_eq_getElem _ _ (by omega)] at hc
  simpa using hc

section
variable (cb : Backend) (k : Kind)

/-- Every message is full blocks and a rest that is no full block. -/
theorem exists_blocks_append_rest (m : List Byte) :
    ∃ p r, m = p ++ r ∧ p.length % blockSize k = 0 ∧ r.length < blockSize k := by
  have hdiv := Nat.div_add_mod m.length (blockSize k)
  have hmod := Nat.mod_lt m.length (blockSize_pos k)
  refine ⟨_, _, (List.take_append_drop (blockSize k * (m.length / blockSize k)) m).symm, ?_, ?_⟩
  · rw [List.length_take, Nat.min_eq_left (by omega), Nat.mul_mod_right]
  · rw [List.length_drop]; omega

theorem blocksState_short {r : List Byte} (hr : r.length < blockSize k) : blocksState cb k r = resetState cb k := by
  simp [blocksState, Nat.div_eq_of_lt hr]

/-- The rest of a message is not committed (40_digest_engine.md R84(c)). -/
theorem blocksState_append_rest {p r : List Byte} (hp : p.length % blockSize k = 0) (hr : r.length < blockSize k) :
    blocksState cb k (p ++ r) = blocksState cb k p := by
  have hpos := blockSize_pos k
  rcases Nat.lt_or_ge p.length (blockSize k) with hlt | hge
  · obtain rfl : p = [] := List.eq_nil_of_length_eq_zero (by rwa [Nat.mod_eq_of_lt hlt] at hp)
    rw [List.nil_append, blocksState_short cb k hr, blocksState_short cb k (r := []) hpos]
  · obtain ⟨p', block, rfl, hblock⟩ : ∃ p' block, p = p' ++ block ∧ block.length = blockSize k :=
      ⟨_, _, (List.take_append_drop (p.length - blockSize k) p).symm, by rw [List.length_drop]; omega⟩
    have hp' : p'.length % blockSize k = 0 := by rwa [List.length_append, hblock, Nat.add_mod_right] at hp
    have hnil := blocksState_append_block cb k p' block [] hp' hblock hpos
    rw [List.append_nil] at hnil
    rw [blocksState_append_block cb k p' block r hp' hblock hr, hnil]

/-- The engine in ABSORB that has committed the blocks of `p` and holds `r` in its buffer, its counter at `T`. -/
def heldEngine (p r : List Byte) (T : Word64) : Engine :=
  { initEngine cb k with
    buffer := cells 168 r, bytesInBuffer := BitVec.ofNat 8 r.length, total := T, state := blocksState cb k p }

/-- The engine that holds a message, by its full blocks and its rest (40_digest_engine.md R84(b)). -/
theorem messageEngine_append_rest {p r : List Byte} (hp : p.length % blockSize k = 0) (hr : r.length < blockSize k) :
    messageEngine cb k (p ++ r) = heldEngine cb k p r (BitVec.ofNat 64 (p ++ r).length) := by
  have hmod : (p ++ r).length % blockSize k = r.length := by
    rw [List.length_append, Nat.add_mod, hp, Nat.zero_add, Nat.mod_mod, Nat.mod_eq_of_lt hr]
  have hblocks : blockSize k * ((p ++ r).length / blockSize k) = p.length := by
    have := Nat.div_add_mod (p ++ r).length (blockSize k)
    rw [hmod, List.length_append] at this
    rw [List.length_append]
    omega
  rw [messageEngine, hmod, hblocks, List.drop_left, blocksState_append_rest cb k hp hr]
  rfl

/-- The initial engine holds the empty message. -/
theorem messageEngine_nil : messageEngine cb k [] = initEngine cb k := by
  have h := messageEngine_append_rest cb k (p := []) (r := []) (Nat.zero_mod _) (blockSize_pos k)
  rw [heldEngine, cells_nil, blocksState_short cb k (r := []) (blockSize_pos k)] at h
  exact h

theorem toNat_ofNat_length {r : List Byte} (h : r.length ≤ blockSize k) :
    (BitVec.ofNat 8 r.length).toNat = r.length := by
  have := blockSize_le k
  rw [BitVec.toNat_ofNat]
  omega

theorem pushByte_heldEngine (p : List Byte) {r : List Byte} (b : Byte) (T : Word64) (h : r.length < blockSize k) :
    pushByte (heldEngine cb k p r T) b = heldEngine cb k p (r ++ [b]) T := by
  have hle := blockSize_le k
  have hcount : BitVec.ofNat 8 (r ++ [b]).length = BitVec.ofNat 8 r.length + 1 := by
    rw [List.length_append, BitVec.ofNat_add]; rfl
  simp only [pushByte, heldEngine, toNat_ofNat_length k h.le, setIfInBounds_cells r b (by omega), hcount]

theorem commit_heldEngine {p r : List Byte} (T : Word64) (hp : p.length % blockSize k = 0)
    (hr : r.length = blockSize k) : commit cb (heldEngine cb k p r T) = heldEngine cb k (p ++ r) [] T := by
  have hblock : (cells 168 r).toList.take (blockSize k) = r := by
    have := blockSize_le k
    rw [← hr, take_toList_cells r (by omega)]
  have hstate := blocksState_append_block cb k p r [] hp hr (blockSize_pos k)
  rw [List.append_nil] at hstate
  simp only [commit, heldEngine, initEngine_kind, hblock, hstate, cells_nil]
  rfl

/-- One byte more: it stays in the buffer, or it completes the block that is committed (40_digest_engine.md R82);
only Absorb itself moves the counter. -/
theorem absorbByte_messageEngine (m : List Byte) (b : Byte) : absorbByte cb (messageEngine cb k m) b =
    { messageEngine cb k (m ++ [b]) with total := BitVec.ofNat 64 m.length } := by
  obtain ⟨p, r, rfl, hp, hr⟩ := exists_blocks_append_rest k m
  have hlen : (r ++ [b]).length ≤ blockSize k := by rw [List.length_append]; exact hr
  have hcount (T : Word64) : (heldEngine cb k p (r ++ [b]) T).bytesInBuffer.toNat = (r ++ [b]).length :=
    toNat_ofNat_length k hlen
  have hkind (T : Word64) : (heldEngine cb k p r T).kind = k := rfl
  rw [messageEngine_append_rest cb k hp hr, absorbByte_eq, pushByte_heldEngine cb k p b _ hr, hcount, hkind,
    List.append_assoc]
  split
  · next hfull =>
    have hblocks : (p ++ (r ++ [b])).length % blockSize k = 0 := by
      rw [List.length_append, hfull, Nat.add_mod_right, hp]
    have hheld := messageEngine_append_rest cb k (r := []) hblocks (blockSize_pos k)
    rw [List.append_nil] at hheld
    rw [commit_heldEngine cb k _ hp hfull, hheld]
    rfl
  · next hnot =>
    rw [messageEngine_append_rest cb k hp (lt_of_le_of_ne hlen hnot)]
    rfl

theorem absorbBytes_messageEngine (m data : List Byte) : absorbBytes cb (messageEngine cb k m) data =
    { messageEngine cb k (m ++ data) with total := BitVec.ofNat 64 m.length } := by
  induction data generalizing m with
  | nil => rw [List.append_nil]; rfl
  | cons b data ih =>
    calc absorbBytes cb (messageEngine cb k m) (b :: data)
        = absorbBytes cb { messageEngine cb k (m ++ [b]) with total := BitVec.ofNat 64 m.length } data :=
          congrArg (absorbBytes cb · data) (absorbByte_messageEngine cb k m b)
      _ = { messageEngine cb k (m ++ b :: data) with total := BitVec.ofNat 64 m.length } := by
          rw [absorbBytes_total, ih, List.append_assoc, List.singleton_append]

/-- Absorb takes the engine that holds a message to the one that holds the longer message. -/
theorem absorb_messageEngine {m data : List Byte} (h : m.length + data.length ≤ 2 ^ 64 - 1) :
    absorb cb (messageEngine cb k m) data = .ok (messageEngine cb k (m ++ data)) := by
  have htotal : (messageEngine cb k m).total = BitVec.ofNat 64 m.length := rfl
  have hlong : (messageEngine cb k (m ++ data)).total = BitVec.ofNat 64 (m ++ data).length := rfl
  have hlen : (BitVec.ofNat 64 m.length).toNat = m.length := by rw [BitVec.toNat_ofNat]; omega
  rw [absorb, htotal, hlen, if_neg (by omega), absorbBytes_messageEngine, ← BitVec.ofNat_add, ← List.length_append,
    ← hlong]

end

/-- Settles O24: Absorb of the payload, byte by byte, in the engine that holds the message. -/
theorem updateExtendsTheMessage : Obligations.UpdateExtendsTheMessage := by
  intro s k m data hf cb hde hle
  have habsorb : absorb cb s.regs.de data = .ok (messageEngine cb k (m ++ data)) := by
    rw [hde]; exact absorb_messageEngine cb k hle
  exact ⟨messageEngine_nil cb k, exec_deUpdate hf (by rw [hde]; rfl) (by rw [hde]; rfl) habsorb⟩

/-! The length limits of a digest. -/

/-- A message of `T` bytes is within the length limit of its construction: the bit length fits the length field
(41_merkle_damgard.md R101), or the padded message fits the counter (42_sponge.md R113). -/
def DigestFits (k : Kind) (T : Nat) : Prop :=
  if isSponge k then T + (blockSize k - T % blockSize k) ≤ 2 ^ 64 - 1 else T < 2 ^ 61

section
variable {k : Kind} {T : Nat}

theorem mdZeros_lt (T : Nat) (k : Kind) : mdZeros T (blockSize k) < 2 * blockSize k := by
  have hpos := blockSize_pos k
  simp only [mdZeros]
  split <;> omega

/-- The pad is generated and fits the counter exactly within the limit. -/
theorem digestPad_fits_iff : (∃ pad, digestPad k T = .ok pad ∧ T + pad.length ≤ 2 ^ 64 - 1) ↔ DigestFits k T := by
  rcases Bool.eq_false_or_eq_true (isSponge k) with hs | hs
  · simp [DigestFits, digestPad, hs, length_spongePad _ _ _ (blockSize_pos k)]
  · simp only [DigestFits, digestPad, hs, Bool.false_eq_true, if_false, mdPad]
    have hzeros := mdZeros_lt T k
    have hle := blockSize_le k
    split
    · next hge => exact ⟨nofun, fun hlt => by omega⟩
    · next hlt => exact ⟨fun _ => by omega, fun _ => ⟨_, rfl, by simp; omega⟩⟩

/-- A shorter message fits where a longer one does: the next block boundary only moves down. -/
theorem DigestFits.mono {T' : Nat} (h : DigestFits k T) (hle : T' ≤ T) : DigestFits k T' := by
  have hnext : T' + (blockSize k - T' % blockSize k) ≤ T + (blockSize k - T % blockSize k) := by
    have hboundary : ∀ n, n + (blockSize k - n % blockSize k) = blockSize k * (n / blockSize k + 1) := fun n => by
      have := Nat.div_add_mod n (blockSize k)
      have := Nat.mod_lt n (blockSize_pos k)
      rw [Nat.mul_add]
      omega
    rw [hboundary, hboundary]
    exact Nat.mul_le_mul_left _ (Nat.succ_le_succ (Nat.div_le_div_right hle))
  unfold DigestFits at h ⊢
  split at h
  · next hs => rw [if_pos hs]; omega
  · next hs => rw [if_neg hs]; omega

/-- Within the limit the message itself fits the counter. -/
theorem DigestFits.message_le (h : DigestFits k T) : T ≤ 2 ^ 64 - 1 := by
  obtain ⟨_, _, hle⟩ := digestPad_fits_iff.mpr h
  omega

end

/-! When DE.DIGEST completes, and how much it delivers. -/

section
variable {cb : Backend} {e e' : Engine} {data out : List Byte} {dl : Nat}

theorem digestEngine_of_fits (cb : Backend) (hv : e.valid = true) (hp : e.phase = .absorb)
    (hdl : digestLength e.kind = some dl) (hfits : DigestFits e.kind (e.total.toNat + data.length)) :
    ∃ out, digestEngine cb e data = .ok (initEngine cb e.kind, out) := by
  obtain ⟨e1, h1⟩ := absorb_of_le cb hfits.message_le
  obtain ⟨_, _, htotal, _, hkind, _⟩ := absorb_ok h1
  obtain ⟨pad, hpad, hle⟩ := digestPad_fits_iff.mpr hfits
  obtain ⟨e2, h2⟩ := absorb_of_le cb (e := e1) (d := pad) (by rwa [htotal])
  obtain ⟨_, _, _, _, hkind2, _⟩ := absorb_ok h2
  refine ⟨digestOutput cb e2 dl, ?_⟩
  simp [digestEngine, hv, hp, hdl, h1, hkind, htotal, hpad, h2, hkind2, pure, Except.pure]

theorem digestEngine_fits (h : digestEngine cb e data = .ok (e', out)) :
    DigestFits e.kind (e.total.toNat + data.length) := by
  obtain ⟨_, _, _, e1, pad, _, _, h1, hpad, h2, _⟩ := digestEngine_ok h
  obtain ⟨_, _, htotal, _, hkind, _⟩ := absorb_ok h1
  obtain ⟨hle, _⟩ := absorb_ok h2
  rw [htotal, hkind] at hpad
  rw [htotal] at hle
  exact digestPad_fits_iff.mp ⟨pad, hpad, hle⟩

theorem digestLength_pos {k : Kind} (h : digestLength k = some dl) : 1 ≤ dl := by
  cases k <;> cases h <;> decide

/-! Which kinds have a shape (10_state.md R16), and how many bytes the words of a shape are. -/

section
variable {k : Kind}

theorem hasShape_words5 {v : Vector Word32 5} : hasShape k (.words5 v) = true ↔ k = .sha1 := by
  cases k <;> simp [hasShape]
theorem hasShape_words8 {v : Vector Word32 8} : hasShape k (.words8 v) = true ↔ k = .sha224 ∨ k = .sha256 := by
  cases k <;> simp [hasShape]
theorem hasShape_limbs8 {v : Vector Word64 8} : hasShape k (.limbs8 v) = true ↔ k = .sha384 ∨ k = .sha512 := by
  cases k <;> simp [hasShape]
theorem hasShape_bytes {v : Vector Byte 200} : hasShape k (.bytes v) = isSponge k := by cases k <;> rfl

end

@[simp] theorem length_serialize_words5 (v : Vector Word32 5) : (serialize (.words5 v)).length = 20 := by simp [serialize]
@[simp] theorem length_serialize_words8 (v : Vector Word32 8) : (serialize (.words8 v)).length = 32 := by simp [serialize]
@[simp] theorem length_serialize_limbs8 (v : Vector Word64 8) : (serialize (.limbs8 v)).length = 64 := by simp [serialize]

/-- The words of a MerkleDamgard state hold the whole digest (41_merkle_damgard.md R103). -/
theorem digestLength_le_serialize {k : Kind} {st : DState} (hmd : isSponge k = false) (hs : hasShape k st = true)
    (h : digestLength k = some dl) : dl ≤ (serialize st).length := by
  cases st with
  | words5 v =>
    obtain rfl := hasShape_words5.mp hs
    cases h
    simp
  | words8 v => obtain rfl | rfl := hasShape_words8.mp hs <;> cases h <;> simp
  | limbs8 v => obtain rfl | rfl := hasShape_limbs8.mp hs <;> cases h <;> simp
  | bytes v => rw [hasShape_bytes, hmd] at hs; cases hs

theorem length_digestOutput (cb : Backend) (hs : hasShape e.kind e.state = true) (h : digestLength e.kind = some dl) :
    (digestOutput cb e dl).length = dl := by
  have hle := blockSize_le e.kind
  unfold digestOutput
  split
  · exact length_squeezeOnce cb _ _ _ (blockSize_pos _) (by omega) (digestLength_pos h)
  · next hmd =>
    have := digestLength_le_serialize (Bool.eq_false_iff.mpr hmd) hs h
    rw [mdExtract, List.length_take, Nat.min_eq_left this]

/-- An engine that meets the invariant delivers `digestLength` bytes. -/
theorem length_digestEngine_out (hi : e.Inv) (hdl : digestLength e.kind = some dl)
    (h : digestEngine cb e data = .ok (e', out)) : out.length = dl := by
  obtain ⟨_, hp, dl', e1, pad, e2, hdl', h1, _, h2, _, rfl⟩ := digestEngine_ok h
  obtain rfl : dl = dl' := Option.some.inj (hdl.symm.trans hdl')
  obtain ⟨hi1, hp1⟩ := absorb_inv hi hp h1
  obtain ⟨hi2, _⟩ := absorb_inv hi1 hp1 h2
  obtain ⟨_, _, _, _, hkind1, _⟩ := absorb_ok h1
  obtain ⟨_, _, _, _, hkind2, _⟩ := absorb_ok h2
  exact length_digestOutput cb hi2.shape (by rw [hkind2, hkind1, hdl])

/-- What completes once completes on the initial engine, and answers the initial engine again. -/
theorem digestEngine_initEngine (h : digestEngine cb e data = .ok (e', out)) :
    ∃ out', digestEngine cb (initEngine cb e.kind) data = .ok (initEngine cb e.kind, out') := by
  obtain ⟨_, _, _, _, _, _, hdl, _⟩ := digestEngine_ok h
  have hfits := (digestEngine_fits h).mono (T' := (initEngine cb e.kind).total.toNat + data.length) (by simp)
  exact digestEngine_of_fits cb rfl rfl hdl hfits

/-- DE.DIGEST writes the engine that the procedure answers and delivers its bytes (40_digest_engine.md R88). -/
theorem effectOf_deDigest {s : State} (h : digestEngine (backendOf s.params.backend) s.regs.de data = .ok (e, out)) :
    effectOf s (.deDigest data) = .ok { regs := { s.regs with de := e }, dout := out, res := none } := by
  rw [effectOf, h, onEngine_ok]

end

/-- Settles O26: within the limit of the construction no part of the digest faults. -/
theorem digestCompletes : Obligations.DigestCompletes := by
  intro s data dl hf hv hp hdl cb bs T hmd hsponge
  have hfits : DigestFits s.regs.de.kind T := by
    unfold DigestFits
    split
    · next hs => exact hsponge hs
    · next hs => exact hmd (Bool.eq_false_iff.mpr hs)
  obtain ⟨out, hout⟩ := digestEngine_of_fits cb hv hp hdl hfits
  exact ⟨out, exec_of_effect_ok hf (effectOf_deDigest hout), fun hi => length_digestEngine_out hi hdl hout⟩

/-- Settles O28: the first digest leaves the initial engine, on which the second has an effect that the third,
again on the initial engine, repeats. -/
theorem digestTwiceGivesTheSameOutput : Obligations.DigestTwiceGivesTheSameOutput := by
  intro s t m hf hx ht
  obtain ⟨d, hd, rfl⟩ := exec_completed hx ht
  obtain ⟨e, out, he, rfl⟩ := onEngine_eq_ok.mp hd
  obtain ⟨_, _, _, _, _, _, _, _, _, _, rfl, _⟩ := digestEngine_ok he
  obtain ⟨out', hagain⟩ := digestEngine_initEngine he
  exact ⟨_, exec_of_effect_ok ht (effectOf_deDigest hagain), ht, exec_again ht (effectOf_deDigest hagain)⟩

end Sys2Proof.Machine

/-! PROOFS. The length pad completes a block (41_merkle_damgard.md R101, R102), and DE.DIGEST delivers the digest of
the message the engine holds followed by its payload (40_digest_engine.md R88). -/

namespace Sys2Proof.Machine

open Sys2Proof.Config

/-! The length pad. -/

/-- The length field, byte by byte (41_merkle_damgard.md R101). -/
theorem beBytes_eq_map_range (n x : Nat) :
    beBytes n x = (List.range n).map fun j => BitVec.ofNat 8 (x / 256 ^ (n - 1 - j)) := by
  rw [map_range_eq_take _ (beBytes n x) n (length_beBytes n x).ge fun i hi => getD_beBytes n x i hi,
    List.take_of_length_le (length_beBytes n x).le]

theorem mdZeros_le {bs : Nat} (T : Nat) (h : 0 < bs) : mdZeros T bs ≤ bs - 1 := by
  have hr := Nat.mod_lt T h
  simp only [mdZeros]
  split <;> omega

/-- The pad completes the last block, or the one after it when 0x80 and the length field do not fit
(41_merkle_damgard.md R102). -/
theorem add_mdPad_length {bs : Nat} (T : Nat) (h : 0 < bs) :
    T + (1 + mdZeros T bs + bs / 8) = bs * (T / bs + if T % bs < bs - bs / 8 then 1 else 2) := by
  have hr := Nat.mod_lt T h
  have hT := Nat.div_add_mod T bs
  simp only [mdZeros, Nat.mul_add]
  split <;> omega

/-- Settles O29: the number of zeros is `mdZeros`, and message and pad are a whole number of blocks. -/
theorem lengthPadEndsOnABlock : Obligations.LengthPadEndsOnABlock := by
  intro T bs hbs cut
  have hpos : 0 < bs := by omega
  refine ⟨fun hge => if_pos hge, fun hlt => ⟨mdZeros T bs, mdZeros_le T hpos, ?_, ?_, ?_⟩⟩
  · rw [mdPad, if_neg (by omega), beBytes_eq_map_range]
  · rw [add_mdPad_length T hpos, Nat.mul_mod_right]
  · rw [add_mdPad_length T hpos, Nat.mul_div_cancel_left _ hpos]

/-! The digest of the message an engine holds. -/

section
variable {k : Kind} {dl : Nat}

/-- The rate of a fixed-output sponge kind holds the whole digest (10_state.md R10). -/
theorem digestLength_le_blockSize (h : digestLength k = some dl) : dl ≤ blockSize k := by
  cases k <;> cases h <;> decide

/-- A squeeze of at most one block reads the state before any permutation (42_sponge.md R116). -/
theorem squeezeOnce_of_le (cb : Backend) {bs n : Nat} (s : Vector Byte 200) (hn : 1 ≤ n) (hle : n ≤ bs) :
    squeezeOnce cb bs s n = s.toList.take n := by
  rw [squeezeOnce, Nat.div_eq_of_lt (by omega), squeezeBlocks, Nat.min_eq_right hle]

theorem eq_padBytes_of_digestPad {T : Nat} {pad : List Byte} (h : digestPad k T = .ok pad) : pad = padBytes k T := by
  unfold digestPad at h
  unfold padBytes
  split at h
  · next hs => cases h; rw [if_pos hs]; rfl
  · next hmd => rw [if_neg hmd, h]

theorem digestFits_of_limits {T : Nat} (hmd : isSponge k = false → T < 2 ^ 61)
    (hsponge : isSponge k = true → T + (blockSize k - T % blockSize k) ≤ 2 ^ 64 - 1) : DigestFits k T := by
  unfold DigestFits
  split
  · next hs => exact hsponge hs
  · next hs => exact hmd (Bool.eq_false_iff.mpr hs)

variable (cb : Backend)

theorem toNat_total_messageEngine (k : Kind) {m : List Byte} (h : m.length ≤ 2 ^ 64 - 1) :
    (messageEngine cb k m).total.toNat = m.length := by
  change (BitVec.ofNat 64 m.length).toNat = m.length
  rw [BitVec.toNat_ofNat]
  omega

/-- The extraction from the engine that holds the padded message (41_merkle_damgard.md R103, 42_sponge.md R116). -/
theorem digestOutput_messageEngine (m : List Byte) (hdl : digestLength k = some dl) :
    digestOutput cb (messageEngine cb k (m ++ padBytes k m.length)) dl = digestOf cb k m := by
  rw [digestOf_eq cb k m dl hdl, ← squeezeOnce_of_le cb _ (digestLength_pos hdl) (digestLength_le_blockSize hdl)]
  rfl

/-- DE.DIGEST on the engine that holds a message: payload and pad are absorbed, and the state is that of the padded
message (40_digest_engine.md R88). -/
theorem digestEngine_messageEngine {m data : List Byte} (hdl : digestLength k = some dl)
    (hfits : DigestFits k (m.length + data.length)) :
    digestEngine cb (messageEngine cb k m) data = .ok (initEngine cb k, digestOf cb k (m ++ data)) := by
  have hpayload := hfits.message_le
  have htotal : (messageEngine cb k m).total.toNat = m.length := toNat_total_messageEngine cb k (by omega)
  have hlong : (messageEngine cb k (m ++ data)).total.toNat = (m ++ data).length :=
    toNat_total_messageEngine cb k (by rwa [List.length_append])
  obtain ⟨out, hout⟩ := digestEngine_of_fits cb (e := messageEngine cb k m) (data := data) rfl rfl hdl (by rwa [htotal])
  obtain ⟨_, _, dl', e1, pad, e2, hdl', h1, hpad, h2, _, rfl⟩ := digestEngine_ok hout
  obtain rfl : dl = dl' := Option.some.inj (hdl.symm.trans hdl')
  obtain rfl : messageEngine cb k (m ++ data) = e1 := Except.ok.inj ((absorb_messageEngine cb k hpayload).symm.trans h1)
  obtain ⟨hroom, _⟩ := absorb_ok h2
  rw [hlong] at hpad hroom
  obtain rfl := eq_padBytes_of_digestPad hpad
  obtain rfl := Except.ok.inj ((absorb_messageEngine cb k hroom).symm.trans h2)
  rw [hout, ← digestOutput_messageEngine cb (m ++ data) hdl]
  rfl

end

/-- Settles O27: the engine that holds the message absorbs payload and pad, and the extraction reads the state of the
padded message. -/
theorem digestIsTheFoldOverThePaddedMessage : Obligations.DigestIsTheFoldOverThePaddedMessage := by
  intro s k m data dl hf cb T hde hdl hmd hsponge
  have hdigest := digestEngine_messageEngine cb hdl (digestFits_of_limits hmd hsponge)
  rw [← hde] at hdigest
  exact exec_of_effect_ok hf (effectOf_deDigest hdigest)

end Sys2Proof.Machine

/-! PROOFS. The sponge pad, and what XOF.DIGEST and XOF.READ deliver and leave (42_sponge.md R113 to R123). -/

namespace Sys2Proof.Machine

open Sys2Proof.Config

/-! The sponge pad. -/

/-- Message and sponge pad are a whole number of blocks (42_sponge.md R113). -/
theorem add_spongePad_length {bs : Nat} (T : Nat) (h : 0 < bs) : T + (bs - T % bs) = bs * (T / bs + 1) := by
  have := Nat.div_add_mod T bs
  have := Nat.mod_lt T h
  rw [Nat.mul_add]
  omega

/-- The pad depends on the length within the last block only (42_sponge.md R114). -/
theorem spongePad_mod (T bs : Nat) (suffix : Byte) : spongePad (T % bs) bs suffix = spongePad T bs suffix := by
  rw [spongePad, spongePad, Nat.mod_mod]

/-- Settles O30: the length is that of `spongePad`, and message and pad are one block more than the full blocks. -/
theorem spongePadEndsOnTheNextBlock : Obligations.SpongePadEndsOnTheNextBlock := by
  intro T bs suffix hpos pad q
  have hmod := Nat.mod_lt T hpos
  refine ⟨length_spongePad T bs suffix hpos, by omega, Nat.sub_le _ _, ?_, ?_, (spongePad_mod T bs suffix).symm,
    fun hone => if_pos hone, fun htwo => if_neg (by omega)⟩
  · rw [add_spongePad_length T hpos, Nat.mul_mod_right]
  · rw [add_spongePad_length T hpos, Nat.mul_div_cancel_left _ hpos]

/-! When the XOF commands complete, and with what. -/

section
variable {cb : Backend} {e e1 : Engine} {n : Nat}

/-- There is room for the XOF pad where the padded message fits the counter. -/
theorem absorbXofPad_of_room (cb : Backend)
    (hroom : e.total.toNat + (blockSize e.kind - e.total.toNat % blockSize e.kind) ≤ 2 ^ 64 - 1) :
    ∃ e1, absorbXofPad cb e = .ok e1 :=
  absorb_of_le cb (by rwa [length_spongePad _ _ _ (blockSize_pos _)])

theorem enterSqueeze_absorb (hp : e.phase = .absorb) (h : absorbXofPad cb e = .ok e1) :
    enterSqueeze cb e = .ok { e1 with phase := .squeeze, cursor := 0#8 } := by
  rw [enterSqueeze, hp]
  simp only [h, ok_bind]
  rfl

theorem enterSqueeze_squeeze (cb : Backend) (hp : e.phase = .squeeze) : enterSqueeze cb e = .ok e := by
  rw [enterSqueeze, hp]

theorem enterSqueeze_of_room (cb : Backend) (hroom : e.phase = .absorb →
      e.total.toNat + (blockSize e.kind - e.total.toNat % blockSize e.kind) ≤ 2 ^ 64 - 1) :
    ∃ e1, enterSqueeze cb e = .ok e1 := by
  cases hp : e.phase with
  | absorb =>
    obtain ⟨e1, h1⟩ := absorbXofPad_of_room cb (hroom hp)
    exact ⟨_, enterSqueeze_absorb hp h1⟩
  | squeeze => exact ⟨e, enterSqueeze_squeeze cb hp⟩

theorem enterSqueeze_phase (h : enterSqueeze cb e = .ok e1) : e1.phase = .squeeze := by
  rcases enterSqueeze_ok h with ⟨_, _, _, rfl⟩ | ⟨hp, rfl⟩
  · rfl
  · exact hp

/-- XOF.DIGEST behind its guards (42_sponge.md R119). -/
theorem digestXof_of_pad (hv : e.valid = true) (hk : servesXof e.kind = true) (hn : n ≠ 0) (hp : e.phase = .absorb)
    (h : absorbXofPad cb e = .ok e1) : digestXof cb e n =
      .ok (initEngine cb e.kind, squeezeOnce cb (blockSize e.kind) (spongeState e1.state) n) := by
  simp [digestXof, hv, hk, hn, hp, h, pure, Except.pure]

/-- XOF.READ behind its guards (42_sponge.md R120). -/
theorem readXof_of_enter (hv : e.valid = true) (hk : servesXof e.kind = true) (hn : n ≠ 0)
    (h : enterSqueeze cb e = .ok e1) : readXof cb e n = .ok ((squeezeBytes cb n e1).2, (squeezeBytes cb n e1).1) := by
  simp [readXof, hv, hk, hn, h, pure, Except.pure]

/-- A zero-length XOF.DIGEST ends after the kind guard (42_sponge.md R121). -/
theorem digestXof_zero_eq (cb : Backend) (hv : e.valid = true) :
    digestXof cb e 0 = if servesXof e.kind then .ok (e, []) else .error .badKind := by
  rw [digestXof, hv]
  cases servesXof e.kind <;> rfl

/-- A zero-length XOF.READ ends after the kind guard (42_sponge.md R121). -/
theorem readXof_zero_eq (cb : Backend) (hv : e.valid = true) :
    readXof cb e 0 = if servesXof e.kind then .ok (e, []) else .error .badKind := by
  rw [readXof, hv]
  cases servesXof e.kind <;> rfl

end

section
variable {s : State} {e : Engine} {out : List Byte} {n : Word64} {c : Cause}

/-- XOF.DIGEST writes the engine that the procedure answers and delivers its bytes. -/
theorem exec_xofDigest (hf : s.fault = false)
    (h : digestXof (backendOf s.params.backend) s.regs.de n.toNat = .ok (e, out)) : exec (.xofDigest n) s =
      .next (s.complete { regs := { s.regs with de := e }, dout := out, res := none }) :=
  exec_of_effect_ok hf (by rw [effectOf, h, onEngine_ok])

/-- XOF.READ writes the engine that the procedure answers and delivers its bytes. -/
theorem exec_xofRead (hf : s.fault = false)
    (h : readXof (backendOf s.params.backend) s.regs.de n.toNat = .ok (e, out)) : exec (.xofRead n) s =
      .next (s.complete { regs := { s.regs with de := e }, dout := out, res := none }) :=
  exec_of_effect_ok hf (by rw [effectOf, h, onEngine_ok])

theorem exec_xofDigest_error (hf : s.fault = false)
    (h : digestXof (backendOf s.params.backend) s.regs.de n.toNat = .error c) :
    exec (.xofDigest n) s = .next (s.raiseFault c) :=
  exec_of_effect_error hf (by rw [effectOf, h, onEngine_error])

theorem exec_xofRead_error (hf : s.fault = false)
    (h : readXof (backendOf s.params.backend) s.regs.de n.toNat = .error c) :
    exec (.xofRead n) s = .next (s.raiseFault c) :=
  exec_of_effect_error hf (by rw [effectOf, h, onEngine_error])

/-- A read that leaves the unit unfaulted is one its procedure answers. -/
theorem exec_xofRead_completed {t : State} (h : exec (.xofRead n) s = .next t) (ht : t.fault = false) :
    ∃ e out, readXof (backendOf s.params.backend) s.regs.de n.toNat = .ok (e, out) ∧
      t = s.complete { regs := { s.regs with de := e }, dout := out, res := none } := by
  obtain ⟨d, hd, rfl⟩ := exec_completed h ht
  obtain ⟨e, out, he, rfl⟩ := onEngine_eq_ok.mp hd
  exact ⟨e, out, he, rfl⟩

end

/-- Settles O32: both procedures answer the engine they were given, or fault at the kind guard. -/
theorem zeroLengthRequestsChangeNothing : Obligations.ZeroLengthRequestsChangeNothing := by
  intro s hf hv
  have hdigest := digestXof_zero_eq (backendOf s.params.backend) hv
  have hread := readXof_zero_eq (backendOf s.params.backend) hv
  refine ⟨fun hk => ?_, fun hk => ?_⟩
  · rw [if_pos (servesXof_iff.mpr hk)] at hdigest hread
    exact ⟨exec_xofDigest hf hdigest, exec_xofRead hf hread⟩
  · rw [if_neg (mt servesXof_iff.mp hk)] at hdigest hread
    exact ⟨exec_xofDigest_error hf hdigest, exec_xofRead_error hf hread⟩

/-- Settles O31: the pad has room, and the squeezes deliver what is asked for and keep all but state and cursor. -/
theorem xofCommandsComplete : Obligations.XofCommandsComplete := by
  intro s n hf hv hn hk cb bs room
  have hserves := servesXof_iff.mpr hk
  refine ⟨fun hp hroom => ?_, fun hroom => ?_⟩
  · obtain ⟨e1, h1⟩ := absorbXofPad_of_room cb hroom
    have hdigest := digestXof_of_pad hv hserves (BitVec.toNat_ne.mp hn) hp h1
    exact ⟨_, length_digestXof hdigest, exec_xofDigest hf hdigest⟩
  · obtain ⟨e1, h1⟩ := enterSqueeze_of_room cb hroom
    have hread := readXof_of_enter hv hserves (BitVec.toNat_ne.mp hn) h1
    obtain ⟨hvalid, hkind⟩ := readXof_frame hread
    obtain ⟨_, _, hbuffer, hcount, htotal, hphase⟩ := squeezeBytes_frame cb n.toNat e1
    refine ⟨_, _, length_readXof hread, exec_xofRead hf hread, hvalid.trans hv, hkind,
      hphase.trans (enterSqueeze_phase h1), fun hp => ?_⟩
    obtain rfl : s.regs.de = e1 := Except.ok.inj ((enterSqueeze_squeeze cb hp).symm.trans h1)
    exact ⟨hbuffer, hcount, htotal⟩

/-! Delivering one byte (42_sponge.md R117). -/

section
variable (cb : Backend) {e : Engine}

/-- Inside a block the byte at the cursor is delivered. -/
theorem squeezeByte_inside (h : e.cursor.toNat ≠ blockSize e.kind) :
    squeezeByte cb e = (cell (spongeState e.state) e.cursor.toNat, { e with cursor := e.cursor + 1 }) := by
  rw [squeezeByte, if_neg h]

/-- Where the block is used up the state is permuted first. -/
theorem squeezeByte_usedUp (h : e.cursor.toNat = blockSize e.kind) :
    squeezeByte cb e = (cell (cb.keccakF (spongeState e.state)) 0,
      { e with state := .bytes (cb.keccakF (spongeState e.state)), cursor := 1#8 }) := by
  rw [squeezeByte, if_pos h]
  rfl

end

/-! The output sequence of a sponge state (42_sponge.md R116, R123). -/

section
variable (cb : Backend) (bs : Nat) (s : Vector Byte 200)

theorem permuted_keccakF (n : Nat) : permuted cb n (cb.keccakF s) = permuted cb (n + 1) s := by
  induction n with
  | zero => rfl
  | succ n ih => rw [permuted, ih]; rfl

/-- The bytes behind the first block are those of the permuted state. -/
theorem streamByte_add_block (hpos : 0 < bs) (i : Nat) :
    streamByte cb bs s (bs + i) = streamByte cb bs (cb.keccakF s) i := by
  rw [streamByte, streamByte, Nat.add_mod_left, Nat.add_div_left _ hpos, permuted_keccakF]

/-- The bytes of the first block are the rate of the state. -/
theorem take_eq_streamBytes {n : Nat} (hn : n ≤ bs) (hbs : bs ≤ 200) :
    s.toList.take n = (List.range n).map (streamByte cb bs s) := by
  refine (map_range_eq_take _ _ _ (by simp; omega) fun i hi => ?_).symm
  rw [streamByte, Nat.div_eq_of_lt (by omega), Nat.mod_eq_of_lt (by omega)]
  rfl

/-- The loop of SqueezeOnce reads the sequence block by block; its last block is the `k`-th behind the first. -/
theorem squeezeBlocks_eq_streamBytes (hpos : 0 < bs) (hbs : bs ≤ 200) (k n : Nat) (hlo : k * bs ≤ n)
    (hhi : n ≤ (k + 1) * bs) : squeezeBlocks cb bs k s n = (List.range n).map (streamByte cb bs s) := by
  induction k generalizing s n with
  | zero =>
    have hn : n ≤ bs := by omega
    rw [squeezeBlocks, Nat.min_eq_right hn, take_eq_streamBytes cb bs s hn hbs]
  | succ k ih =>
    rw [Nat.succ_mul] at hlo hhi
    obtain ⟨j, rfl⟩ : ∃ j, n = bs + j := ⟨n - bs, by omega⟩
    rw [squeezeBlocks, Nat.add_sub_cancel_left, take_eq_streamBytes cb bs s le_rfl hbs,
      ih _ j (by omega) (by omega), List.range_add, List.map_append, List.map_map]
    refine congrArg _ (List.map_congr_left fun i _ => ?_)
    exact (streamByte_add_block cb bs s hpos i).symm

/-- SqueezeOnce delivers the first bytes of the output sequence (42_sponge.md R123(a)). -/
theorem squeezeOnce_eq_streamBytes (hpos : 0 < bs) (hbs : bs ≤ 200) (n : Nat) :
    squeezeOnce cb bs s n = (List.range n).map (streamByte cb bs s) := by
  have hdiv := Nat.div_add_mod (n - 1) bs
  have hmod := Nat.mod_lt (n - 1) hpos
  rw [Nat.mul_comm] at hdiv
  exact squeezeBlocks_eq_streamBytes cb bs s hpos hbs _ n (by omega) (by rw [Nat.succ_mul]; omega)

end

/-! The engine that holds a message, from its finalisation on. -/

section
variable (cb : Backend) (k : Kind) (m : List Byte)

theorem absorbXofPad_messageEngine {m : List Byte}
    (hroom : m.length + (blockSize k - m.length % blockSize k) ≤ 2 ^ 64 - 1) :
    absorbXofPad cb (messageEngine cb k m) =
      .ok (messageEngine cb k (m ++ spongePad m.length (blockSize k) xofSuffix)) := by
  have htotal := toNat_total_messageEngine cb k (m := m) (by omega)
  have hkind : (messageEngine cb k m).kind = k := rfl
  rw [absorbXofPad, htotal, hkind]
  exact absorb_messageEngine cb k (by rwa [length_spongePad _ _ _ (blockSize_pos k)])

/-- The running state of a sponge kind is 200 bytes (10_state.md R16). -/
theorem blocksState_eq_bytes {k : Kind} (hs : isSponge k = true) :
    blocksState cb k m = .bytes (spongeState (blocksState cb k m)) := by
  have hshape := hasShape_blocksState cb k m
  cases hst : blocksState cb k m with
  | bytes v => rfl
  | words5 v => rw [hst, hasShape_words5] at hshape; subst hshape; cases hs
  | words8 v => rw [hst, hasShape_words8] at hshape; obtain rfl | rfl := hshape <;> cases hs
  | limbs8 v => rw [hst, hasShape_limbs8] at hshape; obtain rfl | rfl := hshape <;> cases hs

/-- The engine that has absorbed `m` and its pad and delivered the first `c` bytes: with `c = 0` it stands where
XOF.READ has just finalised it, its cursor at 0; with more it is `squeezedEngine`. -/
def readingEngine : Nat → Engine
  | 0 => { squeezedEngine cb k m 0 with cursor := 0#8 }
  | c + 1 => squeezedEngine cb k m (c + 1)

theorem readingEngine_of_pos {c : Nat} (hc : 1 ≤ c) : readingEngine cb k m c = squeezedEngine cb k m c := by
  obtain ⟨c, rfl⟩ := Nat.exists_eq_succ_of_ne_zero (Nat.ne_of_gt hc)
  rfl

/-- Finalising the engine that holds `m` leaves it with no byte delivered (42_sponge.md R120). -/
theorem enterSqueeze_messageEngine {k : Kind} {m : List Byte} (hs : isSponge k = true)
    (hroom : m.length + (blockSize k - m.length % blockSize k) ≤ 2 ^ 64 - 1) :
    enterSqueeze cb (messageEngine cb k m) = .ok (readingEngine cb k m 0) := by
  have hpos := blockSize_pos k
  have hblocks : (m ++ spongePad m.length (blockSize k) xofSuffix).length % blockSize k = 0 := by
    rw [List.length_append]; exact spongePad_aligns _ _ _ hpos
  have hheld := messageEngine_append_rest cb k (r := []) hblocks hpos
  rw [List.append_nil, heldEngine, cells_nil, blocksState_eq_bytes cb _ hs, List.length_append,
    length_spongePad _ _ _ hpos] at hheld
  rw [enterSqueeze_absorb rfl (absorbXofPad_messageEngine cb k hroom), hheld, readingEngine, squeezedEngine,
    Nat.zero_sub, Nat.zero_div]
  rfl

/-- The cursor after `c + 1` bytes counts the bytes of the current block. -/
theorem toNat_cursor_squeezedEngine (c : Nat) :
    (squeezedEngine cb k m (c + 1)).cursor.toNat = c % blockSize k + 1 := by
  have hmod := Nat.mod_lt c (blockSize_pos k)
  have hle := blockSize_le k
  rw [squeezedEngine, Nat.add_sub_cancel, BitVec.toNat_ofNat]
  omega

/-- A byte behind the first, the permutation before it where the block is used up (42_sponge.md R117). -/
theorem squeezeByte_squeezedEngine (c : Nat) : squeezeByte cb (squeezedEngine cb k m (c + 1)) =
    (streamByte cb (blockSize k) (xofStart cb k m) (c + 1), squeezedEngine cb k m (c + 2)) := by
  have hcursor := toNat_cursor_squeezedEngine cb k m c
  have hmod := Nat.mod_lt c (blockSize_pos k)
  have hsucc : (c + 1) % blockSize k = (c % blockSize k + 1) % blockSize k := (Nat.mod_add_mod c _ 1).symm
  by_cases hfull : c % blockSize k + 1 = blockSize k
  · rw [hfull, Nat.mod_self] at hsucc
    have hdiv := Nat.succ_div_of_mod_eq_zero hsucc
    rw [squeezeByte_usedUp cb (hcursor.trans hfull), streamByte, hdiv, hsucc]
    simp [squeezedEngine, spongeState, hdiv, hsucc, permuted]
  · rw [Nat.mod_eq_of_lt (a := c % blockSize k + 1) (by omega)] at hsucc
    have hdiv : (c + 1) / blockSize k = c / blockSize k := Nat.succ_div_of_mod_ne_zero (by omega)
    rw [squeezeByte_inside cb (hcursor.trans_ne hfull), hcursor, streamByte, hdiv, hsucc]
    simp [squeezedEngine, spongeState, hdiv, hsucc, BitVec.ofNat_add]

/-- One byte more (42_sponge.md R117): the first is read without a permutation. -/
theorem squeezeByte_readingEngine (c : Nat) : squeezeByte cb (readingEngine cb k m c) =
    (streamByte cb (blockSize k) (xofStart cb k m) c, readingEngine cb k m (c + 1)) := by
  cases c with
  | zero =>
    have hinside : (readingEngine cb k m 0).cursor.toNat ≠ blockSize k := Nat.ne_of_lt (blockSize_pos k)
    rw [squeezeByte_inside cb hinside, streamByte, Nat.zero_div, Nat.zero_mod]
    simp [readingEngine, squeezedEngine, spongeState]
  | succ c => exact squeezeByte_squeezedEngine cb k m c

theorem xofBytes_succ (c n : Nat) : xofBytes cb k m c (n + 1) =
    streamByte cb (blockSize k) (xofStart cb k m) c :: xofBytes cb k m (c + 1) n := by
  simp only [xofBytes, List.range_succ_eq_map, List.map_cons, List.map_map, Nat.add_zero]
  refine congrArg _ (List.map_congr_left fun i _ => ?_)
  simp only [Function.comp_apply, Nat.succ_eq_add_one, Nat.add_assoc, Nat.add_comm 1 i]

/-- Reads walk along the output sequence (42_sponge.md R123(b), (c)). -/
theorem squeezeBytes_readingEngine (n c : Nat) : squeezeBytes cb n (readingEngine cb k m c) =
    (xofBytes cb k m c n, readingEngine cb k m (c + n)) := by
  induction n generalizing c with
  | zero => rfl
  | succ n ih =>
    simp only [squeezeBytes, squeezeByte_readingEngine, ih, xofBytes_succ, Nat.add_assoc, Nat.add_comm 1 n]

end

/-! The XOF commands on the engine that holds a message. -/

section
variable (cb : Backend) {k : Kind} {m : List Byte} {n : Nat}

theorem isSponge_of_servesXof (h : servesXof k = true) : isSponge k = true := by
  obtain rfl | rfl := servesXof_iff.mp h <;> rfl

/-- XOF.DIGEST on the engine that holds `m` (42_sponge.md R123(a)). -/
theorem digestXof_messageEngine (hk : servesXof k = true) (hn : n ≠ 0)
    (hroom : m.length + (blockSize k - m.length % blockSize k) ≤ 2 ^ 64 - 1) :
    digestXof cb (messageEngine cb k m) n = .ok (initEngine cb k, xofBytes cb k m 0 n) := by
  have hbs : blockSize k ≤ 200 := (blockSize_le k).trans (by decide)
  have hsqueeze := squeezeOnce_eq_streamBytes cb (blockSize k) (xofStart cb k m) (blockSize_pos k) hbs n
  simp only [xofBytes, Nat.zero_add]
  rw [digestXof_of_pad rfl hk hn rfl (absorbXofPad_messageEngine cb k hroom), ← hsqueeze]
  rfl

/-- The first XOF.READ, on the engine that holds `m` (42_sponge.md R123(b)). -/
theorem readXof_messageEngine (hk : servesXof k = true) (hn : n ≠ 0)
    (hroom : m.length + (blockSize k - m.length % blockSize k) ≤ 2 ^ 64 - 1) :
    readXof cb (messageEngine cb k m) n = .ok (squeezedEngine cb k m n, xofBytes cb k m 0 n) := by
  rw [readXof_of_enter rfl hk hn (enterSqueeze_messageEngine cb (isSponge_of_servesXof hk) hroom),
    squeezeBytes_readingEngine, Nat.zero_add, readingEngine_of_pos cb k m (Nat.pos_of_ne_zero hn)]

/-- A later XOF.READ, after `c` bytes (42_sponge.md R123(c)). -/
theorem readXof_squeezedEngine {c : Nat} (hk : servesXof k = true) (hn : n ≠ 0) (hc : 1 ≤ c) :
    readXof cb (squeezedEngine cb k m c) n = .ok (squeezedEngine cb k m (c + n), xofBytes cb k m c n) := by
  rw [readXof_of_enter rfl hk hn (enterSqueeze_squeeze cb rfl), ← readingEngine_of_pos cb k m hc,
    squeezeBytes_readingEngine, readingEngine_of_pos cb k m (hc.trans (Nat.le_add_right c n))]

end

/-- Settles O33: the pad is absorbed by the engine that holds the message, and one squeeze reads the sequence of its
state. -/
theorem xofDigestDeliversTheSequence : Obligations.XofDigestDeliversTheSequence := by
  intro s k m n hf cb hk hde hn hroom
  have hdigest := digestXof_messageEngine cb (servesXof_iff.mpr hk) (BitVec.toNat_ne.mp hn) hroom
  rw [← hde] at hdigest
  exact exec_xofDigest hf hdigest

/-- Settles O34: the first read finalises the engine with no byte delivered, and every read walks on from where the
engine stands. -/
theorem xofReadsWalkTheSequence : Obligations.XofReadsWalkTheSequence := by
  intro s k m n c hf cb hk hn hroom
  refine ⟨fun hde => ?_, fun hc hde => ?_⟩
  · have hread := readXof_messageEngine cb (servesXof_iff.mpr hk) (BitVec.toNat_ne.mp hn) hroom
    rw [← hde] at hread
    exact exec_xofRead hf hread
  · have hread := readXof_squeezedEngine cb (m := m) (servesXof_iff.mpr hk) (BitVec.toNat_ne.mp hn) hc
    rw [← hde] at hread
    exact exec_xofRead hf hread

/-! Reads that are split, and changes of the phase. -/

section
variable {cb : Backend} {e e1 e2 : Engine} {a b : Nat} {x y : List Byte}

/-- What a read leaves is in SQUEEZE, unless it read nothing (42_sponge.md R120, R122). -/
theorem readXof_phase (hn : a ≠ 0) (h : readXof cb e a = .ok (e1, x)) : e1.phase = .squeeze := by
  obtain ⟨_, _, ⟨h0, _⟩ | ⟨_, e0, h0, rfl, _⟩⟩ := readXof_ok h
  · exact absurd h0 hn
  · obtain ⟨_, _, _, _, _, hp⟩ := squeezeBytes_frame cb a e0
    exact hp.trans (enterSqueeze_phase h0)

/-- Two reads are one read of as many bytes (42_sponge.md R123(d)). -/
theorem readXof_add (ha : readXof cb e a = .ok (e1, x)) (hb : readXof cb e1 b = .ok (e2, y)) :
    readXof cb e (a + b) = .ok (e2, x ++ y) := by
  obtain ⟨hv, hk, ⟨rfl, rfl, rfl⟩ | ⟨hna, e0, h0, he1, hx⟩⟩ := readXof_ok ha
  · rwa [Nat.zero_add, List.nil_append]
  · obtain ⟨_, _, ⟨rfl, rfl, rfl⟩ | ⟨_, e1', h1, he2, hy⟩⟩ := readXof_ok hb
    · rwa [Nat.add_zero, List.append_nil]
    · obtain rfl : e1 = e1' := Except.ok.inj ((enterSqueeze_squeeze cb (readXof_phase hna ha)).symm.trans h1)
      rw [readXof_of_enter hv hk (by omega) h0, squeezeBytes_add, ← he1, ← hx, ← he2, ← hy]

end

/-- Settles O35: both reads are answered by their procedures, and so is the joined one. -/
theorem splittingAReadChangesNothing : Obligations.SplittingAReadChangesNothing := by
  intro s t u a b hf hlt hst ht htu hu
  obtain ⟨e1, x, ha, rfl⟩ := exec_xofRead_completed hst ht
  obtain ⟨e2, y, hb, rfl⟩ := exec_xofRead_completed htu hu
  have hsum : (a + b).toNat = a.toNat + b.toNat := by rw [BitVec.toNat_add, Nat.mod_eq_of_lt hlt]
  have hjoined := readXof_add ha hb
  rw [← hsum] at hjoined
  exact ⟨x, y, rfl, rfl, exec_xofRead hf hjoined⟩

theorem Phase.eq_squeeze {p : Phase} (h : .absorb ≠ p) : p = .squeeze := by
  cases p with
  | absorb => exact absurd rfl h
  | squeeze => rfl

theorem Phase.eq_absorb {p : Phase} (h : .squeeze ≠ p) : p = .absorb := by
  cases p with
  | absorb => rfl
  | squeeze => exact absurd rfl h

/-- Settles O36: the frame of every other command keeps the phase; DE.NEW, XOF.NEW and DE.RESET leave ABSORB, and a
read of some bytes leaves SQUEEZE. -/
theorem phaseChangesOnlyAsTheTableShows : Obligations.PhaseChangesOnlyAsTheTableShows := by
  intro i s t hf h ht hne
  obtain ⟨_, _, _, _, _, _, hframe⟩ := completedCommandsKeepTheirFrame i s t hf h ht
  obtain ⟨d, hd, rfl⟩ := exec_completed h ht
  rw [complete_regs] at hne hframe
  cases i with
  | deNew k =>
    obtain ⟨_, he⟩ := onEngine_frame hd
    obtain ⟨_, hde, _⟩ := newEngine_ok he
    rw [hde, initEngine_phase] at hne
    exact .inr ⟨Phase.eq_squeeze hne, .inl ⟨k, rfl⟩⟩
  | xofNew l =>
    cases hd
    exact .inr ⟨Phase.eq_squeeze hne, .inr (.inl ⟨l, rfl⟩)⟩
  | deReset =>
    obtain ⟨_, he⟩ := onEngine_frame hd
    obtain ⟨_, hde, _⟩ := resetEngine_ok he
    rw [hde, initEngine_phase] at hne
    exact .inr ⟨Phase.eq_squeeze hne, .inr (.inr rfl)⟩
  | xofRead n =>
    obtain ⟨_, hread⟩ := onEngine_frame hd
    have hn : n ≠ 0 := by
      rintro rfl
      exact hne (congrArg Engine.phase (readXof_zero hread))
    rw [readXof_phase (BitVec.toNat_ne.mp hn) hread] at hne
    exact .inl ⟨Phase.eq_absorb hne, n, hn, rfl⟩
  | deUpdate =>
    obtain ⟨_, _, _, hphase, _⟩ := hframe
    exact absurd hphase hne
  | deDigest | xofDigest =>
    obtain ⟨_, _, _, hphase⟩ := hframe
    exact absurd hphase hne
  | mtSeedR | mtSeed | mtSeedA | mtSetState =>
    obtain ⟨hde, _⟩ := hframe
    exact absurd (congrArg Engine.phase hde) hne
  | mtNext | mtNextW | mtBit | mtDouble | rsInt | rsFloat =>
    obtain ⟨⟨hde, _⟩, _⟩ := hframe
    exact absurd (congrArg Engine.phase hde) hne
  | mtGetState => exact absurd (congrArg (·.de.phase) hframe) hne

end Sys2Proof.Machine

/-! PROOFS. Seeding a Mersenne Twister core with a scalar (43_mersenne_twister.md R133, R134, R137). -/

namespace Sys2Proof.Machine

section
variable {s : State} {v : Variant}

theorem exec_mtSeed (x : Word64) (hf : s.fault = false) : exec (.mtSeed v x) s = .next (s.complete
    (silent (seededWith v x s.regs))) :=
  exec_of_effect_ok hf rfl

theorem exec_mtSeedR (hf : s.fault = false) : exec (.mtSeedR v) s = .next (s.complete
    (silent (seededWith v s.ent s.regs))) :=
  exec_of_effect_ok hf rfl

theorem isSeeded_seededWith (v : Variant) (x : Word64) (r : Regs) : isSeeded v (seededWith v x r) = true := by
  cases v <;> rfl

end

/-- Settles O38: both commands complete with the core seeded by the same word. -/
theorem entropySeedIsAScalarSeedOfTheDraw : Obligations.EntropySeedIsAScalarSeedOfTheDraw := fun s v hf =>
  ⟨seededWith v s.ent s.regs, exec_mtSeedR hf, exec_mtSeed s.ent hf, isSeeded_seededWith v s.ent s.regs⟩

section
variable {W N : Nat} (p : MtParams W N)

/-- Each element of `seedTail` by the element before it, the first by `x`. -/
theorem getD_seedTail (n i j : Nat) (x d : BitVec W) (h : j < n) : (seedTail p n i x).getD j d =
    p.F1 * mtF p ((x :: seedTail p n i x).getD j d) + BitVec.ofNat W (i + j) := by
  induction n generalizing i j x with
  | zero => omega
  | succ n ih =>
    cases j with
    | zero => rfl
    | succ j =>
      rw [seedTail, List.getD_cons_succ, ih _ _ _ (by omega), List.getD_cons_succ, Nat.add_right_comm, Nat.add_assoc]

theorem cell_seedScalar_zero (s : BitVec W) (hN : 0 < N) : cell (seedScalar p s).X 0 = s := by
  rw [seedScalar, cell_cells, if_pos hN, List.getD_cons_zero]

/-- The recurrence of a scalar seed (43_mersenne_twister.md R133). -/
theorem cell_seedScalar (s : BitVec W) {i : Nat} (h1 : 1 ≤ i) (hi : i < N) : cell (seedScalar p s).X i =
    p.F1 * mtF p (cell (seedScalar p s).X (i - 1)) + BitVec.ofNat W i := by
  obtain ⟨j, rfl⟩ := Nat.exists_eq_add_of_le h1
  rw [seedScalar, cell_cells, cell_cells, if_pos hi, if_pos (by omega), Nat.add_sub_cancel_left, Nat.add_comm 1 j,
    List.getD_cons_succ, getD_seedTail p _ _ _ _ _ (by omega), Nat.add_comm 1 j]

end

/-- Settles O37: the core of the selected variant is replaced by the scalar seed of the low bits of the operand. -/
theorem scalarSeedFollowsTheRecurrence : Obligations.ScalarSeedFollowsTheRecurrence := by
  intro s x hf
  constructor
  · refine ⟨seedScalar mt32Params (seedOperand 32 x), exec_mtSeed x hf, rfl, rfl, ?_, fun i h1 hi => ?_⟩
    · rw [cell_seedScalar_zero _ _ (by decide)]
      exact BitVec.setWidth_eq_extractLsb' (by decide)
    · exact cell_seedScalar mt32Params _ h1 (by omega)
  · refine ⟨seedScalar mt64Params (seedOperand 64 x), exec_mtSeed x hf, rfl, rfl, ?_, fun i h1 hi => ?_⟩
    · rw [cell_seedScalar_zero _ _ (by decide)]
      exact BitVec.setWidth_eq x
    · exact cell_seedScalar mt64Params _ h1 (by omega)

end Sys2Proof.Machine

/-! PROOFS. Seeding a Mersenne Twister core with an array (43_mersenne_twister.md R135, R136). -/

namespace Sys2Proof.Machine

theorem rounds_succ {α : Type} (f : α → α) (n : Nat) (a : α) : rounds f (n + 1) a = f (rounds f n a) := by
  induction n generalizing a with
  | zero => rfl
  | succ n ih => exact ih (f a)

/-- A loop counter that starts again where it reaches `n`. -/
theorem succ_mod_eq_ite {n : Nat} (t : Nat) (hn : 0 < n) :
    (t + 1) % n = if n ≤ t % n + 1 then 0 else t % n + 1 := by
  have hlt := Nat.mod_lt t hn
  rw [← Nat.mod_add_mod]
  split
  · next h => rw [show t % n + 1 = n by omega, Nat.mod_self]
  · next h => exact Nat.mod_eq_of_lt (by omega)

section
variable {W N : Nat} (m : Mix W N) (x : BitVec W)

/-- The array and the counters after a step of either pass has written `x` at index `i`. -/
def Mix.put : Mix W N := Mix.advance { m with X := m.X.setIfInBounds m.i x }

theorem Mix.put_i : (m.put x).i = if N ≤ m.i + 1 then 1 else m.i + 1 := by
  unfold Mix.put Mix.advance
  split <;> rfl

theorem Mix.cell_put (n : Nat) : cell (m.put x).X n =
    if N ≤ m.i + 1 ∧ n = 0 ∧ n < N then cell (m.X.setIfInBounds m.i x) (N - 1)
    else cell (m.X.setIfInBounds m.i x) n := by
  by_cases hlast : N ≤ m.i + 1
  · simp only [Mix.put, Mix.advance, ge_iff_le, hlast, if_true, true_and, eq_comm (a := n),
      cell_setIfInBounds _ 0]
  · simp only [Mix.put, Mix.advance, ge_iff_le, hlast, if_false, false_and]

/-- Index `i` runs through `1 .. N-1` over and over. -/
theorem Mix.put_i_mod {m : Mix W N} {t : Nat} (hN : 2 ≤ N) (h : m.i = t % (N - 1) + 1) :
    (m.put x).i = (t + 1) % (N - 1) + 1 := by
  rw [Mix.put_i, h, succ_mod_eq_ite t (by omega)]
  split <;> split <;> omega

/-- Word 0 follows the last word (43_mersenne_twister.md R135). -/
theorem Mix.put_isMixStep (h1 : 1 ≤ m.i) (hlt : m.i < N) : IsMixStep N m.i x (cell m.X) (cell (m.put x).X) := by
  intro n hn
  rw [Mix.cell_put, cell_setIfInBounds, cell_setIfInBounds]
  by_cases hwrap : N ≤ m.i + 1 ∧ n = 0
  · rw [if_pos ⟨hwrap.1, hwrap.2, hn⟩, if_pos (by omega), if_pos (by omega)]
  · rw [if_neg (by omega)]
    exact if_congr (by omega) rfl rfl

end

section
variable {W N : Nat} (p : MtParams W N) (key : List (BitVec W)) (t : Nat)

theorem mixFirst_eq_put (m : Mix W N) : mixFirst p key m =
    { m.put (((cell m.X m.i ^^^ (mtF p (cell m.X (m.i - 1)) * p.F2)) + key.getD m.j 0#W) + BitVec.ofNat W m.j) with
      j := if m.j + 1 ≥ key.length then 0 else m.j + 1 } := rfl

theorem mixSecond_eq_put (m : Mix W N) : mixSecond p m =
    m.put ((cell m.X m.i ^^^ (mtF p (cell m.X (m.i - 1)) * p.F3)) - BitVec.ofNat W m.i) := rfl

theorem mixFirst_isMixStep {m : Mix W N} {i j : Nat} (hi : m.i = i) (hj : m.j = j) (h1 : 1 ≤ i) (hlt : i < N) :
    IsMixStep N i (((cell m.X i ^^^ (mtF p (cell m.X (i - 1)) * p.F2)) + key.getD j 0#W) + BitVec.ofNat W j)
      (cell m.X) (cell (mixFirst p key m).X) := by
  subst hi hj
  exact Mix.put_isMixStep m _ h1 hlt

theorem mixSecond_isMixStep {m : Mix W N} {i : Nat} (hi : m.i = i) (h1 : 1 ≤ i) (hlt : i < N) :
    IsMixStep N i ((cell m.X i ^^^ (mtF p (cell m.X (i - 1)) * p.F3)) - BitVec.ofNat W i)
      (cell m.X) (cell (mixSecond p m).X) := by
  subst hi
  exact Mix.put_isMixStep m _ h1 hlt

/-- `SeedArray` after `t` steps of the first pass. -/
def firstPass : Mix W N := rounds (mixFirst p key) t { X := (seedScalar p p.S0).X, i := 1, j := 0 }

/-- `SeedArray` after the first pass and `t` steps of the second. -/
def secondPass : Mix W N := rounds (mixSecond p) t (firstPass p key (max N key.length))

theorem seedArray_X : (seedArray p key).X = (secondPass p key (N - 1)).X.setIfInBounds 0 p.TOP := rfl

theorem firstPass_succ : firstPass p key (t + 1) = mixFirst p key (firstPass p key t) := rounds_succ _ _ _

theorem secondPass_succ : secondPass p key (t + 1) = mixSecond p (secondPass p key t) := rounds_succ _ _ _

theorem firstPass_i (hN : 2 ≤ N) : (firstPass p key t).i = t % (N - 1) + 1 := by
  induction t with
  | zero => rw [Nat.zero_mod]; rfl
  | succ t ih => rw [firstPass_succ, mixFirst_eq_put]; exact Mix.put_i_mod _ hN ih

theorem firstPass_j (hkey : 0 < key.length) : (firstPass p key t).j = t % key.length := by
  induction t with
  | zero => rw [Nat.zero_mod]; rfl
  | succ t ih => rw [firstPass_succ, mixFirst_eq_put, succ_mod_eq_ite t hkey, ih]

theorem secondPass_i (hN : 2 ≤ N) : (secondPass p key t).i = (max N key.length + t) % (N - 1) + 1 := by
  induction t with
  | zero => exact firstPass_i p key _ hN
  | succ t ih => rw [secondPass_succ, mixSecond_eq_put]; exact Mix.put_i_mod _ hN ih

/-- The arrays of the two passes are those that `IsArraySeed` asks for. -/
theorem secondPass_isArraySeed (hN : 2 ≤ N) (hkey : 0 < key.length) :
    IsArraySeed N p.SH p.S0 p.F1 p.F2 p.F3 key (cell (secondPass p key (N - 1)).X) := by
  have hlt : ∀ t, t % (N - 1) + 1 < N := fun t => by
    have := Nat.mod_lt t (show 0 < N - 1 by omega)
    omega
  refine ⟨fun t => cell (firstPass p key t).X, fun t => cell (secondPass p key t).X,
    cell_seedScalar_zero p _ (by omega), fun n h1 hn => cell_seedScalar p _ h1 hn, fun t _ => ?_, fun _ _ => rfl,
    fun t _ => ?_, fun _ _ => rfl⟩
  · simp only [firstPass_succ]
    exact mixFirst_isMixStep p key (firstPass_i p key t hN) (firstPass_j p key t hkey) (Nat.le_add_left _ _) (hlt t)
  · simp only [secondPass_succ]
    exact mixSecond_isMixStep p (secondPass_i p key t hN) (Nat.le_add_left _ _) (hlt _)

/-- Word 0 is forced after the passes (43_mersenne_twister.md R135). -/
theorem cell_seedArray {n : Nat} (hn : n < N) : cell (seedArray p key).X n =
    if n = 0 then p.TOP else cell (secondPass p key (N - 1)).X n := by
  rw [seedArray_X, cell_setIfInBounds]
  exact if_congr (by omega) rfl rfl

end

theorem exec_mtSeedA {s : State} {key : List Word64} (v : Variant) (hf : s.fault = false) (hkey : key ≠ []) :
    exec (.mtSeedA v key) s = .next (s.complete (silent (seededWithKey v key s.regs))) := by
  refine exec_of_effect_ok hf ?_
  rw [effectOf, seedAEffect, List.isEmpty_eq_false_iff.mpr hkey]
  rfl

theorem keyOperand_eq_extract {W : Nat} (hW : W ≤ 64) (key : List Word64) :
    keyOperand W key = key.map fun x => x.extractLsb' 0 W :=
  List.map_congr_left fun _ _ => BitVec.setWidth_eq_extractLsb' hW

theorem keyOperand_64 (key : List Word64) : keyOperand 64 key = key := by
  simp [keyOperand]

theorem length_keyOperand (W : Nat) (key : List Word64) : (keyOperand W key).length = key.length := List.length_map _

/-- Settles O39: the core of the selected variant is replaced by the array seed of the key, whose passes are
`firstPass` and `secondPass`. -/
theorem arraySeedFollowsTheTwoPasses : Obligations.ArraySeedFollowsTheTwoPasses := by
  intro s key hf hkey
  have hlen : ∀ W, 0 < (keyOperand W key).length := fun W => by
    rw [length_keyOperand]
    exact List.length_pos_iff.mpr hkey
  constructor
  · refine ⟨seedArray mt32Params (keyOperand 32 key), cell (secondPass mt32Params (keyOperand 32 key) 623).X,
      exec_mtSeedA .mt32 hf hkey, rfl, rfl, ?_, fun n hn => cell_seedArray mt32Params _ hn⟩
    rw [← keyOperand_eq_extract (by decide)]
    exact secondPass_isArraySeed mt32Params _ (by decide) (hlen 32)
  · refine ⟨seedArray mt64Params (keyOperand 64 key), cell (secondPass mt64Params (keyOperand 64 key) 311).X,
      exec_mtSeedA .mt64 hf hkey, rfl, rfl, ?_, fun n hn => cell_seedArray mt64Params _ hn⟩
    have hseed := secondPass_isArraySeed mt64Params (keyOperand 64 key) (by decide) (hlen 64)
    rwa [keyOperand_64] at hseed ⊢

end Sys2Proof.Machine

/-! PROOFS. The twist (43_mersenne_twister.md R139). -/

namespace Sys2Proof.Machine

section
variable {W N : Nat} (p : MtParams W N) (X : Vector (BitVec W) N)

/-- The array after the first `n` words of a twist have been rewritten. -/
def twistPrefix (n : Nat) : Vector (BitVec W) N := (List.range n).foldl (twistAt p) X

theorem twistPrefix_succ (n : Nat) : twistPrefix p X (n + 1) = twistAt p (twistPrefix p X n) n := by
  rw [twistPrefix, List.range_succ, List.foldl_append]
  rfl

theorem twist_X (c : MtCore W N) : (twist p c).X = twistPrefix p c.X N := rfl

theorem cell_twistAt (i j : Nat) : cell (twistAt p X i) j = if i = j ∧ j < N then
    twistWord p.A p.UPPER p.LOWER (cell X ((i + p.M) % N)) (cell X i) (cell X ((i + 1) % N)) else cell X j :=
  cell_setIfInBounds X i j _

/-- A word the loop has not reached is the old one. -/
theorem cell_twistPrefix_of_le {n j : Nat} (h : n ≤ j) : cell (twistPrefix p X n) j = cell X j := by
  induction n with
  | zero => rfl
  | succ n ih => rw [twistPrefix_succ, cell_twistAt, if_neg (by omega), ih (by omega)]

/-- A word the loop has rewritten stays as it is. -/
theorem cell_twistPrefix_of_lt {n m j : Nat} (hj : j < n) (hnm : n ≤ m) :
    cell (twistPrefix p X m) j = cell (twistPrefix p X n) j := by
  induction m, hnm using Nat.le_induction with
  | base => rfl
  | succ m hle ih => rw [twistPrefix_succ, cell_twistAt, if_neg (by omega), ih]

section
variable (c : MtCore W N)

/-- Word `i` of a twist, by the array as it stands when the loop reaches it. -/
theorem cell_twist {i : Nat} (hi : i < N) : cell (twist p c).X i = twistWord p.A p.UPPER p.LOWER
    (cell (twistPrefix p c.X i) ((i + p.M) % N)) (cell c.X i) (cell (twistPrefix p c.X i) ((i + 1) % N)) := by
  rw [twist_X, cell_twistPrefix_of_lt p c.X (Nat.lt_succ_self i) hi, twistPrefix_succ, cell_twistAt,
    if_pos ⟨rfl, hi⟩, cell_twistPrefix_of_le p c.X (Nat.le_refl i)]

theorem cell_twistPrefix_new {i j : Nat} (hj : j < i) (hi : i ≤ N) :
    cell (twistPrefix p c.X i) j = cell (twist p c).X j :=
  (cell_twistPrefix_of_lt p c.X hj hi).symm

/-- The three ranges of a twist: what index `i` reads has been rewritten exactly when it lies below `i`. -/
theorem twist_isTwistOf (hpos : 0 < p.M) (hM : p.M < N) :
    IsTwistOf N p.M p.A p.UPPER p.LOWER (cell c.X) (cell (twist p c).X) := by
  refine ⟨fun i hi => ?_, fun i hlo hhi => ?_, ?_⟩
  · rw [cell_twist p c (by omega), Nat.mod_eq_of_lt (by omega), Nat.mod_eq_of_lt (by omega),
      cell_twistPrefix_of_le p c.X (by omega), cell_twistPrefix_of_le p c.X (by omega)]
  · rw [cell_twist p c (by omega), Nat.mod_eq_sub_mod (by omega), Nat.mod_eq_of_lt (by omega),
      Nat.mod_eq_of_lt (by omega), cell_twistPrefix_new p c (by omega) (by omega),
      cell_twistPrefix_of_le p c.X (by omega)]
  · rw [cell_twist p c (by omega), Nat.mod_eq_sub_mod (by omega), Nat.mod_eq_of_lt (by omega),
      Nat.sub_add_cancel (by omega), Nat.mod_self, cell_twistPrefix_new p c (by omega) (by omega),
      cell_twistPrefix_new p c (by omega) (by omega), show N - 1 + p.M - N = p.M - 1 by omega]

end
end

/-- Settles O40: the generic twist, and its two instances with the numbers of 43_mersenne_twister.md R131. -/
theorem twistFollowsTheRecurrence : Obligations.TwistFollowsTheRecurrence :=
  ⟨fun p c hpos hM => ⟨twist_isTwistOf p c hpos hM, twist_w p c, twist_seeded p c⟩,
    fun c => twist_isTwistOf mt32Params c (by decide) (by decide),
    fun c => twist_isTwistOf mt64Params c (by decide) (by decide)⟩

end Sys2Proof.Machine

/-! PROOFS. The tempering (43_mersenne_twister.md R140). -/

namespace Sys2Proof.Machine

section
variable {W : Nat} (s : Nat) (m : BitVec W)

/-- A tempering stage that shifts right. -/
def stageRight (y : BitVec W) : BitVec W := y ^^^ ((y >>> s) &&& m)

/-- A tempering stage that shifts left. -/
def stageLeft (y : BitVec W) : BitVec W := y ^^^ ((y <<< s) &&& m)

theorem xor_and_distrib (a b : BitVec W) : (a ^^^ b) &&& m = (a &&& m) ^^^ (b &&& m) := by
  ext i hi
  simp [Bool.and_xor_distrib_right]

theorem stageRight_xor (a b : BitVec W) : stageRight s m (a ^^^ b) = stageRight s m a ^^^ stageRight s m b := by
  simp only [stageRight, BitVec.ushiftRight_xor_distrib, xor_and_distrib]
  ac_rfl

theorem stageLeft_xor (a b : BitVec W) : stageLeft s m (a ^^^ b) = stageLeft s m a ^^^ stageLeft s m b := by
  simp only [stageLeft, BitVec.shiftLeft_xor_distrib, xor_and_distrib]
  ac_rfl

/-- A map that is linear over XOR is injective when only 0 is mapped to 0. -/
theorem injective_of_xor {f : BitVec W → BitVec W} (hxor : ∀ a b, f (a ^^^ b) = f a ^^^ f b)
    (hker : ∀ y, f y = 0#W → y = 0#W) : Function.Injective f := by
  intro a b h
  have hzero : f (a ^^^ b) = 0#W := by rw [hxor, h, BitVec.xor_self]
  exact BitVec.xor_eq_zero_iff.mp (hker _ hzero)

/-- The highest bit of a word survives a right shift stage. -/
theorem stageRight_injective (hs : 0 < s) : Function.Injective (stageRight s m) := by
  refine injective_of_xor (stageRight_xor s m) fun y h => ?_
  have hy : y = (y >>> s) &&& m := BitVec.xor_eq_zero_iff.mp h
  have hle : y.toNat ≤ y.toNat / 2 ^ s := by
    calc y.toNat = (y >>> s).toNat &&& m.toNat := by rw [← BitVec.toNat_and, ← hy]
      _ ≤ (y >>> s).toNat := Nat.and_le_left
      _ = y.toNat / 2 ^ s := by rw [BitVec.toNat_ushiftRight, Nat.shiftRight_eq_div_pow]
  have hpow := Nat.one_lt_two_pow (Nat.pos_iff_ne_zero.mp hs)
  refine BitVec.eq_of_toNat_eq (Nat.eq_zero_of_not_pos fun hpos => ?_)
  have := Nat.div_lt_self hpos hpow
  omega

/-- Bit by bit from the lowest, no bit of a word is lost in a left shift stage. -/
theorem stageLeft_injective (hs : 0 < s) : Function.Injective (stageLeft s m) := by
  refine injective_of_xor (stageLeft_xor s m) fun y h => ?_
  have hy : y = (y <<< s) &&& m := BitVec.xor_eq_zero_iff.mp h
  refine BitVec.eq_of_getLsbD_eq fun i _ => ?_
  induction i using Nat.strong_induction_on with
  | _ i ih =>
    rw [hy, BitVec.getLsbD_and, BitVec.getLsbD_shiftLeft]
    by_cases hi : i < s
    · simp [hi]
    · simp [ih (i - s) (by omega) (by omega)]

end

section
variable {W N : Nat} (p : MtParams W N)

theorem temper_eq_stages (y : BitVec W) : temper p y = stageRight p.shift4 (BitVec.allOnes W)
    (stageLeft p.shift3 p.mask3 (stageLeft p.shift2 p.mask2 (stageRight p.shift1 p.mask1 y))) := by
  simp only [stageRight, BitVec.and_allOnes]
  rfl

theorem temper_xor (a b : BitVec W) : temper p (a ^^^ b) = temper p a ^^^ temper p b := by
  simp only [temper_eq_stages, stageRight_xor, stageLeft_xor]

theorem temper_zero : temper p 0#W = 0#W := by
  have h := temper_xor p 0#W 0#W
  rwa [BitVec.xor_self, BitVec.xor_self] at h

theorem temper_bijective (h1 : 0 < p.shift1) (h2 : 0 < p.shift2) (h3 : 0 < p.shift3) (h4 : 0 < p.shift4) :
    Function.Bijective (temper p) := by
  rw [← Finite.injective_iff_bijective, funext (temper_eq_stages p)]
  exact (stageRight_injective _ _ h4).comp ((stageLeft_injective _ _ h3).comp
    ((stageLeft_injective _ _ h2).comp (stageRight_injective _ _ h1)))

end

theorem mask1_mt32 : mt32Params.mask1 = BitVec.allOnes 32 := by decide

/-- Settles O41: each stage is linear and injective, so their composition is, on a finite set of words. -/
theorem temperingIsALinearBijection : Obligations.TemperingIsALinearBijection := by
  refine ⟨fun y => ?_, fun _ => rfl, temper_xor _, temper_xor _, temper_zero _, temper_zero _,
    temper_bijective mt32Params (by decide) (by decide) (by decide) (by decide),
    temper_bijective mt64Params (by decide) (by decide) (by decide) (by decide)⟩
  rw [temper, mask1_mt32, BitVec.and_allOnes]
  rfl

end Sys2Proof.Machine

/-! PROOFS. The extraction commands of a Mersenne Twister core (43_mersenne_twister.md R141 to R147). -/

namespace Sys2Proof.Machine

open Sys2Proof.Config

section
variable {s : State} {v : Variant}

/-- An extraction command on a seeded core completes with what it draws. -/
theorem exec_of_extraction {i : Instr} {draw : Regs → Word64 × Regs} (hi : effectOf s i = extraction v draw s.regs)
    (hf : s.fault = false) (hs : isSeeded v s.regs = true) :
    exec i s = .next (s.complete (scalar (draw s.regs).2 (draw s.regs).1)) := by
  refine exec_of_effect_ok hf ?_
  rw [hi, extraction, hs]
  rfl

theorem exec_mtNextW (hf : s.fault = false) (hs : isSeeded v s.regs = true) : exec (.mtNextW v) s =
    .next (s.complete (scalar (drawWord v s.regs).2 (drawWord v s.regs).1)) :=
  exec_of_extraction rfl hf hs

theorem exec_mtNext (hf : s.fault = false) (hs : isSeeded v s.regs = true) : exec (.mtNext v) s =
    .next (s.complete (scalar (drawNext s.params.mt32Compose v s.regs).2 (drawNext s.params.mt32Compose v s.regs).1)) :=
  exec_of_extraction rfl hf hs

theorem exec_mtBit (hf : s.fault = false) (hs : isSeeded v s.regs = true) : exec (.mtBit v) s =
    .next (s.complete (scalar (drawBit s.params.mtBit v s.regs).2 (drawBit s.params.mtBit v s.regs).1)) :=
  exec_of_extraction rfl hf hs

theorem exec_mtDouble (closed : Bool) (hf : s.fault = false) (hs : isSeeded v s.regs = true) :
    exec (.mtDouble v closed) s =
      .next (s.complete (scalar (nextDouble v closed s.regs).2 (nextDouble v closed s.regs).1)) :=
  exec_of_extraction rfl hf hs

end

/-- The test `w = N` on the 10 bits of the index. -/
theorem readied_eq {W N : Nat} (p : MtParams W N) (c : MtCore W N) {n : BitVec 10} (hn : n.toNat = N) :
    readied p c = if c.w = n then twist p c else c :=
  if_congr (by rw [← BitVec.toNat_inj, hn]) rfl rfl

/-- Settles O42: the drawn word is the tempered one at the index of the readied core. -/
theorem nativeExtractionTwistsWhenExhausted : Obligations.NativeExtractionTwistsWhenExhausted := by
  intro s hf
  constructor
  · intro hs c
    have hc : c = readied mt32Params s.regs.mt32 := (readied_eq mt32Params _ rfl).symm
    rw [exec_mtNextW (v := .mt32) hf hs, hc]
    rfl
  · intro hs c
    have hc : c = readied mt64Params s.regs.mt64 := (readied_eq mt64Params _ rfl).symm
    rw [exec_mtNextW (v := .mt64) hf hs, hc]
    rfl

theorem isSeeded_drawWord (v w : Variant) (r : Regs) : isSeeded v (drawWord w r).2 = isSeeded v r := by
  cases v with
  | mt32 => exact (drawWord_onlyDrawn w r).seeded32
  | mt64 => exact (drawWord_onlyDrawn w r).seeded64

/-- Two MT.NEXTW in a row. -/
theorem exec_mtNextW_twice {s : State} {v : Variant} (hf : s.fault = false) (hs : isSeeded v s.regs = true) :
    ∃ t u : State, exec (.mtNextW v) s = .next t ∧ t.reply = some (.ok [] (some (drawWord v s.regs).1)) ∧
      exec (.mtNextW v) t = .next u ∧
      u = s.complete (scalar (drawWord v (drawWord v s.regs).2).2 (drawWord v (drawWord v s.regs).2).1) :=
  ⟨_, _, exec_mtNextW hf hs, rfl, exec_mtNextW hf ((isSeeded_drawWord v v s.regs).trans hs), rfl⟩

/-- Settles O43: MT64 draws one word; MT32 draws a second one from the registers the first left. -/
theorem nextComposesNativeWords : Obligations.NextComposesNativeWords := by
  intro s hf
  refine ⟨fun hs => ⟨_, exec_mtNextW (v := .mt64) hf hs, hf, exec_mtNext (v := .mt64) hf hs⟩, fun hs => ?_⟩
  obtain ⟨t, u, ht, hta, hu, rfl⟩ := exec_mtNextW_twice (v := .mt32) hf hs
  exact ⟨t, _, _, _, ht, hta, hu, rfl, exec_mtNext (v := .mt32) hf hs⟩

/-- A native word has the width of its core. -/
theorem toNat_drawWord_lt (v : Variant) (r : Regs) : (drawWord v r).1.toNat < 2 ^ wordBits v := by
  cases v with
  | mt32 =>
    refine Nat.lt_of_le_of_lt ?_ (nextWord mt32Params r.mt32).1.isLt
    rw [drawWord, BitVec.toNat_setWidth]
    exact Nat.mod_le _ _
  | mt64 => exact (drawWord .mt64 r).1.isLt

/-- One bit of a word on RES, by division. -/
theorem bitResult_getLsbD (y : Word64) (k : Nat) : bitResult (y.getLsbD k) = BitVec.ofNat 64 (y.toNat / 2 ^ k % 2) := by
  rw [BitVec.getLsbD, Nat.testBit_eq_decide_div_mod_eq]
  rcases Nat.mod_two_eq_zero_or_one (y.toNat / 2 ^ k) with h | h <;> rw [h] <;> rfl

theorem bitResult_top {v : Variant} {y : Word64} (h : y.toNat < 2 ^ wordBits v) :
    bitResult (y.getLsbD (wordBits v - 1)) = BitVec.ofNat 64 (y.toNat / 2 ^ (wordBits v - 1)) := by
  have hlt : y.toNat / 2 ^ (wordBits v - 1) < 2 := Nat.div_lt_of_lt_mul (by cases v <;> exact h)
  rw [bitResult_getLsbD, Nat.mod_eq_of_lt hlt]

theorem bitResult_low (y : Word64) : bitResult (y.getLsbD 0) = BitVec.ofNat 64 (y.toNat % 2) := by
  rw [bitResult_getLsbD, Nat.pow_zero, Nat.div_one]

/-- Settles O44: the bit is read from the one word drawn. -/
theorem bitIsOneBitOfANativeWord : Obligations.BitIsOneBitOfANativeWord := by
  intro s v hf hs
  refine ⟨_, _, exec_mtNextW hf hs, rfl, (exec_mtBit hf hs).trans ?_⟩
  have hbit := bitResult_top (toNat_drawWord_lt v s.regs)
  rw [drawBit]
  cases hwhich : s.params.mtBit with
  | top => cases v <;> rw [chosenBit, hbit] <;> rfl
  | low => cases v <;> rw [chosenBit, bitResult_low] <;> rfl

theorem toNat_ushiftRight_eq_div (y : Word64) (k : Nat) : (y >>> k).toNat = y.toNat / 2 ^ k := by
  rw [BitVec.toNat_ushiftRight, Nat.shiftRight_eq_div_pow]

theorem draw53_mt64 (r : Regs) : draw53 .mt64 r = ((drawWord .mt64 r).1.toNat / 2 ^ 11, (drawWord .mt64 r).2) := by
  rw [draw53, toNat_ushiftRight_eq_div]

theorem draw53_mt32 (r : Regs) : draw53 .mt32 r =
    ((drawWord .mt32 r).1.toNat / 2 ^ 5 * 2 ^ 26 + (drawWord .mt32 (drawWord .mt32 r).2).1.toNat / 2 ^ 6,
      (drawWord .mt32 (drawWord .mt32 r).2).2) := by
  simp only [draw53, toNat_ushiftRight_eq_div]

/-- 27 bits above 26 bits. -/
theorem compose53_lt {a b : Nat} (ha : a < 2 ^ 32) (hb : b < 2 ^ 32) : a / 2 ^ 5 * 2 ^ 26 + b / 2 ^ 6 < 2 ^ 53 := by
  omega

/-- Settles O45: the double is made from the 53 bits of `Draw53`. -/
theorem doubleTakesFiftyThreeBits : Obligations.DoubleTakesFiftyThreeBits := by
  intro s closed hf
  constructor
  · intro hs
    refine ⟨_, _, exec_mtNextW (v := .mt64) hf hs, rfl, (exec_mtDouble (v := .mt64) closed hf hs).trans ?_⟩
    rw [nextDouble, draw53_mt64]
    rfl
  · intro hs
    obtain ⟨t, u, ht, hta, hu, rfl⟩ := exec_mtNextW_twice (v := .mt32) hf hs
    refine ⟨t, _, _, _, ht, hta, hu, rfl, compose53_lt (toNat_drawWord_lt .mt32 _) (toNat_drawWord_lt .mt32 _),
      (exec_mtDouble (v := .mt32) closed hf hs).trans ?_⟩
    rw [nextDouble, draw53_mt32]
    rfl

end Sys2Proof.Machine

/-! PROOFS. The state image of a Mersenne Twister core: how it is written (43_mersenne_twister.md R148), how it is
read back (R149, R150), and the round trip (R151). -/

namespace Sys2Proof.Machine

open Sys2Proof.Config

/-! Byte strings read and written byte by byte. -/

theorem getD_leBytes (n x : Nat) {j : Nat} (h : j < n) : (leBytes n x).getD j 0#8 = BitVec.ofNat 8 (x / 256 ^ j) := by
  induction n generalizing x j with
  | zero => omega
  | succ n ih =>
    cases j with
    | zero => rw [leBytes, List.getD_cons_zero, Nat.pow_zero, Nat.div_one]
    | succ j => rw [leBytes, List.getD_cons_succ, ih _ (by omega), Nat.div_div_eq_div_mul, Nat.pow_succ']

theorem fromLE_byte (bs : List Byte) (j : Nat) : fromLE bs / 256 ^ j % 256 = (bs.getD j 0#8).toNat := by
  induction bs generalizing j with
  | nil => simp [fromLE]
  | cons b bs ih =>
    have hb := b.isLt
    cases j with
    | zero => rw [fromLE, List.getD_cons_zero, Nat.pow_zero]; omega
    | succ j =>
      rw [List.getD_cons_succ, ← ih, fromLE, Nat.pow_succ', ← Nat.div_div_eq_div_mul,
        show (b.toNat + 256 * fromLE bs) / 256 = fromLE bs by omega]

theorem fromLE_take_two (bs : List Byte) :
    fromLE (bs.take 2) = (bs.getD 0 0#8).toNat + 256 * (bs.getD 1 0#8).toNat := by
  rcases bs with _ | ⟨a, _ | ⟨b, bs⟩⟩ <;> rfl

theorem extractLsb'_byte {W : Nat} (x : BitVec W) (j : Nat) :
    x.extractLsb' (8 * j) 8 = BitVec.ofNat 8 (x.toNat / 256 ^ j) := by
  apply BitVec.eq_of_toNat_eq
  rw [BitVec.extractLsb'_toNat, BitVec.toNat_ofNat, Nat.shiftRight_eq_div_pow, Nat.pow_mul]

theorem extractLsb'_ofNat_fromLE {W j : Nat} (bs : List Byte) (h : 8 * j + 8 ≤ W) :
    (BitVec.ofNat W (fromLE bs)).extractLsb' (8 * j) 8 = bs.getD j 0#8 := by
  have hW : 2 ^ W = 256 ^ j * (256 * 2 ^ (W - (8 * j + 8))) := by
    rw [show (256 : Nat) = 2 ^ 8 from rfl, ← Nat.pow_mul, ← Nat.pow_add, ← Nat.pow_add]
    exact congrArg _ (by omega)
  apply BitVec.eq_of_toNat_eq
  rw [extractLsb'_byte, BitVec.toNat_ofNat, BitVec.toNat_ofNat, hW, Nat.mod_mul_right_div_self, ← fromLE_byte]
  exact Nat.mod_mul_right_mod _ 256 _

theorem getD_pieces {wb k i : Nat} (bs : List Byte) (h : i < k) :
    (pieces wb k bs).getD i [] = (bs.drop (wb * i)).take wb := by
  induction k generalizing bs i with
  | zero => omega
  | succ k ih =>
    cases i with
    | zero => rfl
    | succ i => rw [pieces, List.getD_cons_succ, ih _ (by omega), List.drop_drop, Nat.mul_succ, Nat.add_comm]

theorem getD_take_drop (bs : List Byte) {n m j : Nat} (h : j < m) :
    ((bs.drop n).take m).getD j 0#8 = bs.getD (n + j) 0#8 := by
  rw [List.getD_eq_getElem?_getD, List.getElem?_take_of_lt h, List.getElem?_drop, ← List.getD_eq_getElem?_getD]

/-- Byte `j` of piece `i` of a concatenation of pieces of equal length. -/
theorem getD_flatMap {α : Type} {wb i j : Nat} (f : α → List Byte) (l : List α) (d : α)
    (hf : ∀ x, (f x).length = wb) (hi : i < l.length) (hj : j < wb) :
    (l.flatMap f).getD (wb * i + j) 0#8 = (f (l.getD i d)).getD j 0#8 := by
  have hpiece := congrArg (fun ps => (ps.getD i []).getD j 0#8) (pieces_flatMap wb f l hf)
  simp only [getD_pieces _ hi, getD_take_drop _ hj] at hpiece
  rw [hpiece]
  simp [List.getD_eq_getElem?_getD, hi]

/-! The image of one core. -/

section
variable {W N : Nat} (c : MtCore W N)

theorem getD_stateImage_index {j : Nat} (h : j < 2) :
    (stateImage c).getD j 0#8 = BitVec.ofNat 8 (c.w.toNat / 256 ^ j) := by
  rw [stateImage, List.getD_append _ _ _ _ (by rwa [length_leBytes]), getD_leBytes _ _ h]

theorem getD_stateImage_word {i j : Nat} (hi : i < N) (hj : j < W / 8) :
    (stateImage c).getD (2 + W / 8 * i + j) 0#8 = (cell c.X i).extractLsb' (8 * j) 8 := by
  rw [stateImage, Nat.add_assoc, List.getD_append_right _ _ _ _ (by rw [length_leBytes]; omega), length_leBytes,
    Nat.add_sub_cancel_left, getD_flatMap _ _ default (fun x => length_leBytes _ _) (by simpa using hi) hj,
    getD_leBytes _ _ hj, extractLsb'_byte]
  rfl

end

section
variable {W N : Nat} {img : List Byte}

theorem importImage_ignored (h : img.length ≠ imageBytes ∨ N < fromLE (img.take 2)) :
    importImage W N img = none := by
  unfold importImage
  by_cases hlen : img.length = imageBytes
  · rw [if_neg (not_not.mpr hlen), if_pos (h.resolve_left (not_not.mpr hlen))]
  · rw [if_pos hlen]

/-- The core a good image describes. -/
def importedCore (W N : Nat) (img : List Byte) : MtCore W N :=
  { X := cells N ((pieces (W / 8) N (img.drop 2)).map fun q => BitVec.ofNat W (fromLE q)),
    w := BitVec.ofNat 10 (fromLE (img.take 2)), seeded := true }

theorem importImage_accepted (hlen : img.length = imageBytes) (hw : fromLE (img.take 2) ≤ N) :
    importImage W N img = some (importedCore W N img) := by
  unfold importImage
  rw [if_neg (not_not.mpr hlen), if_neg (Nat.not_lt.mpr hw)]
  rfl

theorem importedCore_w (hN : N < 1024) (hw : fromLE (img.take 2) ≤ N) :
    (importedCore W N img).w.toNat = fromLE (img.take 2) := by
  rw [importedCore, BitVec.toNat_ofNat, Nat.mod_eq_of_lt (by omega)]

theorem cell_importedCore {i j : Nat} (hi : i < N) (hj : j < W / 8) :
    (cell (importedCore W N img).X i).extractLsb' (8 * j) 8 = img.getD (2 + W / 8 * i + j) 0#8 := by
  have hword : cell (importedCore W N img).X i =
      BitVec.ofNat W (fromLE (((img.drop 2).drop (W / 8 * i)).take (W / 8))) := by
    rw [importedCore, cell_cells, if_pos hi, ← getD_pieces _ hi]
    simp [List.getD_eq_getElem?_getD, hi]
  rw [hword, extractLsb'_ofNat_fromLE _ (by omega), List.drop_drop, getD_take_drop _ hj]

theorem take_two_stateImage (c : MtCore W N) : (stateImage c).take 2 = leBytes 2 c.w.toNat :=
  List.take_left' (length_leBytes _ _)

theorem fromLE_take_two_stateImage (c : MtCore W N) : fromLE ((stateImage c).take 2) = c.w.toNat := by
  rw [take_two_stateImage, fromLE_leBytes]
  exact Nat.mod_eq_of_lt (Nat.lt_trans c.w.isLt (by decide))

theorem pieces_stateImage (c : MtCore W N) : pieces (W / 8) N ((stateImage c).drop 2) =
    c.X.toList.map fun x => leBytes (W / 8) x.toNat := by
  have hpieces := pieces_flatMap (W / 8) (fun x : BitVec W => leBytes (W / 8) x.toNat) c.X.toList
    fun x => length_leBytes _ _
  rw [Vector.length_toList] at hpieces
  rw [stateImage, List.drop_left' (length_leBytes _ _), hpieces]

/-- A word in bytes and back. -/
theorem ofNat_fromLE_leBytes (hW : 8 * (W / 8) = W) (x : BitVec W) :
    BitVec.ofNat W (fromLE (leBytes (W / 8) x.toNat)) = x := by
  have hpow : 256 ^ (W / 8) = 2 ^ W := by rw [show (256 : Nat) = 2 ^ 8 from rfl, ← Nat.pow_mul, hW]
  rw [fromLE_leBytes, hpow, Nat.mod_eq_of_lt x.isLt, BitVec.ofNat_toNat, BitVec.setWidth_eq]

/-- A seeded core is the one its own image describes (43_mersenne_twister.md R151). -/
theorem importedCore_stateImage {c : MtCore W N} (hs : c.seeded = true) (hW : 8 * (W / 8) = W) :
    importedCore W N (stateImage c) = c := by
  have hX : cells N ((pieces (W / 8) N ((stateImage c).drop 2)).map fun q => BitVec.ofNat W (fromLE q)) = c.X := by
    rw [pieces_stateImage, List.map_map]
    have hwords := List.map_congr_left (l := c.X.toList) fun x _ => ofNat_fromLE_leBytes hW x
    exact (congrArg (cells N) (hwords.trans (List.map_id' _))).trans (cells_toList c.X)
  rw [importedCore, hX, fromLE_take_two_stateImage, BitVec.ofNat_toNat, BitVec.setWidth_eq, ← hs]

end

/-! The commands. -/

section
variable {s : State} {v : Variant} {img : List Byte}

theorem exec_mtGetState (hf : s.fault = false) (hs : isSeeded v s.regs = true) : exec (.mtGetState v) s =
    .next (s.complete { regs := s.regs, dout := imageOf v s.regs, res := none }) := by
  refine exec_of_effect_ok hf ?_
  rw [effectOf, getStateEffect, hs]
  rfl

theorem exec_mtSetState (hf : s.fault = false) : exec (.mtSetState v img) s = .next (s.complete
    { regs := (imported v img s.regs).getD s.regs, dout := [],
      res := reportResult s.params.setStateReport (imported v img s.regs).isSome }) :=
  exec_of_effect_ok hf (setStateEffect_eq _ v img s.regs)

theorem exec_mtSetState_ignored (hf : s.fault = false) (h : imported v img s.regs = none) :
    exec (.mtSetState v img) s = .next (s.complete
      { regs := s.regs, dout := [], res := reportResult s.params.setStateReport false }) := by
  rw [exec_mtSetState hf, h]
  rfl

theorem exec_mtSetState_accepted {r : Regs} (hf : s.fault = false) (h : imported v img s.regs = some r) :
    exec (.mtSetState v img) s = .next (s.complete
      { regs := r, dout := [], res := reportResult s.params.setStateReport true }) := by
  rw [exec_mtSetState hf, h]
  rfl

end

/-- Settles O47: the bytes of `imageOf`, the index first, then the words. -/
theorem stateImageIsLittleEndian : Obligations.StateImageIsLittleEndian := by
  intro s hf
  have hlow : ∀ w : BitVec 10, BitVec.ofNat 8 (w.toNat / 256 ^ 0) = BitVec.ofNat 8 w.toNat := fun w => by
    rw [Nat.pow_zero, Nat.div_one]
  constructor
  · intro hs
    exact ⟨imageOf .mt32 s.regs, exec_mtGetState (v := .mt32) hf hs, length_imageOf .mt32 s.regs,
      (getD_stateImage_index s.regs.mt32 (by decide)).trans (hlow _), getD_stateImage_index s.regs.mt32 (by decide),
      fun i j hi hj => getD_stateImage_word s.regs.mt32 hi hj⟩
  · intro hs
    exact ⟨imageOf .mt64 s.regs, exec_mtGetState (v := .mt64) hf hs, length_imageOf .mt64 s.regs,
      (getD_stateImage_index s.regs.mt64 (by decide)).trans (hlow _), getD_stateImage_index s.regs.mt64 (by decide),
      fun i j hi hj => getD_stateImage_word s.regs.mt64 hi hj⟩

theorem imported_mt32 (img : List Byte) (r : Regs) :
    imported .mt32 img r = (importImage 32 624 img).map fun c => { r with mt32 := c } := rfl

theorem imported_mt64 (img : List Byte) (r : Regs) :
    imported .mt64 img r = (importImage 64 312 img).map fun c => { r with mt64 := c } := rfl

/-- Settles O48: the length and the index decide between `importImage_ignored` and `importImage_accepted`. -/
theorem importAcceptsOrIgnores : Obligations.ImportAcceptsOrIgnores := by
  intro s img hf w told
  have hw : w = fromLE (img.take 2) := (fromLE_take_two img).symm
  have htold : ∀ b, told b = reportResult s.params.setStateReport b := fun b => by
    cases h : s.params.setStateReport <;> simp only [told, h] <;> rfl
  simp only [hw, htold]
  refine ⟨fun h => ?_, fun h => ?_, fun hlen hle => ?_, fun hlen hle => ?_⟩
  · exact exec_mtSetState_ignored hf (by rw [imported_mt32, importImage_ignored h]; rfl)
  · exact exec_mtSetState_ignored hf (by rw [imported_mt64, importImage_ignored h]; rfl)
  · exact ⟨importedCore 32 624 img,
      exec_mtSetState_accepted hf (by rw [imported_mt32, importImage_accepted hlen hle]; rfl), rfl,
      importedCore_w (by decide) hle, fun i j hi hj => cell_importedCore hi hj⟩
  · exact ⟨importedCore 64 312 img,
      exec_mtSetState_accepted hf (by rw [imported_mt64, importImage_accepted hlen hle]; rfl), rfl,
      importedCore_w (by decide) hle, fun i j hi hj => cell_importedCore hi hj⟩

/-- A seeded core in range accepts its own image and is left as it was. -/
theorem importImage_stateImage {W N : Nat} {c : MtCore W N} (hs : c.seeded = true) (hc : c.Inv)
    (hW : 8 * (W / 8) = W) (hlen : (stateImage c).length = imageBytes) : importImage W N (stateImage c) = some c := by
  rw [importImage_accepted hlen (by rw [fromLE_take_two_stateImage]; exact hc hs), importedCore_stateImage hs hW]

theorem imported_imageOf {v : Variant} {r : Regs} (hr : r.Inv) (hs : isSeeded v r = true) :
    imported v (imageOf v r) r = some r := by
  cases v with
  | mt32 => rw [imported_mt32, imageOf, importImage_stateImage hs hr.mt32 (by decide) (length_imageOf .mt32 r)]; rfl
  | mt64 => rw [imported_mt64, imageOf, importImage_stateImage hs hr.mt64 (by decide) (length_imageOf .mt64 r)]; rfl

/-- Settles O49: under the invariant the index of the exported image is in range, so the image is accepted. -/
theorem exportThenImportRestoresTheCore : Obligations.ExportThenImportRestoresTheCore := fun s v hinv hf hs =>
  ⟨_, _, imageOf v s.regs, exec_mtGetState hf hs, rfl, rfl,
    exec_mtSetState_accepted hf (imported_imageOf (hinv.regs hf) hs), hf, rfl⟩

end Sys2Proof.Machine

/-! PROOFS. The rounding `fl` on magnitudes (44_ranged_sampler.md R165): it is monotone, exact on what binary64
represents, and the unit draws of 43_mersenne_twister.md R147 lie in the unit interval. -/

namespace Sys2Proof.Machine

/-! Rounding to the nearest integer. -/

section
variable {num num' den : Nat}

theorem nearestEven_bounds (num den : Nat) :
    num / den ≤ nearestEven num den ∧ nearestEven num den ≤ num / den + 1 := by
  unfold nearestEven
  dsimp only
  have := Nat.mod_lt (num / den) (show 0 < 2 by decide)
  split
  · omega
  · split <;> omega

theorem nearestEven_of_below (h : 2 * (num % den) < den) : nearestEven num den = num / den := if_pos h

theorem nearestEven_of_above (h : den < 2 * (num % den)) : nearestEven num den = num / den + 1 := by
  unfold nearestEven
  dsimp only
  rw [if_neg (by omega), if_pos h]

theorem nearestEven_mul (m : Nat) (hden : 0 < den) : nearestEven (m * den) den = m := by
  rw [nearestEven_of_below (by rwa [Nat.mul_mod_left]), Nat.mul_div_cancel _ hden]

theorem nearestEven_mono (den : Nat) (h : num ≤ num') : nearestEven num den ≤ nearestEven num' den := by
  have hup := (nearestEven_bounds num den).2
  have hdown := (nearestEven_bounds num' den).1
  have hq : num / den ≤ num' / den := Nat.div_le_div_right h
  rcases Nat.lt_or_eq_of_le hq with hlt | heq
  · omega
  rcases Nat.lt_or_ge (2 * (num % den)) den with hbelow | hhalf
  · rw [nearestEven_of_below hbelow]
    omega
  rcases Nat.lt_or_ge den (2 * (num' % den)) with habove | hhalf'
  · rw [nearestEven_of_above habove]
    omega
  · have hsame : num' = num := by
      have h1 := Nat.div_add_mod num den
      have h2 := Nat.div_add_mod num' den
      rw [heq] at h1
      omega
    rw [hsame]

/-! The encoding of a rounded magnitude: the exponent part and the significand of `flUnits`. -/

/-- The place of the unit in the last place. -/
def ulpShift (num den : Nat) : Nat := Nat.log2 (num / den) - 52

/-- The significand, rounded. -/
def significand (num den : Nat) : Nat := nearestEven num (den * 2 ^ ulpShift num den)

theorem flUnits_eq (num den : Nat) :
    flUnits num den = min (ulpShift num den * 2 ^ 52 + significand num den) (0x7FF * 2 ^ 52) := rfl

theorem ulpShift_mono (den : Nat) (h : num ≤ num') : ulpShift num den ≤ ulpShift num' den := by
  have := Nat.log_mono_right (b := 2) (Nat.div_le_div_right (c := den) h)
  simp only [ulpShift, Nat.log2_eq_log_two]
  omega

theorem significand_le (num den : Nat) : significand num den ≤ 2 ^ 53 := by
  have hlt : num / (den * 2 ^ ulpShift num den) < 2 ^ 53 := by
    rw [← Nat.div_div_eq_div_mul]
    refine Nat.div_lt_of_lt_mul (Nat.lt_of_lt_of_le Nat.lt_log2_self ?_)
    rw [← Nat.pow_add]
    exact Nat.pow_le_pow_right (by decide) (by unfold ulpShift; omega)
  have := (nearestEven_bounds num (den * 2 ^ ulpShift num den)).2
  unfold significand
  omega

theorem le_significand (h : 0 < ulpShift num den) : 2 ^ 52 ≤ significand num den := by
  refine Nat.le_trans ?_ (nearestEven_bounds num (den * 2 ^ ulpShift num den)).1
  have hlog : Nat.log2 (num / den) = 52 + ulpShift num den := by unfold ulpShift at h ⊢; omega
  have hne : num / den ≠ 0 := by
    intro h0
    rw [h0, Nat.log2_zero] at hlog
    omega
  rw [← Nat.div_div_eq_div_mul, Nat.le_div_iff_mul_le (Nat.two_pow_pos _), ← Nat.pow_add, ← hlog]
  exact Nat.log2_self_le hne

/-- Rounding is monotone: a carry out of a smaller significand does not pass the next exponent. -/
theorem flUnits_mono (den : Nat) (h : num ≤ num') : flUnits num den ≤ flUnits num' den := by
  rw [flUnits_eq, flUnits_eq]
  refine min_le_min_right _ ?_
  rcases Nat.lt_or_eq_of_le (ulpShift_mono den h) with hlt | heq
  · have := significand_le num den
    have := le_significand (show 0 < ulpShift num' den by omega)
    omega
  · have := nearestEven_mono (den * 2 ^ ulpShift num den) h
    unfold significand
    rw [← heq]
    omega

/-- A magnitude that fits a significand is encoded exactly. -/
theorem flUnits_exact {m sh : Nat} (hlo : 2 ^ 52 ≤ m) (hhi : m < 2 ^ 53) (hsh : sh ≤ 2045) (hden : 0 < den) :
    flUnits (m * 2 ^ sh * den) den = sh * 2 ^ 52 + m := by
  have hlog : Nat.log2 (m * 2 ^ sh) = 52 + sh := by
    rw [Nat.log2_eq_iff (by positivity), Nat.add_right_comm, Nat.pow_add, Nat.pow_add _ (52 + 1)]
    exact ⟨Nat.mul_le_mul_right _ hlo, Nat.mul_lt_mul_of_pos_right hhi (Nat.two_pow_pos sh)⟩
  have hshift : ulpShift (m * 2 ^ sh * den) den = sh := by
    rw [ulpShift, Nat.mul_div_cancel _ hden, hlog, Nat.add_sub_cancel_left]
  have hsig : significand (m * 2 ^ sh * den) den = m := by
    rw [significand, hshift, Nat.mul_assoc, Nat.mul_comm (2 ^ sh)]
    exact nearestEven_mul m (by positivity)
  rw [flUnits_eq, hshift, hsig]
  omega

end

/-! Reading an encoding. -/

/-- The magnitude an encoding without its sign bit stands for, in units of 2^-1074. -/
def encodedUnits (x : Nat) : Nat := if x / 2 ^ 52 = 0 then x else (2 ^ 52 + x % 2 ^ 52) * 2 ^ (x / 2 ^ 52 - 1)

theorem encodedUnits_of_lt {x : Nat} (h : x < 2 ^ 52) : encodedUnits x = x := by
  rw [encodedUnits, if_pos (Nat.div_eq_of_lt h)]

/-- An encoding with exponent part `sh + 1`: its significand is at least 2^52. -/
theorem encodedUnits_normal {sh m : Nat} (hlo : 2 ^ 52 ≤ m) (hhi : m < 2 ^ 53) :
    encodedUnits (sh * 2 ^ 52 + m) = m * 2 ^ sh := by
  have hdiv : (sh * 2 ^ 52 + m) / 2 ^ 52 = sh + 1 := by omega
  have hmod : 2 ^ 52 + (sh * 2 ^ 52 + m) % 2 ^ 52 = m := by omega
  rw [encodedUnits, hdiv, hmod, if_neg (Nat.succ_ne_zero sh), Nat.add_sub_cancel]

theorem exists_normal {x : Nat} (h : 2 ^ 52 ≤ x) : ∃ sh m, 2 ^ 52 ≤ m ∧ m < 2 ^ 53 ∧ x = sh * 2 ^ 52 + m :=
  ⟨x / 2 ^ 52 - 1, 2 ^ 52 + x % 2 ^ 52, by omega, by omega, by omega⟩

theorem encodedUnits_mono {x y : Nat} (h : x ≤ y) : encodedUnits x ≤ encodedUnits y := by
  rcases Nat.lt_or_ge y (2 ^ 52) with hy | hy
  · rwa [encodedUnits_of_lt hy, encodedUnits_of_lt (by omega)]
  obtain ⟨sh', m', hlo', hhi', rfl⟩ := exists_normal hy
  rw [encodedUnits_normal hlo' hhi']
  rcases Nat.lt_or_ge x (2 ^ 52) with hx | hx
  · rw [encodedUnits_of_lt hx]
    have := Nat.le_mul_of_pos_right m' (Nat.two_pow_pos sh')
    omega
  obtain ⟨sh, m, hlo, hhi, rfl⟩ := exists_normal hx
  rw [encodedUnits_normal hlo hhi]
  rcases Nat.lt_or_ge sh sh' with hlt | hge
  · calc m * 2 ^ sh ≤ 2 ^ 53 * 2 ^ sh := Nat.mul_le_mul_right _ (by omega)
      _ = 2 ^ 52 * 2 ^ (sh + 1) := by rw [Nat.pow_succ]; omega
      _ ≤ m' * 2 ^ sh' := Nat.mul_le_mul hlo' (Nat.pow_le_pow_right (by decide) hlt)
  · have heq : sh = sh' := by omega
    subst heq
    exact Nat.mul_le_mul_right _ (by omega)

section
variable {d : Word64}

theorem toNat_exponent (d : Word64) : (d.extractLsb' 52 11).toNat = d.toNat / 2 ^ 52 % 2 ^ 11 := by
  rw [BitVec.extractLsb'_toNat, Nat.shiftRight_eq_div_pow]

theorem toNat_fraction (d : Word64) : (d.extractLsb' 0 52).toNat = d.toNat % 2 ^ 52 := by
  rw [BitVec.extractLsb'_toNat, Nat.shiftRight_zero]

theorem fpUnits_eq_encodedUnits (h : d.toNat < 2 ^ 63) : fpUnits d = encodedUnits d.toNat := by
  have hexp : d.toNat / 2 ^ 52 % 2 ^ 11 = d.toNat / 2 ^ 52 := by omega
  simp only [fpUnits, toNat_exponent, toNat_fraction, hexp, encodedUnits]
  split
  · next h0 => exact Nat.mod_eq_of_lt (by omega)
  · rfl

theorem fpSign_eq_false (h : d.toNat < 2 ^ 63) : fpSign d = false := by
  rw [fpSign, BitVec.getLsbD]
  exact Nat.testBit_lt_two_pow h

/-- A magnitude below the infinity is an ordinary number. -/
theorem finite_of_lt (h : d.toNat < 0x7FF * 2 ^ 52) : fpIsNaN d = false ∧ fpIsInf d = false := by
  have hexp : (d.extractLsb' 52 11 == 0x7FF#11) = false := by
    rw [beq_eq_false_iff_ne]
    intro he
    have := congrArg BitVec.toNat he
    rw [toNat_exponent, BitVec.toNat_ofNat] at this
    omega
  exact ⟨by rw [fpIsNaN, hexp, Bool.false_and], by rw [fpIsInf, hexp, Bool.false_and]⟩

end

theorem toNat_fpOfRatio (num den : Nat) : (fpOfRatio num den).toNat = flUnits (num * 2 ^ 1074) den := by
  have hle : flUnits (num * 2 ^ 1074) den ≤ 0x7FF * 2 ^ 52 := by rw [flUnits_eq]; exact min_le_right _ _
  rw [fpOfRatio, fpSigned, BitVec.toNat_ofNat, if_neg Bool.false_ne_true, Nat.add_zero]
  exact Nat.mod_eq_of_lt (by omega)

/-! The unit draws. -/

/-- The denominator of a unit draw (43_mersenne_twister.md R147). -/
def drawDenominator (closed : Bool) : Nat := if closed then 2 ^ 53 - 1 else 2 ^ 53

theorem unitDouble_eq (closed : Bool) (k : Nat) : unitDouble closed k = fpOfRatio k (drawDenominator closed) := by
  cases closed <;> rfl

theorem two_pow_1074 {a b : Nat} (h : a + b = 1074) : 2 ^ 1074 = 2 ^ a * 2 ^ b := by
  rw [← h, Nat.pow_add]

/-- `fl(1)`, for a fraction with equal parts. -/
theorem flUnits_one {den : Nat} (hden : 0 < den) : flUnits (den * 2 ^ 1074) den = 0x3FF * 2 ^ 52 := by
  rw [two_pow_1074 (a := 52) (b := 1022) rfl, Nat.mul_comm]
  exact flUnits_exact (by decide) (by decide) (by decide) hden

section
variable {closed : Bool} {k k' : Nat}

theorem toNat_unitDouble_le (h : k ≤ drawDenominator closed) : (unitDouble closed k).toNat ≤ 0x3FF * 2 ^ 52 := by
  have hden : 0 < drawDenominator closed := by cases closed <;> decide
  rw [unitDouble_eq, toNat_fpOfRatio, ← flUnits_one hden]
  exact flUnits_mono _ (Nat.mul_le_mul_right _ h)

theorem fpUnits_unitDouble (h : k ≤ drawDenominator closed) : fpUnits (unitDouble closed k) =
    encodedUnits (flUnits (k * 2 ^ 1074) (drawDenominator closed)) := by
  have := toNat_unitDouble_le h
  rw [fpUnits_eq_encodedUnits (by omega), unitDouble_eq, toNat_fpOfRatio]

theorem fpUnits_unitDouble_mono (h : k ≤ k') (h' : k' ≤ drawDenominator closed) :
    fpUnits (unitDouble closed k) ≤ fpUnits (unitDouble closed k') := by
  rw [fpUnits_unitDouble (h.trans h'), fpUnits_unitDouble h']
  exact encodedUnits_mono (flUnits_mono _ (Nat.mul_le_mul_right _ h))

/-- A half-open draw is exact: its significand is `k`, shifted up to 53 bits. -/
theorem fpUnits_halfOpen (h : k < 2 ^ 53) : fpUnits (unitDouble false k) = k * 2 ^ 1021 := by
  rcases Nat.eq_zero_or_pos k with rfl | hpos
  · rw [fpUnits_unitDouble (Nat.zero_le _), Nat.zero_mul, Nat.zero_mul]
    decide
  have hne : k ≠ 0 := by omega
  have hle : Nat.log2 k ≤ 52 := Nat.le_of_lt_succ ((Nat.log2_lt hne).mpr h)
  generalize hL : Nat.log2 k = L at hle
  obtain ⟨hlow, hhigh⟩ := (Nat.log2_eq_iff hne).mp hL
  have hlo : 2 ^ 52 ≤ k * 2 ^ (52 - L) := by
    calc 2 ^ 52 = 2 ^ L * 2 ^ (52 - L) := by rw [← Nat.pow_add]; congr 1; omega
      _ ≤ k * 2 ^ (52 - L) := Nat.mul_le_mul_right _ hlow
  have hhi : k * 2 ^ (52 - L) < 2 ^ 53 := by
    calc k * 2 ^ (52 - L) < 2 ^ (L + 1) * 2 ^ (52 - L) := Nat.mul_lt_mul_of_pos_right hhigh (Nat.two_pow_pos _)
      _ = 2 ^ 53 := by rw [← Nat.pow_add]; congr 1; omega
  have hunits : k * 2 ^ (52 - L) * 2 ^ (L + 969) = k * 2 ^ 1021 := by
    have hsum : 1021 = 52 - L + (L + 969) := by omega
    rw [hsum, Nat.pow_add _ (52 - L), Nat.mul_assoc]
  have hnum : k * 2 ^ 1074 = k * 2 ^ (52 - L) * 2 ^ (L + 969) * 2 ^ 53 := by
    rw [hunits, Nat.mul_assoc, two_pow_1074 (a := 1021) (b := 53) rfl]
  rw [fpUnits_unitDouble (Nat.le_of_lt h), hnum]
  exact (congrArg encodedUnits (flUnits_exact hlo hhi (by omega) (by decide))).trans
    ((encodedUnits_normal hlo hhi).trans hunits)

theorem fpUnits_closed_top : fpUnits (unitDouble true (2 ^ 53 - 1)) = 2 ^ 1074 := by
  have hone : flUnits ((2 ^ 53 - 1) * 2 ^ 1074) (2 ^ 53 - 1) = 0x3FF * 2 ^ 52 := flUnits_one (by decide)
  have hden : 2 ^ 53 - 1 ≤ drawDenominator true := Nat.le_refl _
  calc fpUnits (unitDouble true (2 ^ 53 - 1)) = encodedUnits (flUnits ((2 ^ 53 - 1) * 2 ^ 1074) (2 ^ 53 - 1)) :=
        fpUnits_unitDouble hden
    _ = encodedUnits (1022 * 2 ^ 52 + 2 ^ 52) := congrArg encodedUnits hone
    _ = 2 ^ 52 * 2 ^ 1022 := encodedUnits_normal (by decide) (by decide)
    _ = 2 ^ 1074 := (two_pow_1074 rfl).symm

/-- The closed draw next to the top rounds to the number before 1. -/
theorem fpUnits_closed_lt (h : k < 2 ^ 53 - 1) : fpUnits (unitDouble true k) < 2 ^ 1074 := by
  have hmono : fpUnits (unitDouble true k) ≤ fpUnits (unitDouble true (2 ^ 53 - 2)) :=
    fpUnits_unitDouble_mono (by omega) (by decide)
  exact Nat.lt_of_le_of_lt hmono (by decide +kernel)

end

/-- Settles O46: both forms are monotone roundings of `k` over their denominator, which lies between 0 and 1. -/
theorem unitDrawsStayInTheUnitInterval : Obligations.UnitDrawsStayInTheUnitInterval := by
  intro k k' hk hk'
  have hden : ∀ closed {n : Nat}, n < 2 ^ 53 → n ≤ drawDenominator closed := by
    intro closed n hn
    cases closed
    · exact Nat.le_of_lt hn
    · exact Nat.le_sub_one_of_lt hn
  have htop : k < 2 ^ 53 - 1 ∨ k = 2 ^ 53 - 1 := by omega
  refine ⟨?_, ?_, ?_, ?_, fun h closed => fpUnits_unitDouble_mono h (hden closed hk'), fun closed => ?_⟩
  · rw [fpUnits_halfOpen hk, Nat.mul_assoc, two_pow_1074 (a := 1021) (b := 53) rfl]
  · rw [unitDouble_eq, toNat_fpOfRatio]
    rfl
  · rcases htop with h | rfl
    · exact Nat.le_of_lt (fpUnits_closed_lt h)
    · exact Nat.le_of_eq fpUnits_closed_top
  · rcases htop with h | rfl
    · exact iff_of_false (Nat.ne_of_lt (fpUnits_closed_lt h)) (Nat.ne_of_lt h)
    · exact iff_of_true fpUnits_closed_top rfl
  · have hle := toNat_unitDouble_le (hden closed hk)
    exact ⟨fpSign_eq_false (by omega), finite_of_lt (by omega)⟩

end Sys2Proof.Machine

/-! PROOFS. `fl` and `rint` answer the nearest value, ties to even (44_ranged_sampler.md R165, 00_scope.md R7). -/

namespace Sys2Proof.Machine

/-! Rounding a quotient to an integer. -/

section
variable {n n' d d' : Nat}

/-- A quotient rounds the same however it is written. -/
theorem nearestEven_scale (n d : Nat) {c : Nat} (hc : 0 < c) : nearestEven (n * c) (d * c) = nearestEven n d := by
  have hbelow : 2 * (n % d * c) < d * c ↔ 2 * (n % d) < d := by
    rw [← Nat.mul_assoc, Nat.mul_lt_mul_right hc]
  have habove : d * c < 2 * (n % d * c) ↔ d < 2 * (n % d) := by
    rw [← Nat.mul_assoc, Nat.mul_lt_mul_right hc]
  simp only [nearestEven, Nat.mul_div_mul_right _ _ hc, Nat.mul_mod_mul_right, hbelow, habove]

/-- The rounded quotient lies within a half of the quotient, and is even where it lies as far. -/
theorem nearestEven_half (n : Nat) (hd : 0 < d) :
    2 * ((n : Int) - nearestEven n d * d).natAbs ≤ d ∧
    (2 * ((n : Int) - nearestEven n d * d).natAbs = d → nearestEven n d % 2 = 0) := by
  have hn : (n : Int) = (n / d : Nat) * d + (n % d : Nat) := by exact_mod_cast (Nat.div_add_mod' n d).symm
  have hr := Nat.mod_lt n hd
  rcases Nat.lt_trichotomy (2 * (n % d)) d with hlt | heq | hgt
  · rw [nearestEven_of_below hlt]
    omega
  · have htie : nearestEven n d = n / d + n / d % 2 := by
      simp only [nearestEven, heq, Nat.lt_irrefl, if_false]
    have hsucc : ((n / d + 1 : Nat) : Int) * d = (n / d : Nat) * d + d := by push_cast; ring
    rw [htie]
    rcases Nat.mod_two_eq_zero_or_one (n / d) with h | h
    · rw [h, Nat.add_zero]
      omega
    · rw [h]
      omega
  · have hsucc : ((n / d + 1 : Nat) : Int) * d = (n / d : Nat) * d + d := by push_cast; ring
    rw [nearestEven_of_above hgt]
    omega

/-- No integer lies nearer to the quotient, and another one as near only where the rounded quotient is even. -/
theorem nearestEven_nearest (n j : Nat) (hd : 0 < d) :
    ((n : Int) - nearestEven n d * d).natAbs ≤ ((n : Int) - j * d).natAbs ∧
    (((n : Int) - nearestEven n d * d).natAbs = ((n : Int) - j * d).natAbs → j ≠ nearestEven n d →
      nearestEven n d % 2 = 0) := by
  obtain ⟨hhalf, htie⟩ := nearestEven_half n hd
  generalize nearestEven n d = r at *
  rcases Nat.lt_trichotomy j r with hlt | rfl | hgt
  · have : (j : Int) * d + d ≤ r * d := by exact_mod_cast (Nat.succ_mul j d) ▸ Nat.mul_le_mul_right d hlt
    omega
  · omega
  · have : (r : Int) * d + d ≤ j * d := by exact_mod_cast (Nat.succ_mul r d) ▸ Nat.mul_le_mul_right d hgt
    omega

/-- `fl` of a quotient does not depend on how the quotient is written. -/
theorem flUnits_scale (n d : Nat) {c : Nat} (hc : 0 < c) : flUnits (n * c) (d * c) = flUnits n d := by
  have hsh : ulpShift (n * c) (d * c) = ulpShift n d := by rw [ulpShift, Nat.mul_div_mul_right _ _ hc, ulpShift]
  have hsig : significand (n * c) (d * c) = significand n d := by
    rw [significand, hsh, Nat.mul_right_comm, nearestEven_scale _ _ hc, significand]
  rw [flUnits_eq, hsh, hsig, flUnits_eq]

/-- Rounding is monotone in the quotient. -/
theorem flUnits_le_flUnits (hd : 0 < d) (hd' : 0 < d') (h : n * d' ≤ n' * d) : flUnits n d ≤ flUnits n' d' := by
  rw [← flUnits_scale n d hd', ← flUnits_scale n' d' hd, Nat.mul_comm d' d]
  exact flUnits_mono _ h

end

/-! The values that are represented. -/

/-- Rounding keeps what is represented. -/
theorem flUnits_encodedUnits {m : Nat} (h : m < 0x7FF * 2 ^ 52) : flUnits (encodedUnits m) 1 = m := by
  rcases Nat.lt_or_ge m (2 ^ 52) with hlt | hge
  · have hsh : ulpShift m 1 = 0 := by
      rw [ulpShift, Nat.div_one, Nat.log2_eq_log_two, Nat.sub_eq_zero_iff_le]
      exact Nat.le_of_lt_succ (Nat.log_lt_of_lt_pow' (by decide) (Nat.lt_trans hlt (by decide)))
    have hsig : significand m 1 = m := by
      simpa [significand, hsh] using nearestEven_mul m Nat.one_pos
    rw [encodedUnits_of_lt hlt, flUnits_eq, hsh, hsig]
    omega
  · obtain ⟨sh, k, hlo, hhi, rfl⟩ := exists_normal hge
    rw [encodedUnits_normal hlo hhi]
    simpa using flUnits_exact (den := 1) hlo hhi (by omega) Nat.one_pos

theorem encodedUnits_injective {m k : Nat} (hm : m < 0x7FF * 2 ^ 52) (hk : k < 0x7FF * 2 ^ 52)
    (h : encodedUnits m = encodedUnits k) : m = k := by
  rw [← flUnits_encodedUnits hm, h, flUnits_encodedUnits hk]

theorem fpUnits_ofNat {m : Nat} (h : m < 2 ^ 63) : fpUnits (BitVec.ofNat 64 m) = encodedUnits m := by
  have hm : (BitVec.ofNat 64 m).toNat = m := by rw [BitVec.toNat_ofNat]; exact Nat.mod_eq_of_lt (by omega)
  rw [fpUnits_eq_encodedUnits (by rwa [hm]), hm]

/-- From 2^52 times `2^sh` on, every represented value is a multiple of `2^sh`. -/
theorem encodedUnits_lt_or_multiple (sh m : Nat) :
    (0 < sh ∧ encodedUnits m < 2 ^ 52 * 2 ^ sh) ∨ ∃ j, encodedUnits m = j * 2 ^ sh := by
  rcases Nat.lt_or_ge m (sh * 2 ^ 52 + 2 ^ 52) with hlt | hge
  · rcases Nat.eq_zero_or_pos sh with rfl | hpos
    · exact .inr ⟨encodedUnits m, by rw [Nat.pow_zero, Nat.mul_one]⟩
    have hle : encodedUnits m ≤ 2 ^ 52 * 2 ^ sh := by
      rw [← encodedUnits_normal (sh := sh) (m := 2 ^ 52) (by decide) (by decide)]
      exact encodedUnits_mono (Nat.le_of_lt hlt)
    exact (Nat.lt_or_eq_of_le hle).imp (fun h => ⟨hpos, h⟩) fun h => ⟨2 ^ 52, h⟩
  · obtain ⟨sh', k, hlo, hhi, rfl⟩ := exists_normal (x := m) (by omega)
    refine .inr ⟨k * 2 ^ (sh' - sh), ?_⟩
    rw [encodedUnits_normal hlo hhi, Nat.mul_assoc, ← Nat.pow_add, Nat.sub_add_cancel (by omega)]

/-! The nearest value. -/

section
variable {n d : Nat}

/-- The quotient is less than 2^53 units in the last place. -/
theorem lt_ulps (n : Nat) (hd : 0 < d) : n < 2 ^ 53 * (d * 2 ^ ulpShift n d) := by
  have hlog : n / d < 2 ^ (53 + ulpShift n d) :=
    Nat.lt_of_lt_of_le Nat.lt_log2_self (Nat.pow_le_pow_right (by decide) (by unfold ulpShift; omega))
  rw [Nat.mul_left_comm, ← Nat.pow_add]
  exact (Nat.div_lt_iff_lt_mul hd).mp hlog |>.trans_eq (Nat.mul_comm _ _)

/-- A quotient whose unit in the last place is above the least one is at least 2^52 of them. -/
theorem ulps_le (h : 0 < ulpShift n d) : 2 ^ 52 * (d * 2 ^ ulpShift n d) ≤ n := by
  have hlog : Nat.log2 (n / d) = 52 + ulpShift n d := by unfold ulpShift at h ⊢; omega
  have hne : n / d ≠ 0 := fun h0 => by rw [h0, Nat.log2_zero] at hlog; omega
  have hle := Nat.log2_self_le hne
  rw [hlog, Nat.pow_add] at hle
  rw [Nat.mul_left_comm]
  exact (Nat.mul_le_mul_left d hle).trans (Nat.mul_div_le n d)

theorem flUnits_of_finite (h : flUnits n d < 0x7FF * 2 ^ 52) :
    flUnits n d = ulpShift n d * 2 ^ 52 + significand n d := by
  rw [flUnits_eq] at h ⊢
  omega

/-- A finite rounding stands for its significand in units of the last place. -/
theorem encodedUnits_flUnits (h : flUnits n d < 0x7FF * 2 ^ 52) :
    encodedUnits (flUnits n d) = significand n d * 2 ^ ulpShift n d := by
  rw [flUnits_of_finite h]
  have hle := significand_le n d
  rcases Nat.lt_or_ge (significand n d) (2 ^ 52) with hlt | hge
  · have hsh : ulpShift n d = 0 := Nat.eq_zero_of_not_pos fun hpos => Nat.not_lt.mpr (le_significand hpos) hlt
    rw [hsh, Nat.zero_mul, Nat.zero_add, Nat.pow_zero, Nat.mul_one, encodedUnits_of_lt hlt]
  rcases Nat.lt_or_eq_of_le hle with hlt | heq
  · exact encodedUnits_normal hge hlt
  · rw [heq, show ulpShift n d * 2 ^ 52 + 2 ^ 53 = (ulpShift n d + 1) * 2 ^ 52 + 2 ^ 52 by omega,
      encodedUnits_normal (Nat.le_refl _) (by decide), Nat.pow_succ]
    omega

/-- The distance of a quotient from the value an encoding stands for, times its denominator. -/
def distance (n d k : Nat) : Nat := ((n : Int) - encodedUnits k * d).natAbs

/-- The rounded value is the multiple of its unit in the last place that `nearestEven_nearest` speaks of. A represented
value that is no such multiple lies below 2^52 units, which are nearer to the quotient. -/
theorem flUnits_nearest (hd : 0 < d) (h : flUnits n d < 0x7FF * 2 ^ 52) {m : Nat} (hm : m < 0x7FF * 2 ^ 52) :
    distance n d (flUnits n d) ≤ distance n d m ∧
    (distance n d (flUnits n d) = distance n d m → m ≠ flUnits n d → flUnits n d % 2 = 0) := by
  have hD : 0 < d * 2 ^ ulpShift n d := Nat.mul_pos hd (Nat.two_pow_pos _)
  have hunits (j : Nat) : ((j * 2 ^ ulpShift n d : Nat) : Int) * d = j * (d * 2 ^ ulpShift n d : Nat) := by
    push_cast
    ring
  have heven : significand n d % 2 = 0 → flUnits n d % 2 = 0 := by rw [flUnits_of_finite h]; omega
  have hfl : distance n d (flUnits n d) =
      ((n : Int) - significand n d * (d * 2 ^ ulpShift n d : Nat)).natAbs := by
    rw [distance, encodedUnits_flUnits h, hunits]
  rcases encodedUnits_lt_or_multiple (ulpShift n d) m with ⟨hpos, hlt⟩ | ⟨j, hj⟩
  · have hnear := (nearestEven_nearest n (2 ^ 52) hD).1
    have hulps := ulps_le hpos
    have hfar : (encodedUnits m : Int) * d < (2 ^ 52 : Nat) * (d * 2 ^ ulpShift n d : Nat) := by
      rw [← hunits]
      exact_mod_cast Nat.mul_lt_mul_of_pos_right hlt hd
    have hstrict : distance n d (flUnits n d) < distance n d m := by
      rw [hfl, distance, significand]
      omega
    exact ⟨Nat.le_of_lt hstrict, fun heq => absurd heq (Nat.ne_of_lt hstrict)⟩
  · obtain ⟨hnear, htie⟩ := nearestEven_nearest n j hD
    have hm' : distance n d m = ((n : Int) - j * (d * 2 ^ ulpShift n d : Nat)).natAbs := by
      rw [distance, hj, hunits]
    rw [hfl, hm']
    refine ⟨hnear, fun heq hne => heven (htie heq ?_)⟩
    rintro rfl
    exact hne (encodedUnits_injective hm h (hj.trans (encodedUnits_flUnits h).symm))

end

/-- A number and its `rint` have the same sign, so they differ as their magnitudes do. -/
theorem rint_offset (t : Word64) : (fpValue t - fpRint t * 2 ^ 1074).natAbs =
    ((fpUnits t : Int) - nearestEven (fpUnits t) (2 ^ 1074) * (2 ^ 1074 : Nat)).natAbs := by
  rw [fpValue, fpRint, ← Nat.cast_ofNat (R := Int) (n := 2), ← Nat.cast_pow]
  generalize 2 ^ 1074 = unit
  split
  · rw [Int.neg_mul, ← neg_sub', Int.natAbs_neg]
  · rfl

theorem rint_mod_two (t : Word64) : fpRint t % 2 = 0 ↔ nearestEven (fpUnits t) (2 ^ 1074) % 2 = 0 := by
  rw [fpRint]
  split <;> omega

/-- Settles O53: `flUnits_le_flUnits`, `flUnits_encodedUnits`, `flUnits_nearest`, and `nearestEven_half` for `rint`. -/
theorem roundingIsToNearestEven : Obligations.RoundingIsToNearestEven := by
  refine ⟨fun n d n' d' => flUnits_le_flUnits, fun m hm => ?_, fun n d hd hfin m hm => ?_, fun t => ?_⟩
  · rw [fpUnits_ofNat (by omega), flUnits_encodedUnits hm]
  · simp only [fpUnits_ofNat (Nat.lt_trans hm (by decide)), fpUnits_ofNat (Nat.lt_trans hfin (by decide))]
    exact flUnits_nearest hd hfin hm
  · obtain ⟨hhalf, htie⟩ := nearestEven_half (fpUnits t) (pow_pos Nat.two_pos 1074)
    rw [rint_offset, rint_mod_two]
    exact ⟨hhalf, htie⟩

end Sys2Proof.Machine

/-! PROOFS. The fields of a double, the overflow of `fl`, and the operations as one rounding of the exact result
(44_ranged_sampler.md R165, 00_scope.md R7). -/

namespace Sys2Proof.Machine

/-! Reading the fields. -/

section
variable (x : Word64)

theorem fpUnits_eq_fields : fpUnits x = if x.toNat / 2 ^ 52 % 2 ^ 11 = 0 then x.toNat % 2 ^ 52
    else (2 ^ 52 + x.toNat % 2 ^ 52) * 2 ^ (x.toNat / 2 ^ 52 % 2 ^ 11 - 1) := by
  simp only [fpUnits, toNat_exponent, toNat_fraction]

theorem fpSign_iff : fpSign x = true ↔ 2 ^ 63 ≤ x.toNat := by
  have hmsb : fpSign x = x.msb := (BitVec.msb_eq_getLsbD_last x).symm
  rw [hmsb, BitVec.msb_eq_decide, decide_eq_true_iff]

theorem exponent_ones_iff : (x.extractLsb' 52 11 == 0x7FF#11) = true ↔ x.toNat / 2 ^ 52 % 2 ^ 11 = 2047 := by
  rw [beq_iff_eq, ← BitVec.toNat_inj, toNat_exponent]
  rfl

theorem fraction_zero_iff : (x.extractLsb' 0 52 == 0#52) = true ↔ x.toNat % 2 ^ 52 = 0 := by
  rw [beq_iff_eq, ← BitVec.toNat_inj, toNat_fraction]
  rfl

theorem fpIsInf_iff : fpIsInf x = true ↔ x.toNat / 2 ^ 52 % 2 ^ 11 = 2047 ∧ x.toNat % 2 ^ 52 = 0 := by
  rw [fpIsInf, Bool.and_eq_true, exponent_ones_iff, fraction_zero_iff]

theorem fpIsNaN_iff : fpIsNaN x = true ↔ x.toNat / 2 ^ 52 % 2 ^ 11 = 2047 ∧ x.toNat % 2 ^ 52 ≠ 0 := by
  rw [fpIsNaN, Bool.and_eq_true, exponent_ones_iff, bne, Bool.not_eq_true', ← Bool.not_eq_true, fraction_zero_iff]

end

/-! Where `fl` is the infinity. -/

theorem flUnits_le (n d : Nat) : flUnits n d ≤ 0x7FF * 2 ^ 52 := by rw [flUnits_eq]; exact min_le_right _ _

/-- The significand carries out of its 53 bits from `2^53 - 1/2` units in the last place on. -/
theorem significand_carries_iff {n d : Nat} (hd : 0 < d) :
    2 ^ 53 ≤ significand n d ↔ (2 ^ 54 - 1) * (d * 2 ^ ulpShift n d) ≤ 2 * n := by
  have hD : 0 < d * 2 ^ ulpShift n d := Nat.mul_pos hd (Nat.two_pow_pos _)
  obtain ⟨hhalf, htie⟩ := nearestEven_half n hD
  rw [significand]
  generalize d * 2 ^ ulpShift n d = D at hD hhalf htie ⊢
  generalize nearestEven n D = q at hhalf htie ⊢
  constructor
  · intro hq
    have : 2 ^ 53 * (D : Int) ≤ q * D := by exact_mod_cast Nat.mul_le_mul_right D hq
    omega
  · intro hn
    by_contra hq
    rcases Nat.lt_or_eq_of_le (Nat.le_of_lt_succ (Nat.lt_of_not_le hq)) with hlt | rfl
    · have : (q : Int) * D + D ≤ (2 ^ 53 - 1 : Nat) * D := by
        exact_mod_cast (Nat.succ_mul q D) ▸ Nat.mul_le_mul_right D hlt
      omega
    · omega

/-- `d * 2^sh` against `d * 2^e`, for `sh` up to `e`, next to `e`, and above. -/
theorem mul_two_pow_cases (d sh e : Nat) :
    (sh ≤ e ∧ d * 2 ^ sh ≤ d * 2 ^ e) ∨ (sh = e + 1 ∧ d * 2 ^ sh = 2 * (d * 2 ^ e)) ∨
    (e + 2 ≤ sh ∧ 4 * (d * 2 ^ e) ≤ d * 2 ^ sh) := by
  have hmono {i j : Nat} (h : i ≤ j) : d * 2 ^ i ≤ d * 2 ^ j :=
    Nat.mul_le_mul_left d (Nat.pow_le_pow_right Nat.two_pos h)
  have hsucc (i : Nat) : d * 2 ^ (i + 1) = 2 * (d * 2 ^ i) := by rw [Nat.pow_succ', Nat.mul_left_comm]
  rcases Nat.lt_trichotomy sh (e + 1) with hlt | rfl | hgt
  · exact .inl ⟨Nat.le_of_lt_succ hlt, hmono (Nat.le_of_lt_succ hlt)⟩
  · exact .inr (.inl ⟨rfl, hsucc e⟩)
  · refine .inr (.inr ⟨hgt, ?_⟩)
    have hle := hmono hgt
    rw [hsucc, hsucc] at hle
    omega

/-- Rounding overflows from halfway above the largest finite value on: there the unit in the last place is
`2^2045`, and the significand carries. -/
theorem flUnits_eq_inf_iff (n : Nat) {d : Nat} (hd : 0 < d) :
    flUnits n d = 0x7FF * 2 ^ 52 ↔ (2 ^ 54 - 1) * 2 ^ 2044 * d ≤ n := by
  have hsig := significand_le n d
  have hcarry := significand_carries_iff (n := n) hd
  have hlt := lt_ulps n hd
  have hle := ulps_le (n := n) (d := d)
  have hnormal := le_significand (num := n) (den := d)
  have hcases := mul_two_pow_cases d (ulpShift n d) 2044
  have hpos : 0 < d * 2 ^ 2044 := Nat.mul_pos hd (pow_pos Nat.two_pos 2044)
  rw [flUnits_eq, min_eq_right_iff, Nat.mul_assoc, Nat.mul_comm (2 ^ 2044) d]
  generalize d * 2 ^ 2044 = half at *
  generalize d * 2 ^ ulpShift n d = ulp at *
  rcases hcases with ⟨hsh, hulp⟩ | ⟨hsh, hulp⟩ | ⟨hsh, hulp⟩
  · exact iff_of_false (by omega) (by omega)
  · omega
  · exact iff_of_true (by omega) (by omega)

/-! The operations. -/

theorem toNat_fpSigned (sign : Bool) {m : Nat} (h : m ≤ 0x7FF * 2 ^ 52) :
    (fpSigned sign m).toNat = m + if sign then 2 ^ 63 else 0 := by
  rw [fpSigned, BitVec.toNat_ofNat]
  cases sign <;> exact Nat.mod_eq_of_lt (by simp; omega)

theorem flUnits_zero : flUnits 0 1 = 0 := by decide

section
variable (a b : Word64)

theorem fpUnits_fpNeg : fpUnits (fpNeg a) = fpUnits a := by
  simp [fpUnits, fpNeg, BitVec.extractLsb'_xor]

theorem fpSign_fpNeg : fpSign (fpNeg a) = !fpSign a := by
  simp [fpSign, fpNeg]

theorem fpValue_fpNeg : fpValue (fpNeg a) = -fpValue a := by
  rw [fpValue, fpUnits_fpNeg, fpSign_fpNeg, fpValue]
  cases fpSign a <;> simp

theorem toNat_fpMul : (fpMul a b).toNat =
    flUnits (fpUnits a * fpUnits b) (2 ^ 1074) + if fpSign a ≠ fpSign b then 2 ^ 63 else 0 := by
  rw [fpMul, toNat_fpSigned _ (flUnits_le _ _)]
  simp only [bne_iff_ne]

variable {a b}

theorem toNat_fpAdd (h : fpValue a + fpValue b ≠ 0) : (fpAdd a b).toNat =
    flUnits (fpValue a + fpValue b).natAbs 1 + if fpValue a + fpValue b < 0 then 2 ^ 63 else 0 := by
  rw [fpAdd]
  simp only [if_neg h, toNat_fpSigned _ (flUnits_le _ _), decide_eq_true_iff]

theorem fpAdd_of_zero_sum (h : fpValue a + fpValue b = 0) : fpAdd a b = fpSigned (fpSign a && fpSign b) 0 := if_pos h

theorem toNat_fpAdd_of_zero_sum (h : fpValue a + fpValue b = 0) : (fpAdd a b).toNat =
    flUnits 0 1 + if fpSign a = true ∧ fpSign b = true then 2 ^ 63 else 0 := by
  rw [fpAdd_of_zero_sum h, toNat_fpSigned _ (Nat.zero_le _), flUnits_zero]
  simp only [Bool.and_eq_true]

end

/-- Settles O59: the fields, the overflow threshold, and one rounding of each exact result; a difference is the sum with
the negated operand. -/
theorem fpOperationsRoundTheExactResult : Obligations.FpOperationsRoundTheExactResult := by
  refine ⟨fun x => ⟨fpUnits_eq_fields x, fpSign_iff x, ?_, fpIsNaN_iff x, fpIsInf_iff x⟩,
    fun n d hd => ⟨flUnits_le n d, flUnits_eq_inf_iff n hd⟩, fun a b _ _ _ _ => ?_, fun n => toNat_fpOfRatio n 1,
    fun k => ⟨toNat_fpOfRatio k _, toNat_fpOfRatio k _⟩⟩
  · simp only [fpValue, fpSign_iff]
  · have hdiff : fpValue a - fpValue b = fpValue a + fpValue (fpNeg b) := by rw [fpValue_fpNeg, Int.sub_eq_add_neg]
    have hsign : fpSign b = false ↔ fpSign (fpNeg b) = true := by rw [fpSign_fpNeg, Bool.not_eq_true']
    simp only [hdiff, hsign]
    exact ⟨toNat_fpMul a b, toNat_fpAdd, toNat_fpAdd_of_zero_sum, toNat_fpAdd, toNat_fpAdd_of_zero_sum⟩

end Sys2Proof.Machine

/-! PROOFS. The Ranged Sampler (44_ranged_sampler.md R161 to R164): an equal range draws nothing, a proper range
draws once, and a sample lies in its range and fits RES. -/

namespace Sys2Proof.Machine

/-! Words read as signed or unsigned numbers (30_encoding.md R65). -/

/-- A word read as two's complement or as unsigned. -/
def wordValue {w : Nat} (signed : Bool) (t : BitVec w) : Int := if signed then t.toInt else t.toNat

theorem boundOperand_eq (signed : Bool) (wc : WidthCode) (arg : Word64) :
    boundOperand signed wc arg = wordValue signed (arg.setWidth (widthBits wc)) := rfl

theorem resValue_eq (signed : Bool) (r : Word64) : resValue signed r = wordValue signed r := rfl

theorem widthBits_bounds (wc : WidthCode) : 0 < widthBits wc ∧ widthBits wc ≤ 64 := by cases wc <;> decide

theorem ofInt_wordValue {w : Nat} (signed : Bool) (t : BitVec w) : BitVec.ofInt w (wordValue signed t) = t := by
  cases signed with
  | true => exact BitVec.ofInt_toInt
  | false => exact (BitVec.ofNat_toNat w t).trans (BitVec.setWidth_eq t)

/-- What lies between two words of a width is a word of that width. -/
theorem exists_word_between {w : Nat} {signed : Bool} {x : Int} (hw : 0 < w) (a b : BitVec w)
    (ha : wordValue signed a ≤ x) (hb : x ≤ wordValue signed b) : ∃ t : BitVec w, x = wordValue signed t := by
  refine ⟨BitVec.ofInt w x, ?_⟩
  cases signed with
  | true => exact (BitVec.toInt_ofInt_eq_self hw (a.le_toInt.trans ha) (hb.trans_lt BitVec.toInt_lt)).symm
  | false =>
    have h0 : 0 ≤ x := (Int.natCast_nonneg _).trans ha
    have hlt : x < (2 ^ w : Nat) := hb.trans_lt (Int.ofNat_lt.mpr b.isLt)
    exact (by rw [BitVec.toNat_ofInt, Int.emod_eq_of_lt h0 hlt, Int.toNat_of_nonneg h0] :
      ((BitVec.ofInt w x).toNat : Int) = x).symm

/-- Sign extension keeps the low bits. -/
theorem setWidth_signExtend {w v : Nat} (h : w ≤ v) (t : BitVec w) : (t.signExtend v).setWidth w = t := by
  ext i hi
  rw [BitVec.getElem_setWidth, BitVec.getLsbD_signExtend]
  simp [hi, Nat.lt_of_lt_of_le hi h]

/-- The word of a sample is read back from RES, as a result and as a bound. -/
theorem narrow_wordValue (signed : Bool) (wc : WidthCode) (t : BitVec (widthBits wc)) :
    resValue signed (narrow signed wc (wordValue signed t)) = wordValue signed t ∧
    boundOperand signed wc (narrow signed wc (wordValue signed t)) = wordValue signed t := by
  have hw := (widthBits_bounds wc).2
  rw [resValue_eq, boundOperand_eq, narrow, ofInt_wordValue]
  cases signed with
  | true =>
    exact ⟨BitVec.toInt_signExtend_of_le hw, congrArg BitVec.toInt (setWidth_signExtend hw t)⟩
  | false =>
    refine ⟨congrArg Nat.cast (BitVec.toNat_setWidth_of_le hw), congrArg (fun b => (BitVec.toNat b : Int)) ?_⟩
    exact (BitVec.setWidth_setWidth_of_le t hw).trans (BitVec.setWidth_eq t)

/-- A number between two bounds is read back from RES. -/
theorem narrow_between {signed : Bool} {wc : WidthCode} {a0 a1 : Word64} {x : Int}
    (hlo : boundOperand signed wc a0 ≤ x) (hhi : x ≤ boundOperand signed wc a1) :
    resValue signed (narrow signed wc x) = x ∧ boundOperand signed wc (narrow signed wc x) = x := by
  rw [boundOperand_eq] at hlo hhi
  obtain ⟨t, rfl⟩ := exists_word_between (widthBits_bounds wc).1 _ _ hlo hhi
  exact narrow_wordValue signed wc t

/-! The clamps. -/

theorem sampleInt_eq {lo hi : Int} (h : lo ≤ hi) (d : Word64) :
    sampleInt lo hi d = max lo (min hi (lo + fpRint (fpMul d (fpOfNat (hi - lo).toNat)))) := by
  unfold sampleInt
  generalize lo + fpRint (fpMul d (fpOfNat (hi - lo).toNat)) = x
  dsimp only
  split <;> split <;> omega

/-- The clamp of RS.FLOAT (44_ranged_sampler.md R164) on a sum `y`. -/
def clampFloat (lo hi y : Word64) : Word64 :=
  if fpValue hi < fpValue y then hi else if fpValue y < fpValue lo then lo else y

section
variable {lo hi : Word64}

theorem sampleFloat_eq (h : fpValue lo ≤ fpValue hi) (d : Word64) :
    sampleFloat lo hi d = clampFloat lo hi (fpAdd lo (fpMul d (fpSub hi lo))) := by
  unfold sampleFloat clampFloat
  generalize fpAdd lo (fpMul d (fpSub hi lo)) = y
  dsimp only
  by_cases hy : fpValue hi < fpValue y
  · rw [if_pos hy, if_pos hy, if_neg (Int.not_lt.mpr h)]
  · rw [if_neg hy, if_neg hy]

theorem clampFloat_bounds (h : fpValue lo ≤ fpValue hi) (y : Word64) :
    fpValue lo ≤ fpValue (clampFloat lo hi y) ∧ fpValue (clampFloat lo hi y) ≤ fpValue hi := by
  unfold clampFloat
  split
  · exact ⟨h, Int.le_refl _⟩
  · split
    · exact ⟨Int.le_refl _, h⟩
    · omega

end

/-! Finite values. -/

theorem fpIsFinite_of {x : Word64} (hnan : fpIsNaN x = false) (hinf : fpIsInf x = false) : fpIsFinite x = true := by
  rw [fpIsFinite, hnan, hinf]
  rfl

theorem not_nan_not_inf {x : Word64} (h : fpIsFinite x = true) : fpIsNaN x = false ∧ fpIsInf x = false := by
  simpa [fpIsFinite] using h

theorem fpIsFinite_iff_exponent (x : Word64) : fpIsFinite x = true ↔ x.toNat / 2 ^ 52 % 2 ^ 11 < 2047 := by
  rw [fpIsFinite, Bool.and_eq_true, Bool.not_eq_true', Bool.not_eq_true', ← Bool.not_eq_true, ← Bool.not_eq_true,
    fpIsNaN_iff, fpIsInf_iff]
  omega

/-- The magnitude of an encoding is that of a finite value exactly where it is below the infinity's. -/
theorem fpIsFinite_iff_fpUnits (x : Word64) : fpIsFinite x = true ↔ fpUnits x < 2 ^ 52 * 2 ^ 2046 := by
  rw [fpIsFinite_iff_exponent, fpUnits_eq_fields]
  generalize hexp : x.toNat / 2 ^ 52 % 2 ^ 11 = e
  have hf : x.toNat % 2 ^ 52 < 2 ^ 52 := Nat.mod_lt _ (by decide)
  generalize x.toNat % 2 ^ 52 = f at hf ⊢
  have hpos : 0 < 2 ^ (e - 1) := Nat.two_pow_pos _
  rcases Nat.lt_or_ge e 2047 with hlt | hge
  · have hpow : 2 ^ (e - 1 + 1) ≤ 2 ^ 2046 := pow_le_pow_right₀ one_le_two (by omega)
    rw [Nat.pow_succ] at hpow
    generalize 2 ^ 2046 = top at hpow ⊢
    refine iff_of_true hlt ?_
    split
    · omega
    · calc (2 ^ 52 + f) * 2 ^ (e - 1) < 2 ^ 53 * 2 ^ (e - 1) := Nat.mul_lt_mul_of_pos_right (by omega) hpos
        _ ≤ 2 ^ 52 * top := by omega
  · have hpow : 2 ^ 2046 ≤ 2 ^ (e - 1) := pow_le_pow_right₀ one_le_two (by omega)
    rw [if_neg (by omega)]
    exact iff_of_false (Nat.not_lt.mpr hge) (Nat.not_lt.mpr (Nat.mul_le_mul (Nat.le_add_right _ _) hpow))

theorem natAbs_fpValue (x : Word64) : (fpValue x).natAbs = fpUnits x := by
  rw [fpValue]
  split
  · rw [Int.natAbs_neg, Int.natAbs_natCast]
  · rfl

/-- What lies between finite values is finite. -/
theorem fpIsFinite_between {lo hi x : Word64} (hlo : fpIsFinite lo = true) (hhi : fpIsFinite hi = true)
    (h : fpValue lo ≤ fpValue x ∧ fpValue x ≤ fpValue hi) : fpIsFinite x = true := by
  rw [fpIsFinite_iff_fpUnits, ← natAbs_fpValue] at *
  generalize 2 ^ 52 * 2 ^ 2046 = bound at *
  omega

/-- Equal bounds have the span 0. -/
theorem fpIsInf_fpSub_self {a b : Word64} (h : fpValue a = fpValue b) : fpIsInf (fpSub b a) = false := by
  rw [fpSub, fpAdd_of_zero_sum (by rw [fpValue_fpNeg, h, Int.add_right_neg])]
  cases fpSign b && fpSign (fpNeg a) <;> decide

/-! The commands. -/

section
variable {s : State} {v : Variant}

/-- A range of one number is delivered without a draw. -/
theorem exec_rsInt_equal {a0 a1 : Word64} {signed : Bool} {wc : WidthCode} (closed : Bool) (hf : s.fault = false)
    (h : boundOperand signed wc a0 = boundOperand signed wc a1) : exec (.rsInt v closed signed wc a0 a1) s =
      .next (s.complete (scalar s.regs (narrow signed wc (boundOperand signed wc a0)))) := by
  refine exec_of_effect_ok hf ?_
  rw [effectOf, ← h, rsIntEffect, decide_eq_true (Int.le_refl _), if_pos rfl]
  rfl

/-- A range of more than one number takes the draw of MT.DOUBLE. -/
theorem exec_rsInt_proper {a0 a1 : Word64} {signed : Bool} {wc : WidthCode} (closed : Bool) (hf : s.fault = false)
    (hs : isSeeded v s.regs = true) (h : boundOperand signed wc a0 < boundOperand signed wc a1) :
    exec (.rsInt v closed signed wc a0 a1) s = .next (s.complete (scalar (nextDouble v closed s.regs).2
      (narrow signed wc (sampleInt (boundOperand signed wc a0) (boundOperand signed wc a1)
        (nextDouble v closed s.regs).1)))) := by
  refine exec_of_effect_ok hf ?_
  rw [effectOf, rsIntEffect, decide_eq_true (Int.le_of_lt h), if_neg (Int.ne_of_lt h), hs]
  rfl

variable {lo hi : Word64}

theorem floatRangeOk_of (hlo : fpIsFinite lo = true) (hhi : fpIsFinite hi = true) (h : fpValue lo ≤ fpValue hi)
    (hspan : fpIsInf (fpSub hi lo) = false) : floatRangeOk lo hi = true := by
  rw [floatRangeOk, hlo, hhi, decide_eq_true h, hspan]
  rfl

theorem exec_rsFloat_equal (closed : Bool) (hf : s.fault = false) (hlo : fpIsFinite lo = true)
    (hhi : fpIsFinite hi = true) (h : fpValue lo = fpValue hi) :
    exec (.rsFloat v closed lo hi) s = .next (s.complete (scalar s.regs lo)) := by
  refine exec_of_effect_ok hf ?_
  rw [effectOf, rsFloatEffect, floatRangeOk_of hlo hhi (Int.le_of_eq h) (fpIsInf_fpSub_self h), if_pos h]
  rfl

theorem exec_rsFloat_proper (closed : Bool) (hf : s.fault = false) (hs : isSeeded v s.regs = true)
    (hrange : floatRangeOk lo hi = true) (hne : fpValue lo ≠ fpValue hi) : exec (.rsFloat v closed lo hi) s =
      .next (s.complete (scalar (nextDouble v closed s.regs).2
        (sampleFloat lo hi (nextDouble v closed s.regs).1))) := by
  refine exec_of_effect_ok hf ?_
  rw [effectOf, rsFloatEffect, hrange, if_neg hne, hs]
  rfl

end

/-- Settles O51: the range is judged valid, and no word is drawn. -/
theorem equalRangesConsumeNoDraw : Obligations.EqualRangesConsumeNoDraw := by
  intro s v closed signed wc a0 a1 hf
  refine ⟨fun h => ⟨_, ?_, exec_rsInt_equal closed hf h⟩, fun hn0 hi0 hn1 hi1 h => ?_⟩
  · exact (narrow_between (Int.le_refl _) (Int.le_refl _)).1
  · exact exec_rsFloat_equal closed hf (fpIsFinite_of hn0 hi0) (fpIsFinite_of hn1 hi1) h

/-- Settles O50: the sample is the clamped one, and a number between two bounds fits RES. -/
theorem integerSampleLiesInTheRange : Obligations.IntegerSampleLiesInTheRange := by
  intro s v closed signed wc a0 a1 hf hs lo hi hlt
  refine ⟨_, _, sampleInt lo hi (nextDouble v closed s.regs).1, exec_mtDouble closed hf hs, rfl,
    sampleInt_eq (Int.le_of_lt hlt) _, ?_⟩
  have hlo : lo ≤ sampleInt lo hi (nextDouble v closed s.regs).1 := by
    rw [sampleInt_eq (Int.le_of_lt hlt)]
    exact le_max_left _ _
  have hhi : sampleInt lo hi (nextDouble v closed s.regs).1 ≤ hi := by
    rw [sampleInt_eq (Int.le_of_lt hlt)]
    exact max_le (Int.le_of_lt hlt) (min_le_left _ _)
  exact ⟨hlo, hhi, exec_rsInt_proper closed hf hs hlt, narrow_between hlo hhi⟩

/-- Settles O52: the sample is the clamped one, and what lies between finite bounds is finite. -/
theorem floatSampleLiesInTheRange : Obligations.FloatSampleLiesInTheRange := by
  intro s v closed lo hi hf hs hnlo hilo hnhi hihi hlt hspan
  have hlo := fpIsFinite_of hnlo hilo
  have hhi := fpIsFinite_of hnhi hihi
  have hle := Int.le_of_lt hlt
  obtain ⟨hge, hle'⟩ := clampFloat_bounds hle (fpAdd lo (fpMul (nextDouble v closed s.regs).1 (fpSub hi lo)))
  obtain ⟨hnan, hinf⟩ := not_nan_not_inf (fpIsFinite_between hlo hhi ⟨hge, hle'⟩)
  refine ⟨_, _, _, exec_mtDouble closed hf hs, rfl, rfl, hge, hle', hnan, hinf, ?_⟩
  rw [exec_rsFloat_proper closed hf hs (floatRangeOk_of hlo hhi hle hspan) (Int.ne_of_lt hlt), sampleFloat_eq hle]
  rfl

end Sys2Proof.Machine

/-! PROOFS. The host's HMAC sequence (45_host_clients.md R170 to R172): each command takes an engine that holds a
message to one that holds a message, and HMAC is read off the messages held on the way. -/

namespace Sys2Proof.Machine.Client

open Sys2Proof.Config

/-! The key (45_host_clients.md R170). -/

theorem fit_eq_append_replicate {α : Type} (d : α) {n : Nat} {l : List α} (h : l.length ≤ n) :
    fit d n l = l ++ List.replicate (n - l.length) d := by
  refine List.ext_getElem? fun i => ?_
  rw [fit_getElem?, List.getElem?_append, List.getElem?_replicate]
  split
  · next hi =>
    split
    · next hl => rw [List.getD_eq_getElem _ _ hl, List.getElem?_eq_getElem hl]
    · next hl => rw [if_pos (by omega), List.getD_eq_default _ _ (by omega)]
  · next hi => rw [if_neg (by omega), if_neg (by omega)]

theorem keyPad_eq {bs : Nat} {k0 : List Byte} (x : Byte) (h : k0.length ≤ bs) :
    keyPad bs k0 x = (k0 ++ List.replicate (bs - k0.length) 0#8).map fun b => b ^^^ x := by
  rw [keyPad, fit_eq_append_replicate _ h]

@[simp] theorem length_keyPad (bs : Nat) (k0 : List Byte) (x : Byte) : (keyPad bs k0 x).length = bs := by
  rw [keyPad, List.length_map, length_fit]

/-- The key brought to at most a block: hashed when it is longer (45_host_clients.md R170). -/
def blockKey (cb : Backend) (k : Kind) (key : List Byte) : List Byte :=
  if blockSize k < key.length then digestOf cb k key else key

theorem length_digestOf_le (cb : Backend) (k : Kind) (m : List Byte) : (digestOf cb k m).length ≤ blockSize k := by
  rw [digestOf, List.length_map, List.length_range]
  cases hdl : digestLength k with
  | none => exact Nat.zero_le _
  | some dl => exact digestLength_le_blockSize hdl

theorem length_blockKey_le (cb : Backend) (k : Kind) (key : List Byte) :
    (blockKey cb k key).length ≤ blockSize k := by
  unfold blockKey
  split
  · exact length_digestOf_le cb k key
  · next hle => exact Nat.le_of_not_lt hle

/-! The commands, by the message the engine holds. -/

/-- Below 2^61 bytes a digest completes whatever the construction. -/
theorem digestFits_of_lt (k : Kind) {T : Nat} (h : T < 2 ^ 61) : DigestFits k T :=
  digestFits_of_limits (fun _ => h) fun _ => by have := blockSize_le k; omega

theorem exists_digestLength {k : Kind} (hk : k ≠ .k128) : ∃ dl, digestLength k = some dl := by
  cases k with
  | k128 => exact absurd rfl hk
  | _ => exact ⟨_, rfl⟩

/-- The unit is not faulted, runs on the backend `cb`, and its engine has absorbed the message `m` since its initial
state (40_digest_engine.md R84). -/
structure HoldsMessage (cb : Backend) (k : Kind) (m : List Byte) (s : State) : Prop where
  fault : s.fault = false
  backend : backendOf s.params.backend = cb
  engine : s.regs.de = messageEngine cb k m

theorem issue_eq {s t : State} {i : Instr} (h : exec i s = .next t) : issue s i = t := by rw [issue, h]

section
variable {s : State} {cb : Backend} {k : Kind} {m data : List Byte}

theorem holdsMessage_deNew (hf : s.fault = false) (hk : k ≠ .k128) :
    HoldsMessage (backendOf s.params.backend) k [] (issue s (.deNew k)) := by
  rw [issue_eq (exec_deNew hf hk)]
  exact ⟨hf, rfl, (messageEngine_nil _ k).symm⟩

theorem HoldsMessage.deReset (h : HoldsMessage cb k m s) : HoldsMessage cb k [] (issue s .deReset) := by
  obtain ⟨hf, rfl, hde⟩ := h
  rw [issue_eq (exec_deReset hf (by rw [hde]; rfl))]
  exact ⟨hf, rfl, by rw [hde]; exact (messageEngine_nil _ k).symm⟩

theorem HoldsMessage.deUpdate (h : HoldsMessage cb k m s) (hlen : m.length + data.length ≤ 2 ^ 64 - 1) :
    HoldsMessage cb k (m ++ data) (issue s (.deUpdate data)) := by
  obtain ⟨hf, rfl, hde⟩ := h
  obtain ⟨_, hexec⟩ := updateExtendsTheMessage s k m data hf hde hlen
  rw [issue_eq hexec]
  exact ⟨hf, rfl, rfl⟩

/-- DE.DIGEST hands the host the digest of the message and leaves the initial engine (40_digest_engine.md R88). -/
theorem HoldsMessage.deDigest (h : HoldsMessage cb k m s) (hk : k ≠ .k128) (hlen : m.length + data.length < 2 ^ 61) :
    dout (issue s (.deDigest data)) = digestOf cb k (m ++ data) ∧
      HoldsMessage cb k [] (issue s (.deDigest data)) := by
  obtain ⟨hf, rfl, hde⟩ := h
  obtain ⟨dl, hdl⟩ := exists_digestLength hk
  have hdigest := digestEngine_messageEngine (backendOf s.params.backend) hdl (digestFits_of_lt k hlen)
  rw [← hde] at hdigest
  rw [issue_eq (exec_of_effect_ok hf (effectOf_deDigest hdigest))]
  exact ⟨rfl, hf, rfl, (messageEngine_nil _ k).symm⟩

/-! The client's operations (45_host_clients.md R171, R172). -/

theorem HoldsMessage.hmacReset (h : HoldsMessage cb k m s) (k0 : List Byte) :
    HoldsMessage cb k (keyPad (blockSize k) k0 0x36#8) (hmacReset (derivePads (blockSize k) k0) s) :=
  h.deReset.deUpdate (data := keyPad (blockSize k) k0 0x36#8) (by
    have := blockSize_le k
    rw [List.length_nil, length_keyPad]
    omega)

/-- `new` derives the pads of the key and leaves the engine primed with the inner one. -/
theorem hmacNew_spec (hf : s.fault = false) (hk : k ≠ .k128) {key : List Byte} (hlen : key.length < 2 ^ 61) :
    let cb := backendOf s.params.backend
    let k0 := blockKey cb k key
    (hmacNew k key s).1 = derivePads (blockSize k) k0 ∧
      HoldsMessage cb k (keyPad (blockSize k) k0 0x36#8) (hmacNew k key s).2 := by
  have hnew := holdsMessage_deNew hf hk
  unfold hmacNew blockKey
  by_cases hlong : blockSize k < key.length
  · obtain ⟨hdout, hdigest⟩ := hnew.deDigest hk (data := key) (by simpa using hlen)
    simp only [gt_iff_lt, if_pos hlong, hdout, List.nil_append]
    exact ⟨trivial, hdigest.hmacReset _⟩
  · simp only [gt_iff_lt, if_neg hlong]
    exact ⟨trivial, hnew.hmacReset _⟩

/-- `compute` hashes what the engine holds and the data, and that digest behind the outer pad. -/
theorem hmacCompute_fst {ctx : HmacContext} (h : HoldsMessage cb k m s) (hk : k ≠ .k128)
    (hlen : m.length + data.length < 2 ^ 61) (hpad : ctx.oKeyPad.length ≤ blockSize k) :
    (hmacCompute ctx data s).1 = digestOf cb k (ctx.oKeyPad ++ digestOf cb k (m ++ data)) := by
  have hbs := blockSize_le k
  have hinner := length_digestOf_le cb k (m ++ data)
  obtain ⟨hdout, hdigest⟩ := h.deDigest hk hlen
  have houter := hdigest.deUpdate (data := ctx.oKeyPad) (by rw [List.length_nil]; omega)
  obtain ⟨hmacBytes, _⟩ := houter.deDigest hk (data := digestOf cb k (m ++ data)) (by rw [List.nil_append]; omega)
  rw [hmacCompute, hdout, hmacBytes, List.nil_append]

end

/-- Settles O58: `new` primes the engine with the inner pad, `compute` finishes both digests, and the pads are those
of the padded key. -/
theorem hmacIsTheNestedDigest : Obligations.HmacIsTheNestedDigest := by
  intro s k key m hf hk hkey hm H bs k0 k1
  have hbs := blockSize_le k
  obtain ⟨hctx, hprimed⟩ := hmacNew_spec hf hk (key := key) (by omega)
  have hpad (x : Byte) : keyPad bs k0 x = k1.map fun b => b ^^^ x := keyPad_eq x (length_blockKey_le _ k key)
  have hlen : (keyPad bs k0 0x36#8).length + m.length < 2 ^ 61 := by rw [length_keyPad]; omega
  rw [hmac, hctx, hmacCompute_fst hprimed hk hlen (length_keyPad _ _ _).le, ← hpad, ← hpad]
  rfl

end Sys2Proof.Machine.Client

/-! PROOFS. The faults of the commands (60_exceptions.md R191 to R199, R209). A command answers the first of its
ordered tests that fails: `testsOf` is the column of R199 of each command, and `effectOf_checks` ties it to the model. -/

namespace Sys2Proof.Machine

open Sys2Proof.Config

/-! Ordered tests. -/

/-- In a list of tests, each with the cause of its failure, `c` is the cause of the first that fails (60_exceptions.md
R199). -/
inductive FirstFails (c : Cause) : List (Prop × Cause) → Prop
  | here {p : Prop} {ts : List (Prop × Cause)} (h : ¬ p) : FirstFails c ((p, c) :: ts)
  | there {p : Prop} {c' : Cause} {ts : List (Prop × Cause)} (h : p) (hts : FirstFails c ts) :
      FirstFails c ((p, c') :: ts)

section
variable {c c' : Cause} {p : Prop} {ts : List (Prop × Cause)}

theorem FirstFails.exists_failed (h : FirstFails c ts) : ∃ t ∈ ts, ¬ t.1 ∧ t.2 = c := by
  induction h with
  | here h => exact ⟨_, List.mem_cons_self, h, rfl⟩
  | there _ _ ih =>
    obtain ⟨t, ht, hfailed⟩ := ih
    exact ⟨t, List.mem_cons_of_mem _ ht, hfailed⟩

theorem FirstFails.mem (h : FirstFails c ts) : c ∈ ts.map Prod.snd := by
  obtain ⟨t, ht, _, rfl⟩ := h.exists_failed
  exact List.mem_map_of_mem ht

theorem firstFails_nil : ¬ FirstFails c [] := nofun

theorem firstFails_cons :
    FirstFails c ((p, c') :: ts) ↔ (¬ p ∧ c' = c) ∨ (p ∧ FirstFails c ts) := by
  constructor
  · rintro (h | ⟨h, hts⟩)
    · exact .inl ⟨h, rfl⟩
    · exact .inr ⟨h, hts⟩
  · rintro (⟨h, rfl⟩ | ⟨h, hts⟩)
    · exact .here h
    · exact .there h hts

end

/-- The causes `x` faults with are those of the first failing test of the list. -/
def Checks {α : Type} (x : Except Cause α) (ts : List (Prop × Cause)) : Prop := ∀ c, x = .error c ↔ FirstFails c ts

section
variable {α β : Type} {x : Except Cause α} {f : α → Except Cause β} {ts : List (Prop × Cause)} {p : Prop} {c : Cause}

theorem checks_ok (a : α) (h : ∀ t ∈ ts, t.1) : Checks (.ok a : Except Cause α) ts := by
  refine fun c => iff_of_false nofun fun hc => ?_
  obtain ⟨t, ht, hfailed, _⟩ := hc.exists_failed
  exact hfailed (h t ht)

/-- A guard is the first test, and what follows it may rely on it. -/
theorem Checks.guard {b : Bool} {f : Unit → Except Cause β} (hb : b = true ↔ p) (hf : p → Checks (f ()) ts) :
    Checks (require b c >>= f) ((p, c) :: ts) := by
  intro c'
  rw [firstFails_cons, ← hb]
  cases b with
  | false => simp
  | true => simpa using hf (hb.mp rfl) c'

/-- A guard on a table entry is the first test, and what follows it has the entry. -/
theorem Checks.guardSome {o : Option α} (ho : o.isSome = true ↔ p) (hf : ∀ a, o = some a → Checks (f a) ts) :
    Checks (requireSome o c >>= f) ((p, c) :: ts) := by
  intro c'
  rw [firstFails_cons, ← ho]
  cases o with
  | none => simp
  | some a => simpa using hf a rfl c'

/-- A guard alone. -/
theorem checks_guarded {b : Bool} (a : β) (hb : b = true ↔ p) :
    Checks (require b c >>= fun _ => .ok a) [(p, c)] := .guard hb fun _ => checks_ok a nofun

/-- Where `q` ends the command, the tests behind it are judged under `¬ q` only. -/
theorem Checks.unless {q : Prop} [Decidable q] {a : α} (ts : List (Prop × Cause)) (hx : Checks x ts) :
    Checks (if q then .ok a else x) (ts.map fun t => (¬ q → t.1, t.2)) := by
  by_cases hq : q
  · rw [if_pos hq]
    refine checks_ok a fun t ht => ?_
    obtain ⟨_, _, rfl⟩ := List.mem_map.mp ht
    exact fun hn => absurd hq hn
  · simpa [hq] using hx

/-- What cannot fault adds no test. -/
theorem Checks.andThen (hx : Checks x ts) (hf : ∀ a c, f a ≠ .error c) : Checks (x >>= f) ts := by
  intro c
  rw [bind_eq_error, ← hx c]
  exact or_iff_left fun ⟨a, _, h⟩ => hf a c h

/-- One test: it decides whether `x` completes, and `x` has no other cause. -/
theorem checks_single (hok : (∃ a, x = .ok a) ↔ p) (herr : ∀ c', x = .error c' → c' = c) : Checks x [(p, c)] := by
  intro c'
  rw [firstFails_cons, ← hok]
  cases x with
  | ok a => simp [firstFails_nil]
  | error c'' =>
    obtain rfl := herr c'' rfl
    simp

end

/-! The tests of the engine's commands (60_exceptions.md R195 to R197). -/

section
variable {cb : Backend} {e : Engine} {c : Cause}

theorem absorb_checks (cb : Backend) (e : Engine) (d : List Byte) :
    Checks (absorb cb e d) [(e.total.toNat + d.length ≤ 2 ^ 64 - 1, .lenOverflow)] := by
  rcases absorb_cases cb e d with ⟨hgt, h⟩ | ⟨hle, h⟩
  · exact checks_single (iff_of_false (by simp [h]) (by omega)) (by simp [h])
  · exact checks_single (iff_of_true ⟨_, h⟩ hle) (by simp [h])

theorem absorb_error {d : List Byte} (h : absorb cb e d = .error c) : c = .lenOverflow := by
  simpa using ((absorb_checks cb e d c).mp h).mem

theorem digestPad_error {k : Kind} {T : Nat} (h : digestPad k T = .error c) : c = .lenOverflow := by
  unfold digestPad mdPad at h
  split at h
  · cases h
  · split at h <;> cases h
    rfl

theorem updateEngine_checks (cb : Backend) (e : Engine) (data : List Byte) : Checks (updateEngine cb e data)
    [(e.valid = true, .noEngine), (e.phase = .absorb, .badPhase),
     (e.total.toNat + data.length ≤ 2 ^ 64 - 1, .lenOverflow)] :=
  .guard Iff.rfl fun _ => .guard beq_iff_eq fun _ => (absorb_checks cb e data).andThen nofun

/-- Only K128 has no digest length (10_state.md R10). -/
theorem digestLength_isSome_iff {k : Kind} : (digestLength k).isSome = true ↔ k ≠ .k128 := by
  cases k <;> simp [digestLength]

theorem digestEngine_checks (cb : Backend) (e : Engine) (data : List Byte) : Checks (digestEngine cb e data)
    [(e.valid = true, .noEngine), (e.kind ≠ .k128, .badKind), (e.phase = .absorb, .badPhase),
     (DigestFits e.kind (e.total.toNat + data.length), .lenOverflow)] := by
  refine .guard Iff.rfl fun hv => .guardSome digestLength_isSome_iff fun dl hdl => .guard beq_iff_eq fun hp =>
    checks_single ?_ ?_
  · have hcompletes : (∃ a, digestEngine cb e data = .ok a) ↔ DigestFits e.kind (e.total.toNat + data.length) :=
      ⟨fun ⟨_, h⟩ => digestEngine_fits h, fun h => (digestEngine_of_fits cb hv hp hdl h).imp' _ fun _ => id⟩
    rwa [digestEngine, hv, hdl, hp] at hcompletes
  · intro c h
    simp only [bind_eq_error] at h
    rcases h with h | ⟨e1, _, h | ⟨pad, _, h | ⟨_, _, h⟩⟩⟩
    · exact absorb_error h
    · exact digestPad_error h
    · exact absorb_error h
    · cases h

/-- The counter has room for the XOF pad (42_sponge.md R113). -/
def Engine.PadFits (e : Engine) : Prop :=
  e.total.toNat + (blockSize e.kind - e.total.toNat % blockSize e.kind) ≤ 2 ^ 64 - 1

theorem absorbXofPad_checks (cb : Backend) (e : Engine) : Checks (absorbXofPad cb e) [(e.PadFits, .lenOverflow)] := by
  rw [Engine.PadFits, ← length_spongePad _ _ xofSuffix (blockSize_pos _)]
  exact absorb_checks cb e _

/-- Finalising the input is what XOF.READ can fault at; in SQUEEZE it is done (42_sponge.md R120). -/
theorem enterSqueeze_checks (cb : Backend) (e : Engine) :
    Checks (enterSqueeze cb e) [(e.phase = .absorb → e.PadFits, .lenOverflow)] := by
  cases hp : e.phase with
  | absorb =>
    rw [enterSqueeze, hp]
    simp only [true_implies]
    exact (absorbXofPad_checks cb e).andThen nofun
  | squeeze =>
    rw [enterSqueeze_squeeze cb hp]
    exact checks_ok e (by simp)

theorem digestXof_checks (cb : Backend) (e : Engine) (n : Nat) : Checks (digestXof cb e n)
    [(e.valid = true, .noEngine), (servesXof e.kind = true, .badKind), (n ≠ 0 → e.phase = .absorb, .badPhase),
     (n ≠ 0 → e.PadFits, .lenOverflow)] :=
  .guard Iff.rfl fun _ => .guard Iff.rfl fun _ => .unless [(e.phase = .absorb, .badPhase), (e.PadFits, .lenOverflow)]
    (.guard beq_iff_eq fun _ => (absorbXofPad_checks cb e).andThen nofun)

theorem readXof_checks (cb : Backend) (e : Engine) (n : Nat) : Checks (readXof cb e n)
    [(e.valid = true, .noEngine), (servesXof e.kind = true, .badKind),
     (n ≠ 0 → e.phase = .absorb → e.PadFits, .lenOverflow)] :=
  .guard Iff.rfl fun _ => .guard Iff.rfl fun _ => .unless [(e.phase = .absorb → e.PadFits, .lenOverflow)]
    ((enterSqueeze_checks cb e).andThen nofun)

theorem onEngine_checks {r : Regs} {f : Except Cause (Engine × List Byte)} {ts : List (Prop × Cause)} (h : Checks f ts) :
    Checks (onEngine r f) ts := fun c => onEngine_eq_error.trans (h c)

end

/-! The tests of the generator and the sampler (60_exceptions.md R198, 44_ranged_sampler.md R161, R164). -/

section
variable (v : Variant) (r : Regs)

theorem extraction_checks (draw : Regs → Word64 × Regs) :
    Checks (extraction v draw r) [(isSeeded v r = true, .mtUnseeded)] := checks_guarded _ Iff.rfl

theorem rsIntEffect_checks (closed signed : Bool) (wc : WidthCode) (lo hi : Int) :
    Checks (rsIntEffect v closed signed wc lo hi r)
      [(lo ≤ hi, .badRange), (lo ≠ hi → isSeeded v r = true, .mtUnseeded)] :=
  .guard decide_eq_true_iff fun _ => .unless [(isSeeded v r = true, .mtUnseeded)] (checks_guarded _ Iff.rfl)

theorem rsFloatEffect_checks (closed : Bool) (lo hi : Word64) : Checks (rsFloatEffect v closed lo hi r)
    [(floatRangeOk lo hi = true, .badRange), (fpValue lo ≠ fpValue hi → isSeeded v r = true, .mtUnseeded)] :=
  .guard Iff.rfl fun _ => .unless [(isSeeded v r = true, .mtUnseeded)] (checks_guarded _ Iff.rfl)

end

/-! The tests of every command. -/

/-- The ordered tests of a command on an unfaulted unit (60_exceptions.md R199), each with the cause of its failure. That
DE.NEW tests for K128, which no header selects, is the model's choice (log entry 14). -/
def testsOf (s : State) : Instr → List (Prop × Cause)
  | .deNew kind => [(kind ≠ .k128, .illegalCommand)]
  | .deUpdate data =>
    let e := s.regs.de
    [(e.valid = true, .noEngine), (e.phase = .absorb, .badPhase),
     (e.total.toNat + data.length ≤ 2 ^ 64 - 1, .lenOverflow)]
  | .deDigest data =>
    let e := s.regs.de
    [(e.valid = true, .noEngine), (e.kind ≠ .k128, .badKind), (e.phase = .absorb, .badPhase),
     (DigestFits e.kind (e.total.toNat + data.length), .lenOverflow)]
  | .deReset => [(s.regs.de.valid = true, .noEngine)]
  | .xofDigest n =>
    let e := s.regs.de
    [(e.valid = true, .noEngine), (servesXof e.kind = true, .badKind), (n.toNat ≠ 0 → e.phase = .absorb, .badPhase),
     (n.toNat ≠ 0 → e.PadFits, .lenOverflow)]
  | .xofRead n =>
    let e := s.regs.de
    [(e.valid = true, .noEngine), (servesXof e.kind = true, .badKind),
     (n.toNat ≠ 0 → e.phase = .absorb → e.PadFits, .lenOverflow)]
  | .mtSeedA _ key => [(key ≠ [], .badOperand)]
  | .mtNext v | .mtNextW v | .mtBit v | .mtDouble v _ | .mtGetState v => [(isSeeded v s.regs = true, .mtUnseeded)]
  | .rsInt v _ signed wc arg0 arg1 =>
    let lo := boundOperand signed wc arg0
    let hi := boundOperand signed wc arg1
    [(lo ≤ hi, .badRange), (lo ≠ hi → isSeeded v s.regs = true, .mtUnseeded)]
  | .rsFloat v _ lo hi =>
    [(floatRangeOk lo hi = true, .badRange), (fpValue lo ≠ fpValue hi → isSeeded v s.regs = true, .mtUnseeded)]
  | .xofNew _ | .mtSeedR _ | .mtSeed _ _ | .mtSetState _ _ => []

/-- The effect of a command faults with the cause of its first failing test, and completes when none fails. -/
theorem effectOf_checks (s : State) (i : Instr) : Checks (effectOf s i) (testsOf s i) := by
  cases i with
  | deNew k => exact onEngine_checks (checks_guarded _ bne_iff_ne)
  | deUpdate data => exact onEngine_checks (updateEngine_checks _ _ data)
  | deDigest data => exact onEngine_checks (digestEngine_checks _ _ data)
  | deReset => exact onEngine_checks (checks_guarded _ Iff.rfl)
  | xofNew level => exact onEngine_checks (checks_ok _ nofun)
  | xofDigest n => exact onEngine_checks (digestXof_checks _ _ n.toNat)
  | xofRead n => exact onEngine_checks (readXof_checks _ _ n.toNat)
  | mtSeedA v key => exact checks_guarded _ (by simp)
  | mtNext v | mtNextW v | mtBit v | mtDouble v closed => exact extraction_checks v s.regs _
  | mtGetState v => exact checks_guarded _ Iff.rfl
  | mtSetState v img => rw [effectOf, setStateEffect_eq]; exact checks_ok _ nofun
  | rsInt v closed signed wc arg0 arg1 => exact rsIntEffect_checks v s.regs closed signed wc _ _
  | rsFloat v closed lo hi => exact rsFloatEffect_checks v s.regs closed lo hi
  | mtSeedR v | mtSeed v arg0 => exact checks_ok _ nofun

section
variable {i : Instr} {s t : State} {c : Cause}

/-- An unfaulted unit raises the cause of the first failing test. -/
theorem exec_raises (hf : s.fault = false) (hc : FirstFails c (testsOf s i)) : RaisesFault (exec i s) s c :=
  exec_of_effect_error hf ((effectOf_checks s i c).mpr hc)

/-- A command that leaves an unfaulted unit faulted has raised the cause of its first failing test. -/
theorem exec_faulted (h : exec i s = .next t) (hf : s.fault = false) (ht : t.fault = true) :
    ∃ c, FirstFails c (testsOf s i) ∧ t = s.raiseFault c := by
  rcases exec_cases h with ⟨hs, _⟩ | ⟨_, d, _, rfl⟩ | ⟨_, c, hc, rfl⟩
  · simp [hf] at hs
  · simp [hf] at ht
  · exact ⟨c, (effectOf_checks s i c).mp hc, rfl⟩

/-- An unfaulted unit completes a command or takes the fault it raises (60_exceptions.md R209). -/
theorem exec_completes_or_faults (i : Instr) (hf : s.fault = false) :
    (∃ d, exec i s = .next (s.complete d)) ∨ ∃ c, c ≠ .none ∧ exec i s = .next (s.raiseFault c) := by
  cases h : effectOf s i with
  | ok d => exact .inl ⟨d, exec_of_effect_ok hf h⟩
  | error c => exact .inr ⟨c, fun hc => effectOf_ne_error_none s i (hc ▸ h), exec_of_effect_error hf h⟩

end

/-- Settles O11: the cause is one of the command's tests; the test of the kind cannot fail, since no header
selects K128. -/
theorem causesRaisedByEachCommand : Obligations.CausesRaisedByEachCommand := by
  intro i s t hwf hf hx ht
  obtain ⟨c, hc, rfl⟩ := exec_faulted hx hf ht
  cases i with
  | deNew k =>
    rcases firstFails_cons.mp hc with ⟨hk, _⟩ | ⟨_, hnil⟩
    · exact absurd (bne_iff_ne.mp hwf) hk
    · exact absurd hnil firstFails_nil
  | _ => exact hc.mem

/-- Settles O10: `exec_completes_or_faults` for the command that decodes; a header that does not decode raises
ILLEGAL_COMMAND. -/
theorem commandsCompleteOrFault : Obligations.CommandsCompleteOrFault := by
  refine ⟨fun i s hf => ?_, fun s c ent rest hin hf hpayload => ?_⟩
  · rcases exec_completes_or_faults i hf with ⟨d, hd⟩ | ⟨cause, hne, hcause⟩
    · exact .inl ⟨d.regs, d.dout, d.res, hd⟩
    · exact .inr ⟨cause, hne, hcause⟩
  · cases hd : decode c with
    | ok i =>
      rw [step_command hin hf hd]
      rcases exec_completes_or_faults i (s := s.latch rest ent c.payload.length) hf with ⟨d, h⟩ | ⟨cause, hne, h⟩
      · exact ⟨_, h, .inl ⟨d.dout, d.res, rfl, hf, rfl⟩⟩
      · exact ⟨_, h, .inr ⟨cause, hne, rfl, rfl, rfl⟩⟩
    | error e =>
      have he : e.isIllegalHeader = true := by
        cases e with
        | payloadLength => exact absurd hd hpayload
        | _ => rfl
      exact ⟨_, step_illegal hin hf hd he, .inr ⟨.illegalCommand, nofun, rfl, rfl, rfl⟩⟩

/-- A step of a faulted unit on any raw command (60_exceptions.md R193). -/
theorem step_faulted {s : State} {c : Command} {ent : Word64} {rest : List Input}
    (hin : s.inputs = .command c ent :: rest) (hf : s.fault = true) : step s = .next (s.latch rest ent 0).refuse := by
  simp [step, transact, hin, runCommand, hf]

/-- Settles O12: the refusal of a command, decoded or raw; what clears FAULT is O13. -/
theorem faultedUnitRefusesEverything : Obligations.FaultedUnitRefusesEverything := by
  refine fun s hf => ⟨fun i => ?_, fun c ent rest hin => step_faulted hin hf, fun t h ht => ?_⟩
  · rw [exec_eq_perform, perform_faulted hf]
    rfl
  · rcases faultEndsOnlyByReset s t hf h with ⟨ht', _⟩ | ⟨_, _, hrst⟩
    · simp [ht] at ht'
    · exact hrst

/-! The order of the tests. -/

/-- Where the message itself passes the counter there is no room for a pad: DE.DIGEST has one test of its length. -/
theorem not_digestFits_of_overflow {k : Kind} {T : Nat} (h : 2 ^ 64 - 1 < T) : ¬ DigestFits k T :=
  fun hfits => Nat.not_lt.mpr hfits.message_le h

theorem not_digestFits_md {k : Kind} {T : Nat} (hs : isSponge k = false) (h : 2 ^ 61 ≤ T) : ¬ DigestFits k T := by
  rw [DigestFits, hs, if_neg Bool.false_ne_true]
  exact Nat.not_lt.mpr h

theorem not_digestFits_sponge {k : Kind} {T : Nat} (hs : isSponge k = true)
    (h : 2 ^ 64 - 1 < T + (blockSize k - T % blockSize k)) : ¬ DigestFits k T := by
  rw [DigestFits, if_pos hs]
  exact Nat.not_le.mpr h

/-- K128 is a sponge kind. -/
theorem ne_k128_of_not_sponge {k : Kind} (hs : isSponge k = false) : k ≠ .k128 := by
  rintro rfl
  cases hs

/-- Settles O18: in each clause the first failing test is named, behind the tests that pass. -/
theorem engineChecksComeInOrder : Obligations.EngineChecksComeInOrder := by
  intro s data n hf e bs T pad xof
  have invalid (h : e.valid = false) : ¬ e.valid = true := by simp [h]
  have squeezing (h : e.phase = .squeeze) : ¬ e.phase = .absorb := by simp [h]
  have serves (h : xof) : servesXof e.kind = true := servesXof_iff.mpr h
  have notServes (h : ¬ xof) : ¬ servesXof e.kind = true := mt servesXof_iff.mp h
  have nonzero (h : n ≠ 0) : n.toNat ≠ 0 := BitVec.toNat_ne.mp h
  refine ⟨fun hv => ?_, fun hv hk => ?_, fun hv hx => ?_, fun hv hp => ?_, fun hv hp hk => ?_, fun hv hp hx hn => ?_,
    fun hv hp hT => ?_, fun hv hp hk hT => ?_, fun hv hp hs hT => ?_, fun hv hp hs hk hT => ?_,
    fun hv hp hx hn hT => ?_⟩
  · have hv := invalid hv
    exact ⟨exec_raises hf (.here hv), exec_raises hf (.here hv), exec_raises hf (.here hv),
      exec_raises hf (.here hv), exec_raises hf (.here hv)⟩
  · exact exec_raises hf (.there hv (.here (not_not.mpr hk)))
  · exact ⟨exec_raises hf (.there hv (.here (notServes hx))), exec_raises hf (.there hv (.here (notServes hx)))⟩
  · exact exec_raises hf (.there hv (.here (squeezing hp)))
  · exact exec_raises hf (.there hv (.there hk (.here (squeezing hp))))
  · exact exec_raises hf (.there hv (.there (serves hx) (.here fun h => squeezing hp (h (nonzero hn)))))
  · exact exec_raises hf (.there hv (.there hp (.here (Nat.not_le.mpr hT))))
  · exact exec_raises hf (.there hv (.there hk (.there hp (.here (not_digestFits_of_overflow hT)))))
  · exact exec_raises hf (.there hv (.there (ne_k128_of_not_sponge hs) (.there hp (.here (not_digestFits_md hs hT)))))
  · exact exec_raises hf (.there hv (.there hk (.there hp (.here (not_digestFits_sponge hs hT)))))
  · have hroom := Nat.not_le.mpr hT
    exact ⟨exec_raises hf (.there hv (.there (serves hx) (.there (fun _ => hp)
        (.here fun h => hroom (h (nonzero hn)))))),
      exec_raises hf (.there hv (.there (serves hx) (.here fun h => hroom (h (nonzero hn) hp))))⟩

/-- A range of doubles that is judged valid has finite bounds in order and a finite span (44_ranged_sampler.md R164). -/
theorem of_floatRangeOk {lo hi : Word64} (h : floatRangeOk lo hi = true) :
    fpIsFinite lo = true ∧ fpIsFinite hi = true ∧ fpValue lo ≤ fpValue hi ∧ fpIsInf (fpSub hi lo) = false := by
  simpa [floatRangeOk, and_assoc] using h

/-- Settles O19: in each clause the first failing test is named, behind the tests that pass. -/
theorem generatorChecksComeInOrder : Obligations.GeneratorChecksComeInOrder := by
  intro s v closed signed wc x y hf
  refine ⟨by cases v <;> rfl, exec_raises hf (.here (not_not.mpr rfl)), fun hs => ?_, fun hlt => ?_,
    fun hs hlt => ?_, fun hbad => ?_, fun hs hnx hny hix hiy hlt hspan => ?_⟩
  · have hs := Bool.eq_false_iff.mp hs
    exact ⟨exec_raises hf (.here hs), exec_raises hf (.here hs), exec_raises hf (.here hs),
      exec_raises hf (.here hs), exec_raises hf (.here hs)⟩
  · exact exec_raises hf (.here (Int.not_le.mpr hlt))
  · exact exec_raises hf (.there (Int.le_of_lt hlt) (.here fun h => Bool.eq_false_iff.mp hs (h (Int.ne_of_lt hlt))))
  · refine exec_raises hf (.here fun hok => ?_)
    obtain ⟨hfx, hfy, hle, hspan⟩ := of_floatRangeOk hok
    obtain ⟨hnx, hix⟩ := not_nan_not_inf hfx
    obtain ⟨hny, hiy⟩ := not_nan_not_inf hfy
    simp [hnx, hny, hix, hiy, hspan, Int.not_lt.mpr hle] at hbad
  · have hok := floatRangeOk_of (fpIsFinite_of hnx hix) (fpIsFinite_of hny hiy) (Int.le_of_lt hlt) hspan
    exact exec_raises hf (.there hok (.here fun h => Bool.eq_false_iff.mp hs (h (Int.ne_of_lt hlt))))

end Sys2Proof.Machine

/-! PROOFS. Hardware reset and the transactions outside the spec (70_reset_and_hazards.md R210, R213). -/

namespace Sys2Proof.Machine

/-! What stops the machine. -/

/-- `W/8` of the core a header selects (30_encoding.md R65). -/
theorem wordBytes_variantOf (hdr : Word32) : (variantOf hdr).wordBytes = if hdr.getLsbD 16 then 8 else 4 := by
  unfold variantOf
  split <;> rfl

/-- The opcode alone fixes which fields announce the payload (20_memory.md R42). -/
theorem announcedLength_eq_payloadLen {op : Op} {c : Command} (hop : opField c.hdr = op.code) :
    announcedLength c = payloadLen op c.hdr c.arg0 := by
  have hop' : c.hdr.extractLsb' 24 8 = op.code := hop
  cases op <;> simp [announcedLength, hop', Op.code, payloadLen, wordBytes_variantOf]

/-- A legal header leaves the decoder one test, that of the payload's length (30_encoding.md R66, R68). -/
theorem decode_of_fits {op : Op} {c : Command} {i : Instr} (hfits : op.Fits c.hdr) (hops : operands op c = .ok i) :
    decode c = if c.payload.length = announcedLength c then .ok i else .error .payloadLength := by
  simp only [decode, rowOf_eq_ok.mpr hfits, hops, announcedLength_eq_payloadLen hfits.code]

theorem decode_eq_payloadLength_iff (c : Command) : decode c = .error .payloadLength ↔
    (¬ ∃ e, decode c = .error e ∧ e.isIllegalHeader = true) ∧ c.payload.length ≠ announcedLength c := by
  by_cases hlegal : ∃ op : Op, op.Fits c.hdr ∧ op.SelLegal (selField c.hdr)
  · have hnot := mt (decode_illegal_iff c).mp (not_not.mpr hlegal)
    obtain ⟨op, hfits, hsel⟩ := hlegal
    obtain ⟨i, hi⟩ := ((operands_cases op c).resolve_right fun h => h.1 hsel).2
    rw [and_iff_right hnot, decode_of_fits hfits hi]
    split <;> simp [*]
  · have hill := (decode_illegal_iff c).mpr hlegal
    refine iff_of_false (fun hd => ?_) fun h => h.1 hill
    obtain ⟨e, he, hbad⟩ := hill
    cases hd.symm.trans he
    cases hbad

/-- A step of an unfaulted unit on a payload that is not the announced one (log entry 10). -/
theorem step_payloadLength {s : State} {c : Command} {ent : Word64} {rest : List Input}
    (hin : s.inputs = .command c ent :: rest) (hf : s.fault = false) (hd : decode c = .error .payloadLength) :
    step s = .fault .portsOutOfStep := by
  simp [step, transact, hin, runCommand, hf, hd, DecodeError.isIllegalHeader]

/-- A step on RST (70_reset_and_hazards.md R210). -/
theorem step_rst {s : State} {rest : List Input} (hin : s.inputs = .rst :: rest) :
    step s = .next ({ s with inputs := rest } : State).hardReset := by
  simp [step, transact, hin]

/-- A step that answers no next state has an unfaulted unit take a payload that is not the announced one. -/
theorem payloadLength_of_step_stops {s : State} (h : ¬ ∃ t, step s = .next t) :
    s.fault = false ∧ ∃ c ent rest, s.inputs = .command c ent :: rest ∧ decode c = .error .payloadLength := by
  rcases hin : s.inputs with _ | ⟨⟨c, ent⟩ | _, rest⟩
  · exact absurd ⟨_, step_idle hin⟩ h
  · cases hf : s.fault with
    | true => exact absurd ⟨_, step_faulted hin hf⟩ h
    | false =>
      refine ⟨rfl, c, ent, rest, rfl, by_contra fun hd => ?_⟩
      obtain ⟨t, ht, _⟩ := commandsCompleteOrFault.2 s c ent rest hin hf hd
      exact h ⟨t, ht⟩
  · exact absurd ⟨_, step_rst hin⟩ h

/-- Settles O9: the mismatch spelled out is the decoder's `payloadLength`, the one answer that stops a step. -/
theorem onlyAMismatchedPayloadStops : Obligations.OnlyAMismatchedPayloadStops := by
  intro s mismatched
  simp only [mismatched, ← decode_eq_payloadLength_iff]
  refine ⟨⟨payloadLength_of_step_stops, ?_⟩, ?_⟩
  · rintro ⟨hf, c, ent, rest, hin, hd⟩ ⟨t, ht⟩
    cases (step_payloadLength hin hf hd).symm.trans ht
  · rintro ⟨hf, c, ent, rest, hin, hd⟩
    exact step_payloadLength hin hf hd

/-! What reset leaves. -/

/-- Of STATUS only bit 6, the phase, can be set where FAULT, CAUSE and the guards are clear (10_state.md R27). -/
theorem status_masked_eq_zero {s : State} (hf : s.fault = false) (hc : s.cause = .none)
    (hv : s.regs.de.valid = false) (h32 : s.regs.mt32.seeded = false) (h64 : s.regs.mt64.seeded = false) :
    s.status &&& 0b110111111#9 = 0#9 := by
  rw [State.status, hf, hc, hv, h32, h64]
  cases s.regs.de.phase <;> rfl

/-- Settles O15: the registers RST leaves, under either reading of what is unspecified, are clear where R210 gives
a value. -/
theorem hardwareResetFromAnyState : Obligations.HardwareResetFromAnyState := by
  intro s rest hin
  have hv := regsAfterRst_valid { s with inputs := rest }
  have h32 := regsAfterRst_mt32 { s with inputs := rest }
  have h64 := regsAfterRst_mt64 { s with inputs := rest }
  exact ⟨_, step_rst hin, rfl, rfl, hv, h32, h64, status_masked_eq_zero rfl rfl hv h32 h64, rfl⟩

/-- Settles O16: the reset state is clear where R210 gives a value, and with nothing sent its step is the idle one. -/
theorem resetStateIsAsTheSpecSays : Obligations.ResetStateIsAsTheSpecSays :=
  ⟨rfl, rfl, rfl, rfl, rfl, status_masked_eq_zero rfl rfl rfl rfl rfl, step_idle rfl⟩

end Sys2Proof.Machine
